-- ==== Sys2Proof/Word.lean ====
section
/-! DEFINITION. The word types of the machine (00_scope.md R6, R9): 32-bit registers and addresses, bytes, and general
register indices 0 to 31 (10_state.md R11). -/
namespace Sys2Proof

/-- A register value, an address or an instruction word: 32 bits (R6). -/
abbrev Word := BitVec 32

/-- A byte of memory: 8 bits. -/
abbrev Byte := BitVec 8

/-- The index of a general register, 0 to 31 (R11). -/
abbrev RegNum := Fin 32

end Sys2Proof
end

