-- ==== Sys2Proof/Config.lean ====
section
/-! DEFINITION. What a machine is configured with: the parameters of 00_scope.md R7 and R8, held as data so that a model takes
them as arguments (notes/assumptions/1.md), and the free values of the one result the spec leaves without a value. -/
namespace Sys2Proof

/-- `OOR_VPN_EXCEPTION` (R8, 20_memory.md R47): the exception for a vpn at or beyond `pageTableSize`. -/
inductive OorVpn where
  | pageFault
  | addressError
deriving DecidableEq, Repr

/-- `MERGE_TABLE` (R8, 43_loads_stores.md R164, R165): the byte-merge tables of LWL, LWR, SWL, SWR. -/
inductive MergeTable where
  | impl
  | archLE
deriving DecidableEq, Repr

/-- `DIV_OVF` (R8, 42_multiply_divide.md R143): DIV of 0x80000000 by 0xFFFFFFFF. `refuse` (the spec's value) and `pair` are the spec's values
of the parameter; `free` is a pair that nothing constrains. DESIGN CHOICE: `free` is offered by the model (notes/assumptions/3.md). -/
inductive DivOvf where
  | free
  | refuse
  | pair (hi lo : Word)
deriving DecidableEq, Repr

/-- `LOAD_POLICY` (R7, 50_frame_allocator.md R216): chosen at each AddressSpace construction. -/
inductive LoadPolicy where
  | eager
  | demandNoSwap
  | demandSwap
deriving DecidableEq, Repr

/-- The parameters of one machine (R7, R8). A `PAGE_SIZE` that is not a positive multiple of 4 and a `NUM_PHYS_PAGES` of 0 are
refused by the spec (93_implementation_defined.md U14): the proof fields keep such a value from being built. -/
structure Params where
  /-- `PAGE_SIZE`, bytes per page and per frame. -/
  pageSize : Nat
  /-- `NUM_PHYS_PAGES`, the number of physical frames. -/
  numPhysPages : Nat
  /-- `USE_TLB`, the active translation source. -/
  useTlb : Bool
  /-- `EXC_DRAINS_LOAD`: does a raise commit the pending load (60_exceptions.md R245). -/
  excDrainsLoad : Bool
  /-- `OOR_VPN_EXCEPTION`. -/
  oorVpn : OorVpn
  /-- `MERGE_TABLE`. -/
  mergeTable : MergeTable
  /-- `DIV_OVF`. -/
  divOvf : DivOvf
  pageSize_pos : 0 < pageSize
  pageSize_mul : pageSize % 4 = 0
  numPhysPages_pos : 0 < numPhysPages
deriving DecidableEq, Repr

/-- The parameter values at reset: 128 and 32 (92_eei_decisions.md D17), PAGE_FAULT (D19), IMPL (D14), refuse (D13). DESIGN CHOICE:
page-table mode (notes/assumptions/1.md) and no drain (notes/assumptions/2.md). -/
def Params.default : Params where
  pageSize := 128
  numPhysPages := 32
  useTlb := false
  excDrainsLoad := false
  oorVpn := .pageFault
  mergeTable := .impl
  divOvf := .refuse
  pageSize_pos := by decide
  pageSize_mul := by decide
  numPhysPages_pos := by decide

/-- FREE VALUE. `HI` after DIV of a dividend by a divisor whose quotient does not fit (R143, U1; notes/assumptions/3.md). -/
opaque Config.divOvfHi : Word → Word → Word

/-- FREE VALUE. `LO` after DIV of a dividend by a divisor whose quotient does not fit (R143, U1; notes/assumptions/3.md). -/
opaque Config.divOvfLo : Word → Word → Word

end Sys2Proof
end

