-- ==== Sys2Proof/Syntax.lean ====
section
/-! DEFINITION. The instructions: one constructor for each row of spec/opcode_table.json (30_encoding.md R83 to R85), with the
operands the row's fields give, in assembler order (R91). Fields an instruction ignores (R88) are no operands. -/
namespace Sys2Proof

/-- A decoded instruction (10_state.md R21). Register operands are general register indices, immediates and jump targets are the
instruction's bits before extension (00_scope.md R9), a shift amount is a number. -/
inductive Instr where
  /-- ADD (rule R101). -/
  | add (rd rs rt : RegNum)
  /-- ADDU (rule R102). -/
  | addu (rd rs rt : RegNum)
  /-- SUB (rule R103). -/
  | sub (rd rs rt : RegNum)
  /-- SUBU (rule R104). -/
  | subu (rd rs rt : RegNum)
  /-- AND (rule R105). -/
  | and (rd rs rt : RegNum)
  /-- OR (rule R106). -/
  | or (rd rs rt : RegNum)
  /-- XOR (rule R107). -/
  | xor (rd rs rt : RegNum)
  /-- NOR (rule R108). -/
  | nor (rd rs rt : RegNum)
  /-- SLT (rule R109). -/
  | slt (rd rs rt : RegNum)
  /-- SLTU (rule R110). -/
  | sltu (rd rs rt : RegNum)
  /-- ADDI (rule R111). -/
  | addi (rt rs : RegNum) (imm : BitVec 16)
  /-- ADDIU (rule R112). -/
  | addiu (rt rs : RegNum) (imm : BitVec 16)
  /-- SLTI (rule R113). -/
  | slti (rt rs : RegNum) (imm : BitVec 16)
  /-- SLTIU (rule R114). -/
  | sltiu (rt rs : RegNum) (imm : BitVec 16)
  /-- ANDI (rule R115). -/
  | andi (rt rs : RegNum) (imm : BitVec 16)
  /-- ORI (rule R116). -/
  | ori (rt rs : RegNum) (imm : BitVec 16)
  /-- XORI (rule R117). -/
  | xori (rt rs : RegNum) (imm : BitVec 16)
  /-- LUI (rule R118). -/
  | lui (rt : RegNum) (imm : BitVec 16)
  /-- SLL (rule R131). -/
  | sll (rd rt : RegNum) (shamt : Nat)
  /-- SRL (rule R132). -/
  | srl (rd rt : RegNum) (shamt : Nat)
  /-- SRA (rule R133). -/
  | sra (rd rt : RegNum) (shamt : Nat)
  /-- SLLV (rule R134). -/
  | sllv (rd rt rs : RegNum)
  /-- SRLV (rule R135). -/
  | srlv (rd rt rs : RegNum)
  /-- SRAV (rule R136). -/
  | srav (rd rt rs : RegNum)
  /-- MULT (rule R141). -/
  | mult (rs rt : RegNum)
  /-- MULTU (rule R142). -/
  | multu (rs rt : RegNum)
  /-- DIV (rule R143). -/
  | div (rs rt : RegNum)
  /-- DIVU (rule R144). -/
  | divu (rs rt : RegNum)
  /-- MFHI (rule R145). -/
  | mfhi (rd : RegNum)
  /-- MFLO (rule R146). -/
  | mflo (rd : RegNum)
  /-- MTHI (rule R147). -/
  | mthi (rs : RegNum)
  /-- MTLO (rule R148). -/
  | mtlo (rs : RegNum)
  /-- LB (rule R151). -/
  | lb (rt : RegNum) (imm : BitVec 16) (rs : RegNum)
  /-- LBU (rule R152). -/
  | lbu (rt : RegNum) (imm : BitVec 16) (rs : RegNum)
  /-- LH (rule R153). -/
  | lh (rt : RegNum) (imm : BitVec 16) (rs : RegNum)
  /-- LHU (rule R157). -/
  | lhu (rt : RegNum) (imm : BitVec 16) (rs : RegNum)
  /-- LW (rule R158). -/
  | lw (rt : RegNum) (imm : BitVec 16) (rs : RegNum)
  /-- LWL (rule R155). -/
  | lwl (rt : RegNum) (imm : BitVec 16) (rs : RegNum)
  /-- LWR (rule R156). -/
  | lwr (rt : RegNum) (imm : BitVec 16) (rs : RegNum)
  /-- SB (rule R159). -/
  | sb (rt : RegNum) (imm : BitVec 16) (rs : RegNum)
  /-- SH (rule R162). -/
  | sh (rt : RegNum) (imm : BitVec 16) (rs : RegNum)
  /-- SW (rule R163). -/
  | sw (rt : RegNum) (imm : BitVec 16) (rs : RegNum)
  /-- SWL (rule R160). -/
  | swl (rt : RegNum) (imm : BitVec 16) (rs : RegNum)
  /-- SWR (rule R161). -/
  | swr (rt : RegNum) (imm : BitVec 16) (rs : RegNum)
  /-- BEQ (rule R171). -/
  | beq (rs rt : RegNum) (imm : BitVec 16)
  /-- BNE (rule R172). -/
  | bne (rs rt : RegNum) (imm : BitVec 16)
  /-- BLEZ (rule R173). -/
  | blez (rs : RegNum) (imm : BitVec 16)
  /-- BGTZ (rule R174). -/
  | bgtz (rs : RegNum) (imm : BitVec 16)
  /-- BLTZ (rule R175). -/
  | bltz (rs : RegNum) (imm : BitVec 16)
  /-- BGEZ (rule R176). -/
  | bgez (rs : RegNum) (imm : BitVec 16)
  /-- BLTZAL (rule R178). -/
  | bltzal (rs : RegNum) (imm : BitVec 16)
  /-- BGEZAL (rule R179). -/
  | bgezal (rs : RegNum) (imm : BitVec 16)
  /-- J (rule R180). -/
  | j (target : BitVec 26)
  /-- JAL (rule R181). -/
  | jal (target : BitVec 26)
  /-- JR (rule R182). -/
  | jr (rs : RegNum)
  /-- JALR (rule R183). -/
  | jalr (rd rs : RegNum)
  /-- SYSCALL (rule R190). -/
  | syscall
deriving DecidableEq, Repr

end Sys2Proof
end

