-- ==== Sys2Proof/WellFormed.lean ====
section
/-! DEFINITION. Which instruction terms an instruction word can hold. Register indices, immediates and targets are typed by their
field widths; the shift amount is the one operand whose bound needs a check (notes/assumptions/14.md). -/
namespace Sys2Proof

/-- The shift amount fits its 5-bit field (41_shifts.md R130, 30_encoding.md R81); nothing else can be ill formed. -/
def Instr.wellFormed : Instr → Bool
  | .sll _ _ shamt => decide (shamt < 32)
  | .srl _ _ shamt => decide (shamt < 32)
  | .sra _ _ shamt => decide (shamt < 32)
  | .add .. | .addu .. | .sub .. | .subu .. | .and .. | .or .. | .xor .. | .nor .. | .slt .. | .sltu .. | .addi ..
  | .addiu .. | .slti .. | .sltiu .. | .andi .. | .ori .. | .xori .. | .lui .. | .sllv .. | .srlv .. | .srav ..
  | .mult .. | .multu .. | .div .. | .divu .. | .mfhi .. | .mflo .. | .mthi .. | .mtlo .. | .lb .. | .lbu .. | .lh ..
  | .lhu .. | .lw .. | .lwl .. | .lwr .. | .sb .. | .sh .. | .sw .. | .swl .. | .swr .. | .beq .. | .bne ..
  | .blez .. | .bgtz .. | .bltz .. | .bgez .. | .bltzal .. | .bgezal .. | .j .. | .jal .. | .jr .. | .jalr ..
  | .syscall => true

/-- The same as a proposition, for statements. -/
abbrev Instr.WellFormed (i : Instr) : Prop := i.wellFormed = true

end Sys2Proof
end

