-- ==== Sys2Proof/Decode.lean ====
section
/-! DEFINITION. Decoding (30_encoding.md R80 to R88): a total function of the 32-bit word, or of bytes, that rejects every reserved
word by name (45_system.md R192); and the encoder written from the same tables. -/
namespace Sys2Proof

/-- Why bytes are no instruction of the machine. The constructors but `truncated` are the classes of 45_system.md R192; executing
such a word raises ILLEGAL_INSTR. -/
inductive DecodeError where
  /-- Fewer than the four bytes of an instruction (R80). -/
  | truncated
  /-- Primary opcodes 16 to 19, COP0 to COP3. -/
  | coprocessor
  /-- Primary opcodes 48 to 51, LWC0 to LWC3. -/
  | loadCoprocessor
  /-- Primary opcodes 56 to 59, SWC0 to SWC3. -/
  | storeCoprocessor
  /-- A reserved primary opcode. -/
  | reservedOpcode
  /-- SPECIAL funct 13, BREAK (R191). -/
  | breakWord
  /-- A reserved SPECIAL funct. -/
  | reservedFunct
  /-- A reserved REGIMM selector. -/
  | reservedRegimm
deriving DecidableEq, Repr

/-- The fields of an instruction word (R81). -/
structure Fields where
  opcode : BitVec 6
  rs : RegNum
  rt : RegNum
  rd : RegNum
  shamt : Nat
  funct : BitVec 6
  imm : BitVec 16
  target : BitVec 26
deriving DecidableEq, Repr

/-- The field of register width whose lowest bit is bit `lo`. -/
def regField (w : Word) (lo : Nat) : RegNum := (w.extractLsb' lo 5).toFin

/-- The bit positions of R81. -/
def fieldsOf (w : Word) : Fields where
  opcode := w.extractLsb' 26 6
  rs := regField w 21
  rt := regField w 16
  rd := regField w 11
  shamt := (w.extractLsb' 6 5).toNat
  funct := w.extractLsb' 0 6
  imm := w.extractLsb' 0 16
  target := w.extractLsb' 0 26

/-- SPECIAL_TABLE, by funct, when the opcode is 0 (R84). -/
def specialTable (f : Fields) : Except DecodeError Instr :=
  match f.funct.toNat with
  | 0 => .ok (.sll f.rd f.rt f.shamt)
  | 2 => .ok (.srl f.rd f.rt f.shamt)
  | 3 => .ok (.sra f.rd f.rt f.shamt)
  | 4 => .ok (.sllv f.rd f.rt f.rs)
  | 6 => .ok (.srlv f.rd f.rt f.rs)
  | 7 => .ok (.srav f.rd f.rt f.rs)
  | 8 => .ok (.jr f.rs)
  | 9 => .ok (.jalr f.rd f.rs)
  | 12 => .ok .syscall
  | 16 => .ok (.mfhi f.rd)
  | 17 => .ok (.mthi f.rs)
  | 18 => .ok (.mflo f.rd)
  | 19 => .ok (.mtlo f.rs)
  | 24 => .ok (.mult f.rs f.rt)
  | 25 => .ok (.multu f.rs f.rt)
  | 26 => .ok (.div f.rs f.rt)
  | 27 => .ok (.divu f.rs f.rt)
  | 32 => .ok (.add f.rd f.rs f.rt)
  | 33 => .ok (.addu f.rd f.rs f.rt)
  | 34 => .ok (.sub f.rd f.rs f.rt)
  | 35 => .ok (.subu f.rd f.rs f.rt)
  | 36 => .ok (.and f.rd f.rs f.rt)
  | 37 => .ok (.or f.rd f.rs f.rt)
  | 38 => .ok (.xor f.rd f.rs f.rt)
  | 39 => .ok (.nor f.rd f.rs f.rt)
  | 42 => .ok (.slt f.rd f.rs f.rt)
  | 43 => .ok (.sltu f.rd f.rs f.rt)
  | 13 => .error .breakWord
  | _ => .error .reservedFunct

/-- REGIMM_TABLE, by the rt field, when the opcode is 1 (R85). -/
def regimmTable (f : Fields) : Except DecodeError Instr :=
  match f.rt.val with
  | 0 => .ok (.bltz f.rs f.imm)
  | 1 => .ok (.bgez f.rs f.imm)
  | 16 => .ok (.bltzal f.rs f.imm)
  | 17 => .ok (.bgezal f.rs f.imm)
  | _ => .error .reservedRegimm

/-- The class of a primary opcode that names no instruction (R83, 45_system.md R192). -/
def reservedPrimary (op : Nat) : DecodeError :=
  if 16 ≤ op ∧ op ≤ 19 then .coprocessor
  else if 48 ≤ op ∧ op ≤ 51 then .loadCoprocessor
  else if 56 ≤ op ∧ op ≤ 59 then .storeCoprocessor
  else .reservedOpcode

/-- PRIMARY_TABLE, by opcode, for opcodes other than 0 and 1 (R83). -/
def primaryTable (f : Fields) : Except DecodeError Instr :=
  match f.opcode.toNat with
  | 2 => .ok (.j f.target)
  | 3 => .ok (.jal f.target)
  | 4 => .ok (.beq f.rs f.rt f.imm)
  | 5 => .ok (.bne f.rs f.rt f.imm)
  | 6 => .ok (.blez f.rs f.imm)
  | 7 => .ok (.bgtz f.rs f.imm)
  | 8 => .ok (.addi f.rt f.rs f.imm)
  | 9 => .ok (.addiu f.rt f.rs f.imm)
  | 10 => .ok (.slti f.rt f.rs f.imm)
  | 11 => .ok (.sltiu f.rt f.rs f.imm)
  | 12 => .ok (.andi f.rt f.rs f.imm)
  | 13 => .ok (.ori f.rt f.rs f.imm)
  | 14 => .ok (.xori f.rt f.rs f.imm)
  | 15 => .ok (.lui f.rt f.imm)
  | 32 => .ok (.lb f.rt f.imm f.rs)
  | 33 => .ok (.lh f.rt f.imm f.rs)
  | 34 => .ok (.lwl f.rt f.imm f.rs)
  | 35 => .ok (.lw f.rt f.imm f.rs)
  | 36 => .ok (.lbu f.rt f.imm f.rs)
  | 37 => .ok (.lhu f.rt f.imm f.rs)
  | 38 => .ok (.lwr f.rt f.imm f.rs)
  | 40 => .ok (.sb f.rt f.imm f.rs)
  | 41 => .ok (.sh f.rt f.imm f.rs)
  | 42 => .ok (.swl f.rt f.imm f.rs)
  | 43 => .ok (.sw f.rt f.imm f.rs)
  | 46 => .ok (.swr f.rt f.imm f.rs)
  | op => .error (reservedPrimary op)

/-- `Decode(raw)` (R82). -/
def decode (w : Word) : Except DecodeError Instr :=
  let f := fieldsOf w
  match f.opcode.toNat with
  | 0 => specialTable f
  | 1 => regimmTable f
  | _ => primaryTable f

/-- A little-endian word from its four bytes, the lowest address first (20_memory.md R42). -/
def wordOfBytes (b0 b1 b2 b3 : Byte) : Word :=
  BitVec.ofNat 32 (b0.toNat + 2 ^ 8 * b1.toNat + 2 ^ 16 * b2.toNat + 2 ^ 24 * b3.toNat)

/-- Byte `k` of a word, the byte at offset `k` of the word in memory (20_memory.md R42). -/
def byteOf (w : Word) (k : Nat) : Byte := w.extractLsb' (8 * k) 8

/-- The bytes of a word in memory order. -/
def bytesOfWord (w : Word) : List Byte := [byteOf w 0, byteOf w 1, byteOf w 2, byteOf w 3]

/-- Decoding from bytes as the memory holds them: one instruction and the bytes after it. -/
def decodeBytes : List Byte → Except DecodeError (Instr × List Byte)
  | b0 :: b1 :: b2 :: b3 :: rest =>
    match decode (wordOfBytes b0 b1 b2 b3) with
    | .ok i => .ok (i, rest)
    | .error e => .error e
  | _ => .error .truncated

/-- The R-type format (R81): opcode 0 in bits 31:26, rs at 21, rt at 16, rd at 11, shamt at 6, funct at 0. -/
def rWord (rs rt rd : RegNum) (shamt funct : Nat) : Word :=
  BitVec.ofNat 32 (rs.val * 2 ^ 21 + rt.val * 2 ^ 16 + rd.val * 2 ^ 11 + shamt % 32 * 2 ^ 6 + funct)

/-- The I-type format (R81): opcode at bit 26, rs at 21, rt at 16, imm at 0. -/
def iWord (op : Nat) (rs rt : RegNum) (imm : BitVec 16) : Word :=
  BitVec.ofNat 32 (op * 2 ^ 26 + rs.val * 2 ^ 21 + rt.val * 2 ^ 16 + imm.toNat)

/-- The J-type format (R81): opcode at bit 26, target at 0. -/
def jWord (op : Nat) (target : BitVec 26) : Word := BitVec.ofNat 32 (op * 2 ^ 26 + target.toNat)

/-- The word of an instruction, from the numbers of R83 to R85; every field the instruction ignores (R88) is zero, as an assembler
emits it (notes/assumptions/14.md). -/
def encode : Instr → Word
  | .add rd rs rt => rWord rs rt rd 0 32
  | .addu rd rs rt => rWord rs rt rd 0 33
  | .sub rd rs rt => rWord rs rt rd 0 34
  | .subu rd rs rt => rWord rs rt rd 0 35
  | .and rd rs rt => rWord rs rt rd 0 36
  | .or rd rs rt => rWord rs rt rd 0 37
  | .xor rd rs rt => rWord rs rt rd 0 38
  | .nor rd rs rt => rWord rs rt rd 0 39
  | .slt rd rs rt => rWord rs rt rd 0 42
  | .sltu rd rs rt => rWord rs rt rd 0 43
  | .addi rt rs imm => iWord 8 rs rt imm
  | .addiu rt rs imm => iWord 9 rs rt imm
  | .slti rt rs imm => iWord 10 rs rt imm
  | .sltiu rt rs imm => iWord 11 rs rt imm
  | .andi rt rs imm => iWord 12 rs rt imm
  | .ori rt rs imm => iWord 13 rs rt imm
  | .xori rt rs imm => iWord 14 rs rt imm
  | .lui rt imm => iWord 15 0 rt imm
  | .sll rd rt shamt => rWord 0 rt rd shamt 0
  | .srl rd rt shamt => rWord 0 rt rd shamt 2
  | .sra rd rt shamt => rWord 0 rt rd shamt 3
  | .sllv rd rt rs => rWord rs rt rd 0 4
  | .srlv rd rt rs => rWord rs rt rd 0 6
  | .srav rd rt rs => rWord rs rt rd 0 7
  | .mult rs rt => rWord rs rt 0 0 24
  | .multu rs rt => rWord rs rt 0 0 25
  | .div rs rt => rWord rs rt 0 0 26
  | .divu rs rt => rWord rs rt 0 0 27
  | .mfhi rd => rWord 0 0 rd 0 16
  | .mflo rd => rWord 0 0 rd 0 18
  | .mthi rs => rWord rs 0 0 0 17
  | .mtlo rs => rWord rs 0 0 0 19
  | .lb rt imm rs => iWord 32 rs rt imm
  | .lbu rt imm rs => iWord 36 rs rt imm
  | .lh rt imm rs => iWord 33 rs rt imm
  | .lhu rt imm rs => iWord 37 rs rt imm
  | .lw rt imm rs => iWord 35 rs rt imm
  | .lwl rt imm rs => iWord 34 rs rt imm
  | .lwr rt imm rs => iWord 38 rs rt imm
  | .sb rt imm rs => iWord 40 rs rt imm
  | .sh rt imm rs => iWord 41 rs rt imm
  | .sw rt imm rs => iWord 43 rs rt imm
  | .swl rt imm rs => iWord 42 rs rt imm
  | .swr rt imm rs => iWord 46 rs rt imm
  | .beq rs rt imm => iWord 4 rs rt imm
  | .bne rs rt imm => iWord 5 rs rt imm
  | .blez rs imm => iWord 6 rs 0 imm
  | .bgtz rs imm => iWord 7 rs 0 imm
  | .bltz rs imm => iWord 1 rs 0 imm
  | .bgez rs imm => iWord 1 rs 1 imm
  | .bltzal rs imm => iWord 1 rs 16 imm
  | .bgezal rs imm => iWord 1 rs 17 imm
  | .j target => jWord 2 target
  | .jal target => jWord 3 target
  | .jr rs => rWord rs 0 0 0 8
  | .jalr rd rs => rWord rs 0 rd 0 9
  | .syscall => rWord 0 0 0 0 12

/-- The mask and match of the instruction's row in spec/opcode_table.json (R88). -/
def tableRow : Instr → Word × Word
  | .add .. => (0xFC00003F, 0x00000020)
  | .addu .. => (0xFC00003F, 0x00000021)
  | .sub .. => (0xFC00003F, 0x00000022)
  | .subu .. => (0xFC00003F, 0x00000023)
  | .and .. => (0xFC00003F, 0x00000024)
  | .or .. => (0xFC00003F, 0x00000025)
  | .xor .. => (0xFC00003F, 0x00000026)
  | .nor .. => (0xFC00003F, 0x00000027)
  | .slt .. => (0xFC00003F, 0x0000002A)
  | .sltu .. => (0xFC00003F, 0x0000002B)
  | .addi .. => (0xFC000000, 0x20000000)
  | .addiu .. => (0xFC000000, 0x24000000)
  | .slti .. => (0xFC000000, 0x28000000)
  | .sltiu .. => (0xFC000000, 0x2C000000)
  | .andi .. => (0xFC000000, 0x30000000)
  | .ori .. => (0xFC000000, 0x34000000)
  | .xori .. => (0xFC000000, 0x38000000)
  | .lui .. => (0xFC000000, 0x3C000000)
  | .sll .. => (0xFC00003F, 0x00000000)
  | .srl .. => (0xFC00003F, 0x00000002)
  | .sra .. => (0xFC00003F, 0x00000003)
  | .sllv .. => (0xFC00003F, 0x00000004)
  | .srlv .. => (0xFC00003F, 0x00000006)
  | .srav .. => (0xFC00003F, 0x00000007)
  | .mult .. => (0xFC00003F, 0x00000018)
  | .multu .. => (0xFC00003F, 0x00000019)
  | .div .. => (0xFC00003F, 0x0000001A)
  | .divu .. => (0xFC00003F, 0x0000001B)
  | .mfhi .. => (0xFC00003F, 0x00000010)
  | .mflo .. => (0xFC00003F, 0x00000012)
  | .mthi .. => (0xFC00003F, 0x00000011)
  | .mtlo .. => (0xFC00003F, 0x00000013)
  | .lb .. => (0xFC000000, 0x80000000)
  | .lbu .. => (0xFC000000, 0x90000000)
  | .lh .. => (0xFC000000, 0x84000000)
  | .lhu .. => (0xFC000000, 0x94000000)
  | .lw .. => (0xFC000000, 0x8C000000)
  | .lwl .. => (0xFC000000, 0x88000000)
  | .lwr .. => (0xFC000000, 0x98000000)
  | .sb .. => (0xFC000000, 0xA0000000)
  | .sh .. => (0xFC000000, 0xA4000000)
  | .sw .. => (0xFC000000, 0xAC000000)
  | .swl .. => (0xFC000000, 0xA8000000)
  | .swr .. => (0xFC000000, 0xB8000000)
  | .beq .. => (0xFC000000, 0x10000000)
  | .bne .. => (0xFC000000, 0x14000000)
  | .blez .. => (0xFC000000, 0x18000000)
  | .bgtz .. => (0xFC000000, 0x1C000000)
  | .bltz .. => (0xFC1F0000, 0x04000000)
  | .bgez .. => (0xFC1F0000, 0x04010000)
  | .bltzal .. => (0xFC1F0000, 0x04100000)
  | .bgezal .. => (0xFC1F0000, 0x04110000)
  | .j .. => (0xFC000000, 0x08000000)
  | .jal .. => (0xFC000000, 0x0C000000)
  | .jr .. => (0xFC00003F, 0x00000008)
  | .jalr .. => (0xFC00003F, 0x00000009)
  | .syscall => (0xFC00003F, 0x0000000C)

/-- The masks and matches of all rows of spec/opcode_table.json. -/
def opcodeTable : List (Word × Word) :=
  [(0xFC00003F, 0x00000020), (0xFC00003F, 0x00000021), (0xFC00003F, 0x00000022), (0xFC00003F, 0x00000023),
    (0xFC00003F, 0x00000024), (0xFC00003F, 0x00000025), (0xFC00003F, 0x00000026), (0xFC00003F, 0x00000027),
    (0xFC00003F, 0x0000002A), (0xFC00003F, 0x0000002B), (0xFC000000, 0x20000000), (0xFC000000, 0x24000000),
    (0xFC000000, 0x28000000), (0xFC000000, 0x2C000000), (0xFC000000, 0x30000000), (0xFC000000, 0x34000000),
    (0xFC000000, 0x38000000), (0xFC000000, 0x3C000000), (0xFC00003F, 0x00000000), (0xFC00003F, 0x00000002)] ++
  [(0xFC00003F, 0x00000003), (0xFC00003F, 0x00000004), (0xFC00003F, 0x00000006), (0xFC00003F, 0x00000007),
    (0xFC00003F, 0x00000018), (0xFC00003F, 0x00000019), (0xFC00003F, 0x0000001A), (0xFC00003F, 0x0000001B),
    (0xFC00003F, 0x00000010), (0xFC00003F, 0x00000012), (0xFC00003F, 0x00000011), (0xFC00003F, 0x00000013),
    (0xFC000000, 0x80000000), (0xFC000000, 0x90000000), (0xFC000000, 0x84000000), (0xFC000000, 0x94000000),
    (0xFC000000, 0x8C000000), (0xFC000000, 0x88000000), (0xFC000000, 0x98000000), (0xFC000000, 0xA0000000)] ++
  [(0xFC000000, 0xA4000000), (0xFC000000, 0xAC000000), (0xFC000000, 0xA8000000), (0xFC000000, 0xB8000000),
    (0xFC000000, 0x10000000), (0xFC000000, 0x14000000), (0xFC000000, 0x18000000), (0xFC000000, 0x1C000000),
    (0xFC1F0000, 0x04000000), (0xFC1F0000, 0x04010000), (0xFC1F0000, 0x04100000), (0xFC1F0000, 0x04110000),
    (0xFC000000, 0x08000000), (0xFC000000, 0x0C000000), (0xFC00003F, 0x00000008), (0xFC00003F, 0x00000009),
    (0xFC00003F, 0x0000000C)]

/-- The bits of its word that an instruction uses: the mask's and its operands' fields. All others are ignored (R88). -/
def usedBits : Instr → Word
  | .add .. | .addu .. | .sub .. | .subu .. | .and .. | .or .. | .xor .. | .nor .. | .slt .. | .sltu ..
  | .sllv .. | .srlv .. | .srav .. => 0xFFFFF83F
  | .addi .. | .addiu .. | .slti .. | .sltiu .. | .andi .. | .ori .. | .xori .. | .lb .. | .lbu ..
  | .lh .. | .lhu .. | .lw .. | .lwl .. | .lwr .. | .sb .. | .sh .. | .sw .. | .swl .. | .swr ..
  | .beq .. | .bne .. | .bltz .. | .bgez .. | .bltzal .. | .bgezal .. | .j .. | .jal .. => 0xFFFFFFFF
  | .lui .. | .sll .. | .srl .. | .sra .. => 0xFC1FFFFF
  | .mult .. | .multu .. | .div .. | .divu .. => 0xFFFF003F
  | .mfhi .. | .mflo .. => 0xFC00F83F
  | .mthi .. | .mtlo .. | .jr .. => 0xFFE0003F
  | .blez .. | .bgtz .. => 0xFFE0FFFF
  | .jalr .. => 0xFFE0F83F
  | .syscall => 0xFC00003F

/-- The instruction the decoder reads from an instruction whose bits are `w`, every bit above `nbits` zero: the four bytes in
memory order are given to `decodeBytes`. -/
def decodeTableWord (nbits w : Nat) : Option Instr :=
  match decodeBytes (bytesOfWord (BitVec.ofNat 32 (w % 2 ^ nbits))) with
  | .ok (i, _) => some i
  | .error _ => none

end Sys2Proof
end

