-- ==== Sys2Proof/Machine/State.lean ====
section
/-! DEFINITION. The state of the machine as plain data: the 40-slot register file (10_state.md R10), PhysicalMemory (R26), the
translator's state (R22 to R25), the coremap (R27), the registry of address spaces (R28) and the configuration (00_scope.md R7,
R8); the reasons a step can stop; and the state after reset (R35). -/
namespace Sys2Proof.Machine

/-- The seven exception kinds (60_exceptions.md R240). -/
inductive ExcKind where
  | syscall
  | pageFault
  | readOnly
  | busError
  | addressError
  | overflow
  | illegalInstr
deriving DecidableEq, Repr

/-- What a step that raises returns to the host, `Trap(kind, badVAddr)` (00_scope.md R5, 60_exceptions.md R244). -/
structure Trap where
  kind : ExcKind
  badVAddr : Word
deriving DecidableEq, Repr

/-- A TranslationEntry (10_state.md R22). -/
structure TranslationEntry where
  virtualPage : Nat
  physicalPage : Nat
  valid : Bool
  readOnly : Bool
  use : Bool
  dirty : Bool
deriving DecidableEq, Repr

/-- A segment descriptor of a program image (10_state.md R28, 50_frame_allocator.md R217). -/
structure Segment where
  virtualAddress : Nat
  fileOffset : Nat
  size : Nat
deriving DecidableEq, Repr

/-- An AddressSpace (10_state.md R23, R28). The backing executable and the swap store are byte stores, kept as `mem` is. -/
structure AddressSpace where
  /-- One entry per virtual page, indexed by vpn (R23). -/
  pageTable : List TranslationEntry
  numPages : Nat
  /-- The bytes of the backing executable, by file offset. -/
  file : List Host.Cell
  code : Segment
  initData : Segment
  uninitData : Segment
  policy : LoadPolicy
  /-- The optional swap store, bytes by swap offset (50_frame_allocator.md R221). -/
  swap : Option (List Host.Cell)
  /-- `inSwap[vpn]`: the swap store holds the page's latest evicted contents (R28). -/
  inSwap : List Bool
deriving DecidableEq, Repr

/-- The claim of a frame that is not free: `owner[f]` and `vpn[f]` (10_state.md R27). -/
structure Claim where
  owner : Nat
  vpn : Nat
deriving DecidableEq, Repr

/-- The machine stops. No instruction raises this: every failing access of the engine is an exception (20_memory.md R52). -/
inductive Fault where
  /-- Raised by the host's direct access to a physical byte outside PhysicalMemory (10_state.md R26, 20_memory.md R68). Safe. -/
  | noPhysicalByte (addr : Nat)
deriving DecidableEq, Repr

/-- The case is outside the spec ('refuse' of 93_implementation_defined.md). -/
inductive Refusal where
  /-- An instruction without a meaning; no arm of `exec` raises it. Safe. -/
  | notModelled (mnemonic : String)
  /-- Raised by a step, or by a memory call of the host, in page-table mode with no page table installed
  (70_reset_and_hazards.md R282, U9). Safe. -/
  | noPageTable
  /-- Raised by a translation whose vpn is below `pageTableSize` but beyond the table's own length: the host set a size that is
  not the table's length (10_state.md R25; notes/assumptions/8.md). Safe. -/
  | pageTableTooShort (vpn : Nat)
  /-- Raised by DIV of 0x80000000 by 0xFFFFFFFF under the parameter value `DIV_OVF` = refuse (42_multiply_divide.md R143, U1), the spec's
  own value and the one at reset. Safe. -/
  | divOverflow
  /-- Raised by the register port for an index outside 0 to 39 (10_state.md R36, U10). Safe. -/
  | badRegisterIndex (index : Nat)
  /-- Raised by the register port for a write of `LOAD` with a value above 31 (10_state.md R36, U10). Safe. -/
  | badLoadIndex (value : Word)
  /-- Raised by the host's memory calls for a size outside 1, 2, 4 (20_memory.md R43). Safe. -/
  | badSize (size : Nat)
  /-- Raised by eviction of a dirty frame, and by the swap operations, when the space has no swap store
  (50_frame_allocator.md R209, U7). Safe. -/
  | noSwapStore (space : Nat)
  /-- Raised by `Find` when the pair already owns a frame (50_frame_allocator.md R203, U13). Safe. -/
  | alreadyClaimed (space vpn : Nat)
  /-- Raised by the coremap's operations when a frame has no owner, or its owner no entry for its page: the invariants of R202 are
  preconditions (U13). Safe. -/
  | brokenCoremap (frame : Nat)
  /-- Raised by a host operation that names an AddressSpace not in the registry (notes/assumptions/9.md). Safe. -/
  | unknownSpace (space : Nat)
  /-- Raised by the construction of an AddressSpace under an identifier in use (notes/assumptions/9.md). Safe. -/
  | spaceExists (space : Nat)
  /-- Raised by a host operation that names a page at or beyond the space's `numPages` (notes/assumptions/9.md). Safe. -/
  | pageOutOfRange (vpn : Nat)
  /-- Raised by a host operation that needs a valid translation entry and finds an invalid one (50_frame_allocator.md R210,
  R227; notes/assumptions/9.md). Safe. -/
  | invalidEntry (vpn : Nat)
  /-- Raised by a host operation that needs a current space when there is none (notes/assumptions/9.md). Safe. -/
  | noCurrentSpace
  /-- Raised by `RestoreState` in TLB mode while entries of another space are valid (50_frame_allocator.md R224;
  notes/assumptions/9.md). Safe. -/
  | tlbNotFlushed
  /-- Raised by a refill that would leave two valid TLB entries with one `virtualPage` (50_frame_allocator.md R227, U2). Safe. -/
  | duplicateTlbEntry (vpn : Nat)
deriving DecidableEq, Repr

/-- The whole state. -/
structure State where
  /-- General registers, slots 0 to 31 (10_state.md R11, R13); reads and writes go through `State.getX`, `State.setX` (R12). -/
  x : Vector Word 32
  /-- `HI`, slot 32 (R14). -/
  hi : Word
  /-- `LO`, slot 33 (R14). -/
  lo : Word
  /-- `PC`, slot 34 (R15). -/
  pc : Word
  /-- `NEXT_PC`, slot 35 (R16). -/
  nextPc : Word
  /-- `PREV_PC`, slot 36 (R17). -/
  prevPc : Word
  /-- `LOAD`, slot 37, a general register index (R18; notes/assumptions/10.md). -/
  load : RegNum
  /-- `LOAD_VALUE`, slot 38 (R18). -/
  loadValue : Word
  /-- `BAD_VADDR`, slot 39 (R19). -/
  badVAddr : Word
  /-- PhysicalMemory (R26), in the canonical form `Memory.wf`. -/
  mem : List Host.Cell
  /-- The TLB (R24). -/
  tlb : Vector TranslationEntry 4
  /-- The active page table: the identifier of the space whose table it is, or none installed (R25). -/
  activeTable : Option Nat
  /-- `pageTableSize` (R25). -/
  pageTableSize : Nat
  /-- `currentSpace` (R25). -/
  currentSpace : Option Nat
  /-- The coremap, one place per frame: `none` is a free frame (R27). -/
  coremap : List (Option Claim)
  /-- `lastVictim` (R27). -/
  lastVictim : Nat
  /-- `spaces[id]` (50_frame_allocator.md R200), identifiers rising. -/
  spaces : List (Nat × AddressSpace)
  /-- The configuration (00_scope.md R7, R8): fixed before reset, changed by nothing. -/
  cfg : Params
  /-- The model's own field: what the last `Step()` or memory call of the host returned, `none` for Done
  (notes/assumptions/4.md). -/
  trap : Option Trap
deriving DecidableEq, Repr

/-- A TLB entry after reset (10_state.md R35): not valid. DESIGN CHOICE: the other fields, which no rule reads while the entry is
invalid, are 0 and false (notes/assumptions/5.md). -/
def TranslationEntry.empty : TranslationEntry where
  virtualPage := 0
  physicalPage := 0
  valid := false
  readOnly := false
  use := false
  dirty := false

/-- The state after reset of a machine configured with `c` (10_state.md R35, 70_reset_and_hazards.md R280). -/
def State.resetWith (c : Params) : State where
  x := Vector.replicate 32 0
  hi := 0
  lo := 0
  pc := 0
  nextPc := 4
  prevPc := 0
  load := 0
  loadValue := 0
  badVAddr := 0
  mem := []
  tlb := Vector.replicate 4 TranslationEntry.empty
  activeTable := none
  pageTableSize := 0
  currentSpace := none
  coremap := List.replicate c.numPhysPages none
  lastVictim := c.numPhysPages - 1
  spaces := []
  cfg := c
  trap := none

/-- The machine right after reset, with the parameter values `Params.default`. -/
def State.reset : State := State.resetWith Params.default

end Sys2Proof.Machine
end

