-- ==== Sys2Proof/Machine/Flags.lean ====
section
/-! DEFINITION. The conditions the instructions compute. The machine has no flags (10_state.md R20): a comparison's result goes to a
general register, and overflow is reported as an exception only. -/
namespace Sys2Proof.Machine

/-- `SIGN(v)`, bit 31 (00_scope.md section 7). -/
def sign (v : Word) : Bool := v.msb

/-- Signed overflow of `a + b`: the operands share a sign and the sum's sign differs (40_arithmetic_logic.md R101, R111). -/
def addOverflows (a b : Word) : Bool := sign a == sign b && sign (a + b) != sign a

/-- Signed overflow of `a - b`: the operands' signs differ and the difference's sign is not the minuend's (R103). -/
def subOverflows (a b : Word) : Bool := sign a != sign b && sign (a - b) != sign a

/-- 1 or 0, the result of a comparison. -/
def boolWord (c : Bool) : Word := if c then 1 else 0

/-- The signed comparison of SLT and SLTI, exact on the signed readings (R109, R113). -/
def signedLess (a b : Word) : Bool := decide (a.toInt < b.toInt)

/-- The unsigned comparison of SLTU and SLTIU (R110, R114). -/
def unsignedLess (a b : Word) : Bool := decide (a.toNat < b.toNat)

/-- The one operand pair of DIV whose quotient does not fit (42_multiply_divide.md R143). -/
def divOverflows (a b : Word) : Bool := a == 0x80000000#32 && b == 0xFFFFFFFF#32

end Sys2Proof.Machine
end

