-- ==== Sys2Proof/Machine/Operands.lean ====
section
/-! DEFINITION. How operands are built from the instruction's bits (30_encoding.md R86) and the merge tables of the partial-word
accesses (43_loads_stores.md R164, R165). -/
namespace Sys2Proof.Machine

/-- The signed immediate, `sext_16(imm)` (R86). -/
def signedImm (imm : BitVec 16) : Word := imm.signExtend 32

/-- The logical immediate, `zext_16(imm)` (R86). -/
def logicalImm (imm : BitVec 16) : Word := imm.setWidth 32

/-- The upper immediate of LUI, `imm ++ 0x0000` (R86). -/
def upperImm (imm : BitVec 16) : Word := logicalImm imm <<< 16

/-- The effective address of a load or store from its base value (R86, 43_loads_stores.md R150). -/
def effectiveAddr (base : Word) (imm : BitVec 16) : Word := base + signedImm imm

/-- The byte alignment case of an effective address, its bits 1:0 (43_loads_stores.md R154). -/
def byteCase (ea : Word) : BitVec 2 := ea.extractLsb' 0 2

/-- The enclosing aligned word address, bits 1:0 cleared (43_loads_stores.md R154). -/
def alignedDown (ea : Word) : Word := ea &&& 0xFFFFFFFC#32

/-- A variable shift amount, the low 5 bits of a register (R86, 41_shifts.md R130). -/
def variableAmount (v : Word) : Nat := (v.extractLsb' 0 5).toNat

/-- `BranchTarget` (44_branches_jumps.md R170). -/
def branchTarget (nextPc : Word) (imm : BitVec 16) : Word := nextPc + (signedImm imm <<< 2)

/-- `JumpTarget` (44_branches_jumps.md R170). -/
def jumpTarget (nextPc : Word) (target : BitVec 26) : Word :=
  ((nextPc + 4) &&& 0xF0000000#32) ||| (target.setWidth 32 <<< 2)

/-- `LinkValue` (44_branches_jumps.md R170). -/
def linkValue (nextPc : Word) : Word := nextPc + 4

/-- A loaded byte sign-extended, `sext_8(v[7:0])` (43_loads_stores.md R151). -/
def signedByte (v : Word) : Word := (v.extractLsb' 0 8).signExtend 32

/-- A loaded byte zero-extended, `zext_8(v[7:0])` (43_loads_stores.md R152). -/
def unsignedByte (v : Word) : Word := (v.extractLsb' 0 8).setWidth 32

/-- A loaded halfword sign-extended, `sext_16(v[15:0])` (43_loads_stores.md R153). -/
def signedHalf (v : Word) : Word := (v.extractLsb' 0 16).signExtend 32

/-- A loaded halfword zero-extended, `zext_16(v[15:0])` (43_loads_stores.md R157). -/
def unsignedHalf (v : Word) : Word := (v.extractLsb' 0 16).setWidth 32

/-- `LWL_MERGE[b](base, w)` (R164, R165). -/
def lwlMerge (t : MergeTable) (b : BitVec 2) (base w : Word) : Word :=
  match t, b.toNat with
  | .impl, 0 => w
  | .impl, 1 => (base &&& 0x000000FF#32) ||| (w <<< 8)
  | .impl, 2 => (base &&& 0x0000FFFF#32) ||| (w <<< 16)
  | .impl, _ => (base &&& 0x00FFFFFF#32) ||| (w <<< 24)
  | .archLE, 0 => (base &&& 0x00FFFFFF#32) ||| (w <<< 24)
  | .archLE, 1 => (base &&& 0x0000FFFF#32) ||| (w <<< 16)
  | .archLE, 2 => (base &&& 0x000000FF#32) ||| (w <<< 8)
  | .archLE, _ => w

/-- `LWR_MERGE[b](base, w)` (R164, R165). -/
def lwrMerge (t : MergeTable) (b : BitVec 2) (base w : Word) : Word :=
  match t, b.toNat with
  | .impl, 0 => (base &&& 0xFFFFFF00#32) ||| (w >>> 24)
  | .impl, 1 => (base &&& 0xFFFF0000#32) ||| (w >>> 16)
  | .impl, 2 => (base &&& 0xFF000000#32) ||| (w >>> 8)
  | .impl, _ => w
  | .archLE, 0 => w
  | .archLE, 1 => (base &&& 0xFF000000#32) ||| (w >>> 8)
  | .archLE, 2 => (base &&& 0xFFFF0000#32) ||| (w >>> 16)
  | .archLE, _ => (base &&& 0xFFFFFF00#32) ||| (w >>> 24)

/-- `SWL_MERGE[b](w, t)` (R164, R165); `v` is the register being stored. -/
def swlMerge (t : MergeTable) (b : BitVec 2) (w v : Word) : Word :=
  match t, b.toNat with
  | .impl, 0 => v
  | .impl, 1 => (w &&& 0xFF000000#32) ||| (v >>> 8)
  | .impl, 2 => (w &&& 0xFFFF0000#32) ||| (v >>> 16)
  | .impl, _ => (w &&& 0xFFFFFF00#32) ||| (v >>> 24)
  | .archLE, 0 => (w &&& 0xFFFFFF00#32) ||| (v >>> 24)
  | .archLE, 1 => (w &&& 0xFFFF0000#32) ||| (v >>> 16)
  | .archLE, 2 => (w &&& 0xFF000000#32) ||| (v >>> 8)
  | .archLE, _ => v

/-- `SWR_MERGE[b](w, t)` (R164, R165); `v` is the register being stored. -/
def swrMerge (t : MergeTable) (b : BitVec 2) (w v : Word) : Word :=
  match t, b.toNat with
  | .impl, 0 => (w &&& 0x00FFFFFF#32) ||| (v <<< 24)
  | .impl, 1 => (w &&& 0x0000FFFF#32) ||| (v <<< 16)
  | .impl, 2 => (w &&& 0x000000FF#32) ||| (v <<< 8)
  | .impl, _ => v
  | .archLE, 0 => v
  | .archLE, 1 => (w &&& 0x000000FF#32) ||| (v <<< 8)
  | .archLE, 2 => (w &&& 0x0000FFFF#32) ||| (v <<< 16)
  | .archLE, _ => (w &&& 0x00FFFFFF#32) ||| (v <<< 24)

end Sys2Proof.Machine
end

