-- ==== Sys2Proof/Machine/Memory.lean ====
section
/-! DEFINITION. Byte stores in canonical form: PhysicalMemory (10_state.md R26), the executable's bytes and the swap store
(50_frame_allocator.md R217, R221). Multi-byte values are little-endian (20_memory.md R42); byte order is decided here only. -/
namespace Sys2Proof.Machine

/-- What an address not listed reads as: 0, the reset contents of PhysicalMemory (10_state.md R35); for the executable and the swap
store see notes/assumptions/11.md. -/
def Memory.unlisted : Byte := 0

/-- One byte. -/
def Memory.read : List Host.Cell → Nat → Byte
  | [], _ => Memory.unlisted
  | (k, b) :: rest, a => if k = a then b else Memory.read rest a

/-- A cell in front of a store, dropped when it holds what an unlisted address reads as. -/
def Memory.cons (a : Nat) (b : Byte) (rest : List Host.Cell) : List Host.Cell :=
  if b = Memory.unlisted then rest else (a, b) :: rest

/-- Writing one byte keeps the cells rising and lists no unlisted value. -/
def Memory.write : List Host.Cell → Nat → Byte → List Host.Cell
  | [], a, b => Memory.cons a b []
  | (k, c) :: rest, a, b =>
    if k < a then (k, c) :: Memory.write rest a b
    else if k = a then Memory.cons a b rest
    else Memory.cons a b ((k, c) :: rest)

/-- The canonical form: addresses strictly rising, no cell equal to what an unlisted address reads as. -/
abbrev Memory.wf (m : List Host.Cell) : Prop :=
  m.Pairwise (fun c d => c.1 < d.1) ∧ ∀ c ∈ m, c.2 ≠ Memory.unlisted

/-- The bytes at `a`, `a + 1`, … `a + n - 1`, the `ReadAt` of a store (50_frame_allocator.md R221). -/
def Memory.readBytes (m : List Host.Cell) (a : Nat) : Nat → List Byte
  | 0 => []
  | n + 1 => Memory.read m a :: Memory.readBytes m (a + 1) n

/-- Writing bytes at consecutive addresses, the `WriteAt` of a store (50_frame_allocator.md R221). -/
def Memory.writeBytes (m : List Host.Cell) (a : Nat) : List Byte → List Host.Cell
  | [] => m
  | b :: bs => Memory.writeBytes (Memory.write m a b) (a + 1) bs

/-- The sizes of an access: 1, 2 and 4 bytes (20_memory.md R43). -/
inductive AccessSize where
  | byte
  | half
  | word
deriving DecidableEq, Repr

/-- How many bytes an access of a size has. -/
def AccessSize.bytes : AccessSize → Nat
  | .byte => 1
  | .half => 2
  | .word => 4

/-- The access of `n` bytes, if there is one (20_memory.md R43). -/
def AccessSize.ofBytes (n : Nat) : Option AccessSize :=
  if n = 1 then some .byte else if n = 2 then some .half else if n = 4 then some .word else none

/-- The little-endian value of an access at physical address `p`, zero-extended to 32 bits (20_memory.md R42, R53). -/
def Memory.readValue (m : List Host.Cell) (p : Nat) : AccessSize → Word
  | .byte => wordOfBytes (Memory.read m p) 0 0 0
  | .half => wordOfBytes (Memory.read m p) (Memory.read m (p + 1)) 0 0
  | .word => wordOfBytes (Memory.read m p) (Memory.read m (p + 1)) (Memory.read m (p + 2)) (Memory.read m (p + 3))

/-- Storing the low bytes of a value at physical address `p`, little-endian (20_memory.md R42, R54). -/
def Memory.writeValue (m : List Host.Cell) (p : Nat) (v : Word) (size : AccessSize) : List Host.Cell :=
  Memory.writeBytes m p ((bytesOfWord v).take size.bytes)

end Sys2Proof.Machine
end

