-- ==== Sys2Proof/Machine/Translate.lean ====
section
/-! DEFINITION. The registry of address spaces, the translation entries and the address translator (20_memory.md R44 to R52). -/
namespace Sys2Proof.Machine

/-- `spaces[id]` (50_frame_allocator.md R200). -/
def Spaces.get : List (Nat × AddressSpace) → Nat → Option AddressSpace
  | [], _ => none
  | (k, S) :: rest, id => if k = id then some S else Spaces.get rest id

/-- Changes the space `id`, if there is one. -/
def Spaces.modify (l : List (Nat × AddressSpace)) (id : Nat) (f : AddressSpace → AddressSpace) : List (Nat × AddressSpace) :=
  l.map fun p => if p.1 = id then (p.1, f p.2) else p

/-- Adds a space, identifiers rising. -/
def Spaces.insert : List (Nat × AddressSpace) → Nat → AddressSpace → List (Nat × AddressSpace)
  | [], id, S => [(id, S)]
  | (k, T) :: rest, id, S =>
    if k < id then (k, T) :: Spaces.insert rest id S
    else if k = id then (id, S) :: rest
    else (id, S) :: (k, T) :: rest

/-- Removes a space. -/
def Spaces.erase (l : List (Nat × AddressSpace)) (id : Nat) : List (Nat × AddressSpace) :=
  l.filter fun p => p.1 ≠ id

/-- The AddressSpace with identifier `id`. -/
def State.space (s : State) (id : Nat) : Option AddressSpace := Spaces.get s.spaces id

/-- The page-table entry of a page of a space (10_state.md R23). -/
def State.pte (s : State) (id vpn : Nat) : Option TranslationEntry :=
  match s.space id with
  | some S => S.pageTable[vpn]?
  | none => none

/-- The page table of the active source in page-table mode (10_state.md R25): none when no table is installed. DESIGN CHOICE: a reference to
a space that is not in the registry counts as no table installed (notes/assumptions/25.md). -/
def State.activePageTable (s : State) : Option (Nat × AddressSpace) :=
  match s.activeTable with
  | some id => (s.space id).map fun S => (id, S)
  | none => none

/-- Page-table mode with no page table installed, in which a step is outside the spec (70_reset_and_hazards.md R282, U9). -/
def State.noTableInstalled (s : State) : Bool := !s.cfg.useTlb && s.activePageTable.isNone

/-- The TLB's indices in scan order (20_memory.md R48). -/
def tlbOrder : List (Fin 4) := [0, 1, 2, 3]

/-- The first valid TLB entry whose `virtualPage` is the vpn (20_memory.md R48). -/
def State.tlbFind (s : State) (vpn : Nat) : Option (Fin 4) :=
  tlbOrder.find? fun i => s.tlb[i].valid && s.tlb[i].virtualPage == vpn

/-- A place that holds a translation entry. -/
inductive EntryRef where
  | table (space vpn : Nat)
  | tlb (i : Fin 4)
deriving DecidableEq, Repr

/-- The translation entry at a place. -/
def State.entryAt (s : State) : EntryRef → Option TranslationEntry
  | .table id vpn => s.pte id vpn
  | .tlb i => some s.tlb[i]

/-- Changes the translation entry at a place. -/
def State.modifyEntry (s : State) (r : EntryRef) (f : TranslationEntry → TranslationEntry) : State :=
  match r with
  | .table id vpn => { s with spaces := Spaces.modify s.spaces id fun S => { S with pageTable := S.pageTable.modify vpn f } }
  | .tlb i => { s with tlb := s.tlb.set i (f s.tlb[i]) }

/-- The result of looking a vpn up in the active source. -/
inductive Lookup where
  | hit (r : EntryRef) (e : TranslationEntry)
  | miss (e : ExcKind)
  | refused (r : Refusal)
deriving DecidableEq, Repr

/-- The exception for a vpn at or beyond `pageTableSize` (20_memory.md R47, 90_conflicts.md C1). -/
def OorVpn.exception : OorVpn → ExcKind
  | .pageFault => .pageFault
  | .addressError => .addressError

/-- Page-table mode: `pageTable[vpn]` of the active page table (20_memory.md R47). -/
def State.lookupTable (s : State) (vpn : Nat) : Lookup :=
  match s.activePageTable with
  | none => .refused .noPageTable
  | some (id, S) =>
    if s.pageTableSize ≤ vpn then .miss (OorVpn.exception s.cfg.oorVpn)
    else
      match S.pageTable[vpn]? with
      | none => .refused (.pageTableTooShort vpn)
      | some e => if e.valid then .hit (.table id vpn) e else .miss .pageFault

/-- TLB mode: the first valid entry with the vpn (20_memory.md R48). -/
def State.lookupTlb (s : State) (vpn : Nat) : Lookup :=
  match s.tlbFind vpn with
  | some i => .hit (.tlb i) s.tlb[i]
  | none => .miss .pageFault

/-- The lookup of the active source (20_memory.md R44 step 3). -/
def State.lookup (s : State) (vpn : Nat) : Lookup :=
  if s.cfg.useTlb then s.lookupTlb vpn else s.lookupTable vpn

/-- Sets the bits of the entry an access went through: `use`, and `dirty` when writing (20_memory.md R51). -/
def State.touch (s : State) (r : EntryRef) (writing : Bool) : State :=
  s.modifyEntry r fun e => { e with use := true, dirty := e.dirty || writing }

/-- The result of an access: a value and the state after it, an exception that changes nothing (20_memory.md R52), or a refusal. -/
inductive Access (α : Type) where
  | ok (v : α) (s : State)
  | exc (e : ExcKind)
  | refused (r : Refusal)
deriving DecidableEq, Repr

/-- Natural alignment (20_memory.md R45). -/
def AccessSize.aligned (size : AccessSize) (va : Word) : Bool := va.toNat % size.bytes == 0

/-- The virtual page number of an address, read as unsigned (20_memory.md R46). -/
def State.vpnOf (s : State) (va : Word) : Nat := va.toNat / s.cfg.pageSize

/-- The offset of an address in its page (20_memory.md R46). -/
def State.offsetOf (s : State) (va : Word) : Nat := va.toNat % s.cfg.pageSize

/-- `Translate(virtualAddr, size, writing)` (20_memory.md R44), the checks in the order of R52. -/
def State.translate (s : State) (va : Word) (size : AccessSize) (writing : Bool) : Access Nat :=
  if size.aligned va then
    match s.lookup (s.vpnOf va) with
    | .refused r => .refused r
    | .miss e => .exc e
    | .hit r e =>
      if writing && e.readOnly then .exc .readOnly
      else if s.cfg.numPhysPages ≤ e.physicalPage then .exc .busError
      else .ok (e.physicalPage * s.cfg.pageSize + s.offsetOf va) (s.touch r writing)
  else .exc .addressError

/-- `MemRead(addr, n)` (20_memory.md R53). -/
def State.memRead (s : State) (va : Word) (size : AccessSize) : Access Word :=
  match s.translate va size false with
  | .ok p t => .ok (Memory.readValue t.mem p size) t
  | .exc e => .exc e
  | .refused r => .refused r

/-- `MemWrite(addr, n, v)` (20_memory.md R54). -/
def State.memWrite (s : State) (va : Word) (size : AccessSize) (v : Word) : Access Unit :=
  match s.translate va size true with
  | .ok p t => .ok () { t with mem := Memory.writeValue t.mem p v size }
  | .exc e => .exc e
  | .refused r => .refused r

end Sys2Proof.Machine
end

