-- ==== Sys2Proof/Machine/Ops.lean ====
section
/-! DEFINITION. The shared operations of the instructions: general registers (10_state.md R12), raising an exception
(60_exceptions.md R244) and going on after one (R248, R249), the end of a step (10_state.md R32, R33), data accesses, and the
fetch. -/
namespace Sys2Proof.Machine

/-- The outcome of an operation that answers an `α`. -/
abbrev Result (α : Type) : Type := Host.Outcome α Fault Refusal

/-- Goes on with the answer of an operation. -/
def Result.andThen {α β : Type} (r : Result α) (k : α → Result β) : Result β :=
  match r with
  | .next a => k a
  | .fault f => .fault f
  | .refused q => .refused q

/-- The read `x[i]`: register 0 reads 0 (10_state.md R12). -/
def State.getX (s : State) (r : RegNum) : Word := if r = 0 then 0 else s.x[r]

/-- The write `x[i] <- v`: a write to register 0 changes nothing (10_state.md R12). -/
def State.setX (s : State) (r : RegNum) (v : Word) : State := { s with x := if r = 0 then s.x else s.x.set r v }

/-- Commits the pending load and leaves none pending (60_exceptions.md R245). -/
def State.drainLoad (s : State) : State := { s.setX s.load s.loadValue with load := 0, loadValue := 0 }

/-- `raise E(a)`, taking an exception (60_exceptions.md R244): `BAD_VADDR` receives the address, the pending load is drained when
`EXC_DRAINS_LOAD` (R245), and `Trap(E, a)` goes to the host. `PC`, `NEXT_PC` and `PREV_PC` keep the values they had: there is no
saved-PC register, no status, no mode and no vector. -/
def State.raise (s : State) (e : ExcKind) (a : Word) : State :=
  { s with
    badVAddr := a
    x := if s.cfg.excDrainsLoad then s.drainLoad.x else s.x
    load := if s.cfg.excDrainsLoad then s.drainLoad.load else s.load
    loadValue := if s.cfg.excDrainsLoad then s.drainLoad.loadValue else s.loadValue
    trap := some { kind := e, badVAddr := a } }

/-- The number of an exception kind, for traces; no register and no instruction exposes it (60_exceptions.md R241). -/
def ExcKind.code : ExcKind → Nat
  | .syscall => 1
  | .pageFault => 2
  | .readOnly => 3
  | .busError => 4
  | .addressError => 5
  | .overflow => 6
  | .illegalInstr => 7

/-- Retry after an exception (60_exceptions.md R248): the handler leaves `PC` and `NEXT_PC` as they are; the next step runs the same
instruction. Nothing was saved, so nothing is restored (R253). -/
def State.retry (s : State) : State := { s with trap := none }

/-- `AdvancePC(pcAfter)` (10_state.md R33). -/
def State.advancePc (s : State) (pcAfter : Word) : State :=
  { s with prevPc := s.pc, pc := s.nextPc, nextPc := pcAfter }

/-- Continue past the instruction after an exception (60_exceptions.md R249): the advance the step did not make. -/
def State.continuePast (s : State) : State := { s.advancePc (s.nextPc + 4) with trap := none }

/-- `CommitDelayedLoad(nextLoadReg, nextLoadValue)` (10_state.md R32). -/
def State.commitLoad (s : State) (nextLoadReg : RegNum) (nextLoadValue : Word) : State :=
  { s.setX s.load s.loadValue with load := nextLoadReg, loadValue := nextLoadValue }

/-- Steps 6 and 7 of a step and its result Done (10_state.md R30): the load that was pending lands, the staged load becomes pending,
the PCs advance to the staged `pcAfter`. -/
def State.finish (s : State) (pcAfter : Word) (nextLoadReg : RegNum) (nextLoadValue : Word) : State :=
  { (s.commitLoad nextLoadReg nextLoadValue).advancePc pcAfter with trap := none }

/-- The end of a step that stages nothing: `pcAfter` is `NEXT_PC + 4` and no load is staged (10_state.md R31). -/
def State.done (s : State) : State := s.finish (s.nextPc + 4) 0 0

/-- The end of a step that stages a transfer of control to `target` (44_branches_jumps.md R170). -/
def State.jumpTo (s : State) (target : Word) : State := s.finish target 0 0

/-- The end of a conditional branch (44_branches_jumps.md R170): not taken, `pcAfter` is `NEXT_PC + 4`. -/
def State.branchIf (s : State) (taken : Bool) (imm : BitVec 16) : State :=
  if taken then s.jumpTo (branchTarget s.nextPc imm) else s.done

/-- The end of a load: `load_delayed(rt, v)` (43_loads_stores.md R166). -/
def State.loadDelayed (s : State) (rt : RegNum) (v : Word) : State := s.finish (s.nextPc + 4) rt v

/-- The effective address of a load or store (43_loads_stores.md R150). -/
def State.ea (s : State) (rs : RegNum) (imm : BitVec 16) : Word := effectiveAddr (s.getX rs) imm

/-- Writes a result to a general register and ends the step (40_arithmetic_logic.md R100). -/
def State.writeResult (s : State) (rd : RegNum) (v : Word) : Result State := .next (s.setX rd v).done

/-- Writes a result unless it overflowed, which raises OVERFLOW(0) and writes nothing (40_arithmetic_logic.md R101, R103, R111). -/
def State.writeUnlessOverflow (s : State) (rd : RegNum) (overflows : Bool) (v : Word) : Result State :=
  if overflows then .next (s.raise .overflow 0) else s.writeResult rd v

/-- A data read at `va`; a failing one raises with that address (20_memory.md R53, R55). -/
def State.reading (s : State) (va : Word) (size : AccessSize) (k : Word → State → Result State) : Result State :=
  match s.memRead va size with
  | .ok v t => k v t
  | .exc e => .next (s.raise e va)
  | .refused r => .refused r

/-- A data write at `va` that ends the step; a failing one raises with that address (20_memory.md R54, R55). -/
def State.storing (s : State) (va : Word) (size : AccessSize) (v : Word) : Result State :=
  match s.memWrite va size v with
  | .ok _ t => .next t.done
  | .exc e => .next (s.raise e va)
  | .refused r => .refused r

/-- A load of `size` bytes at base plus offset, its value converted and staged (43_loads_stores.md R150, R166). -/
def State.loadInto (s : State) (rt : RegNum) (imm : BitVec 16) (rs : RegNum) (size : AccessSize) (convert : Word → Word) :
    Result State :=
  s.reading (s.ea rs imm) size fun v t => .next (t.loadDelayed rt (convert v))

/-- The old register value LWL and LWR merge with: the pending load's value when it targets the register (43_loads_stores.md
R154). -/
def State.mergeBase (s : State) (rt : RegNum) : Word := if s.load = rt then s.loadValue else s.getX rt

/-- LWL and LWR: read the enclosing aligned word, merge, stage (43_loads_stores.md R154 to R156). -/
def State.loadMerged (s : State) (rt : RegNum) (imm : BitVec 16) (rs : RegNum)
    (merge : MergeTable → BitVec 2 → Word → Word → Word) : Result State :=
  let ea := s.ea rs imm
  s.reading (alignedDown ea) .word fun w t =>
    .next (t.loadDelayed rt (merge s.cfg.mergeTable (byteCase ea) (s.mergeBase rt) w))

/-- SWL and SWR: read the enclosing aligned word, merge, write it whole (43_loads_stores.md R160, R161). The register stored is
`x[rt]`, never the pending value. -/
def State.storeMerged (s : State) (rt : RegNum) (imm : BitVec 16) (rs : RegNum)
    (merge : MergeTable → BitVec 2 → Word → Word → Word) : Result State :=
  let ea := s.ea rs imm
  s.reading (alignedDown ea) .word fun w t =>
    t.storing (alignedDown ea) .word (merge s.cfg.mergeTable (byteCase ea) w (s.getX rt))

/-- The fetch, `MemRead(PC, 4)` (20_memory.md R56). A step with no page table installed is refused whatever `PC` holds, a misaligned one
included (70_reset_and_hazards.md R282, U9). -/
def State.fetch (s : State) : Access Word :=
  if s.noTableInstalled then .refused .noPageTable else s.memRead s.pc .word

end Sys2Proof.Machine
end

