-- ==== Sys2Proof/Machine/Arith.lean ====
section
/-! DEFINITION. Arithmetic, logical, comparison and immediate instructions (40_arithmetic_logic.md). -/
namespace Sys2Proof.Machine

/-- ADD (R101): signed add, OVERFLOW(0) with no write when the sum does not fit. -/
def execAdd (rd rs rt : RegNum) (s : State) : Result State :=
  s.writeUnlessOverflow rd (addOverflows (s.getX rs) (s.getX rt)) (s.getX rs + s.getX rt)

/-- ADDU (R102): add modulo 2^32, never raises. -/
def execAddu (rd rs rt : RegNum) (s : State) : Result State := s.writeResult rd (s.getX rs + s.getX rt)

/-- SUB (R103): signed subtract, OVERFLOW(0) with no write when the difference does not fit. -/
def execSub (rd rs rt : RegNum) (s : State) : Result State :=
  s.writeUnlessOverflow rd (subOverflows (s.getX rs) (s.getX rt)) (s.getX rs - s.getX rt)

/-- SUBU (R104): subtract modulo 2^32, never raises. -/
def execSubu (rd rs rt : RegNum) (s : State) : Result State := s.writeResult rd (s.getX rs - s.getX rt)

/-- AND (R105): bitwise and. -/
def execAnd (rd rs rt : RegNum) (s : State) : Result State := s.writeResult rd (s.getX rs &&& s.getX rt)

/-- OR (R106): bitwise or. -/
def execOr (rd rs rt : RegNum) (s : State) : Result State := s.writeResult rd (s.getX rs ||| s.getX rt)

/-- XOR (R107): bitwise exclusive or. -/
def execXor (rd rs rt : RegNum) (s : State) : Result State := s.writeResult rd (s.getX rs ^^^ s.getX rt)

/-- NOR (R108): bitwise not of or. -/
def execNor (rd rs rt : RegNum) (s : State) : Result State := s.writeResult rd (~~~(s.getX rs ||| s.getX rt))

/-- SLT (R109): signed comparison. -/
def execSlt (rd rs rt : RegNum) (s : State) : Result State := s.writeResult rd (boolWord (signedLess (s.getX rs) (s.getX rt)))

/-- SLTU (R110): unsigned comparison. -/
def execSltu (rd rs rt : RegNum) (s : State) : Result State :=
  s.writeResult rd (boolWord (unsignedLess (s.getX rs) (s.getX rt)))

/-- ADDI (R111): signed add of the sign-extended immediate, OVERFLOW(0) as ADD. -/
def execAddi (rt rs : RegNum) (imm : BitVec 16) (s : State) : Result State :=
  s.writeUnlessOverflow rt (addOverflows (s.getX rs) (signedImm imm)) (s.getX rs + signedImm imm)

/-- ADDIU (R112): add of the sign-extended immediate modulo 2^32, never raises. -/
def execAddiu (rt rs : RegNum) (imm : BitVec 16) (s : State) : Result State := s.writeResult rt (s.getX rs + signedImm imm)

/-- SLTI (R113): signed comparison with the sign-extended immediate. -/
def execSlti (rt rs : RegNum) (imm : BitVec 16) (s : State) : Result State :=
  s.writeResult rt (boolWord (signedLess (s.getX rs) (signedImm imm)))

/-- SLTIU (R114): unsigned comparison with the sign-extended immediate. -/
def execSltiu (rt rs : RegNum) (imm : BitVec 16) (s : State) : Result State :=
  s.writeResult rt (boolWord (unsignedLess (s.getX rs) (signedImm imm)))

/-- ANDI (R115): and with the zero-extended immediate. -/
def execAndi (rt rs : RegNum) (imm : BitVec 16) (s : State) : Result State := s.writeResult rt (s.getX rs &&& logicalImm imm)

/-- ORI (R116): or with the zero-extended immediate. -/
def execOri (rt rs : RegNum) (imm : BitVec 16) (s : State) : Result State := s.writeResult rt (s.getX rs ||| logicalImm imm)

/-- XORI (R117): exclusive or with the zero-extended immediate. -/
def execXori (rt rs : RegNum) (imm : BitVec 16) (s : State) : Result State := s.writeResult rt (s.getX rs ^^^ logicalImm imm)

/-- LUI (R118): the immediate in bits 31:16. -/
def execLui (rt : RegNum) (imm : BitVec 16) (s : State) : Result State := s.writeResult rt (upperImm imm)

end Sys2Proof.Machine
end

