-- ==== Sys2Proof/Machine/Branch.lean ====
section
/-! DEFINITION. Branch and jump instructions (44_branches_jumps.md). None writes `PC` or `NEXT_PC` itself: each stages `pcAfter` (R170). -/
namespace Sys2Proof.Machine

/-- BEQ (R171): branch if equal. -/
def execBeq (rs rt : RegNum) (imm : BitVec 16) (s : State) : Result State := .next (s.branchIf (s.getX rs == s.getX rt) imm)

/-- BNE (R172): branch if not equal. -/
def execBne (rs rt : RegNum) (imm : BitVec 16) (s : State) : Result State := .next (s.branchIf (s.getX rs != s.getX rt) imm)

/-- BLEZ (R173): branch if less than or equal to zero. -/
def execBlez (rs : RegNum) (imm : BitVec 16) (s : State) : Result State :=
  .next (s.branchIf (decide ((s.getX rs).toInt ≤ 0)) imm)

/-- BGTZ (R174): branch if greater than zero. -/
def execBgtz (rs : RegNum) (imm : BitVec 16) (s : State) : Result State :=
  .next (s.branchIf (decide (0 < (s.getX rs).toInt)) imm)

/-- BLTZ (R175): branch if the sign is set. -/
def execBltz (rs : RegNum) (imm : BitVec 16) (s : State) : Result State := .next (s.branchIf (sign (s.getX rs)) imm)

/-- BGEZ (R176): branch if the sign is clear. -/
def execBgez (rs : RegNum) (imm : BitVec 16) (s : State) : Result State := .next (s.branchIf (!sign (s.getX rs)) imm)

/-- BLTZAL (R178): link, then branch if the sign is set; the source is read after the link write (R177). -/
def execBltzal (rs : RegNum) (imm : BitVec 16) (s : State) : Result State :=
  let t := s.setX 31 (linkValue s.nextPc)
  .next (t.branchIf (sign (t.getX rs)) imm)

/-- BGEZAL (R179): link, then branch if the sign is clear; the source is read after the link write (R177). -/
def execBgezal (rs : RegNum) (imm : BitVec 16) (s : State) : Result State :=
  let t := s.setX 31 (linkValue s.nextPc)
  .next (t.branchIf (!sign (t.getX rs)) imm)

/-- J (R180): jump. -/
def execJ (target : BitVec 26) (s : State) : Result State := .next (s.jumpTo (jumpTarget s.nextPc target))

/-- JAL (R181): jump and link. -/
def execJal (target : BitVec 26) (s : State) : Result State :=
  .next ((s.setX 31 (linkValue s.nextPc)).jumpTo (jumpTarget s.nextPc target))

/-- JR (R182): jump to a register. -/
def execJr (rs : RegNum) (s : State) : Result State := .next (s.jumpTo (s.getX rs))

/-- JALR (R183): link, then jump to a register; the source is read after the link write (R177). -/
def execJalr (rd rs : RegNum) (s : State) : Result State :=
  let t := s.setX rd (linkValue s.nextPc)
  .next (t.jumpTo (t.getX rs))

end Sys2Proof.Machine
end

