-- ==== Sys2Proof/Machine/LoadStore.lean ====
section
/-! DEFINITION. Load and store instructions (43_loads_stores.md). -/
namespace Sys2Proof.Machine

/-- LB (R151): load a byte, sign-extended. -/
def execLb (rt : RegNum) (imm : BitVec 16) (rs : RegNum) (s : State) : Result State := s.loadInto rt imm rs .byte signedByte

/-- LBU (R152): load a byte, zero-extended. -/
def execLbu (rt : RegNum) (imm : BitVec 16) (rs : RegNum) (s : State) : Result State :=
  s.loadInto rt imm rs .byte unsignedByte

/-- LH (R153): load a halfword, sign-extended. -/
def execLh (rt : RegNum) (imm : BitVec 16) (rs : RegNum) (s : State) : Result State := s.loadInto rt imm rs .half signedHalf

/-- LHU (R157): load a halfword, zero-extended. -/
def execLhu (rt : RegNum) (imm : BitVec 16) (rs : RegNum) (s : State) : Result State :=
  s.loadInto rt imm rs .half unsignedHalf

/-- LW (R158): load a word. -/
def execLw (rt : RegNum) (imm : BitVec 16) (rs : RegNum) (s : State) : Result State := s.loadInto rt imm rs .word id

/-- LWL (R155): merge the left part of a word. -/
def execLwl (rt : RegNum) (imm : BitVec 16) (rs : RegNum) (s : State) : Result State := s.loadMerged rt imm rs lwlMerge

/-- LWR (R156): merge the right part of a word. -/
def execLwr (rt : RegNum) (imm : BitVec 16) (rs : RegNum) (s : State) : Result State := s.loadMerged rt imm rs lwrMerge

/-- SB (R159): store the low byte. -/
def execSb (rt : RegNum) (imm : BitVec 16) (rs : RegNum) (s : State) : Result State :=
  s.storing (s.ea rs imm) .byte (s.getX rt)

/-- SH (R162): store the low halfword. -/
def execSh (rt : RegNum) (imm : BitVec 16) (rs : RegNum) (s : State) : Result State :=
  s.storing (s.ea rs imm) .half (s.getX rt)

/-- SW (R163): store the word. -/
def execSw (rt : RegNum) (imm : BitVec 16) (rs : RegNum) (s : State) : Result State :=
  s.storing (s.ea rs imm) .word (s.getX rt)

/-- SWL (R160): merge the register into the left part of a word. -/
def execSwl (rt : RegNum) (imm : BitVec 16) (rs : RegNum) (s : State) : Result State := s.storeMerged rt imm rs swlMerge

/-- SWR (R161): merge the register into the right part of a word. -/
def execSwr (rt : RegNum) (imm : BitVec 16) (rs : RegNum) (s : State) : Result State := s.storeMerged rt imm rs swrMerge

end Sys2Proof.Machine
end

