-- ==== Sys2Proof/Machine/MulDiv.lean ====
section
/-! DEFINITION. Multiply, divide and the HI/LO moves (42_multiply_divide.md). -/
namespace Sys2Proof.Machine

/-- Writes `HI` and `LO` (10_state.md R14). -/
def State.setHiLo (s : State) (hi lo : Word) : State := { s with hi := hi, lo := lo }

/-- `HI <- P[63:32] ; LO <- P[31:0]` (42_multiply_divide.md R141, R142). -/
def State.setProduct (s : State) (p : BitVec 64) : State := s.setHiLo (p.extractLsb' 32 32) (p.extractLsb' 0 32)

/-- The exact signed product modulo 2^64 (R141). -/
def signedProduct (a b : Word) : BitVec 64 := BitVec.ofInt 64 (a.toInt * b.toInt)

/-- The exact unsigned product (R142). -/
def unsignedProduct (a b : Word) : BitVec 64 := BitVec.ofNat 64 (a.toNat * b.toNat)

/-- `div_t`, the quotient truncated toward zero (R143). -/
def signedQuotient (a b : Word) : Word := BitVec.ofInt 32 (a.toInt.tdiv b.toInt)

/-- `rem_t`, the remainder with the dividend's sign (R143). -/
def signedRemainder (a b : Word) : Word := BitVec.ofInt 32 (a.toInt.tmod b.toInt)

/-- `DIV_OVF` (R143, U1): refused at the spec's own value of the parameter; with a named pair the instruction runs and writes it; with the
free pair it runs and `HI`, `LO` hold values that nothing constrains (notes/assumptions/3.md). -/
def State.divideOverflow (s : State) (a b : Word) : Result State :=
  match s.cfg.divOvf with
  | .free => .next (s.setHiLo (Config.divOvfHi a b) (Config.divOvfLo a b)).done
  | .pair hi lo => .next (s.setHiLo hi lo).done
  | .refuse => .refused .divOverflow

/-- MULT (R141): signed multiply, the exact 64-bit product in `HI`, `LO`. -/
def execMult (rs rt : RegNum) (s : State) : Result State := .next (s.setProduct (signedProduct (s.getX rs) (s.getX rt))).done

/-- MULTU (R142): unsigned multiply, the exact 64-bit product in `HI`, `LO`. -/
def execMultu (rs rt : RegNum) (s : State) : Result State :=
  .next (s.setProduct (unsignedProduct (s.getX rs) (s.getX rt))).done

/-- DIV (R143): signed divide; a zero divisor gives `HI` = `LO` = 0 and no exception; the quotient that does not fit is `DIV_OVF`. -/
def execDiv (rs rt : RegNum) (s : State) : Result State :=
  if s.getX rt = 0 then .next (s.setHiLo 0 0).done
  else if divOverflows (s.getX rs) (s.getX rt) then s.divideOverflow (s.getX rs) (s.getX rt)
  else .next (s.setHiLo (signedRemainder (s.getX rs) (s.getX rt)) (signedQuotient (s.getX rs) (s.getX rt))).done

/-- DIVU (R144): unsigned divide; a zero divisor gives `HI` = `LO` = 0 and no exception. -/
def execDivu (rs rt : RegNum) (s : State) : Result State :=
  if s.getX rt = 0 then .next (s.setHiLo 0 0).done
  else .next (s.setHiLo (s.getX rs % s.getX rt) (s.getX rs / s.getX rt)).done

/-- MFHI (R145): `x[rd] <- HI`. -/
def execMfhi (rd : RegNum) (s : State) : Result State := s.writeResult rd s.hi

/-- MFLO (R146): `x[rd] <- LO`. -/
def execMflo (rd : RegNum) (s : State) : Result State := s.writeResult rd s.lo

/-- MTHI (R147): `HI <- x[rs]`. -/
def execMthi (rs : RegNum) (s : State) : Result State := .next (s.setHiLo (s.getX rs) s.lo).done

/-- MTLO (R148): `LO <- x[rs]`. -/
def execMtlo (rs : RegNum) (s : State) : Result State := .next (s.setHiLo s.hi (s.getX rs)).done

end Sys2Proof.Machine
end

