-- ==== Sys2Proof/Machine/Shift.lean ====
section
/-! DEFINITION. Shift instructions (41_shifts.md R130 to R136): the value is `x[rt]`, the result goes to `x[rd]`. -/
namespace Sys2Proof.Machine

/-- SLL (R131): left by `shamt`, zeros enter. -/
def execSll (rd rt : RegNum) (shamt : Nat) (s : State) : Result State := s.writeResult rd (s.getX rt <<< shamt)

/-- SRL (R132): right by `shamt`, zeros enter. -/
def execSrl (rd rt : RegNum) (shamt : Nat) (s : State) : Result State := s.writeResult rd (s.getX rt >>> shamt)

/-- SRA (R133): right by `shamt`, copies of bit 31 enter. -/
def execSra (rd rt : RegNum) (shamt : Nat) (s : State) : Result State := s.writeResult rd ((s.getX rt).sshiftRight shamt)

/-- SLLV (R134): left by the low 5 bits of `x[rs]`. -/
def execSllv (rd rt rs : RegNum) (s : State) : Result State := s.writeResult rd (s.getX rt <<< variableAmount (s.getX rs))

/-- SRLV (R135): right by the low 5 bits of `x[rs]`, zeros enter. -/
def execSrlv (rd rt rs : RegNum) (s : State) : Result State := s.writeResult rd (s.getX rt >>> variableAmount (s.getX rs))

/-- SRAV (R136): right by the low 5 bits of `x[rs]`, copies of bit 31 enter. -/
def execSrav (rd rt rs : RegNum) (s : State) : Result State :=
  s.writeResult rd ((s.getX rt).sshiftRight (variableAmount (s.getX rs)))

end Sys2Proof.Machine
end

