-- ==== Sys2Proof/Machine/System.lean ====
section
/-! DEFINITION. System call and illegal words (45_system.md). -/
namespace Sys2Proof.Machine

/-- SYSCALL (R190): raises SYSCALL(0). -/
def execSyscall (s : State) : Result State := .next (s.raise .syscall 0)

/-- The execution of a word that is no instruction (R192): raises ILLEGAL_INSTR(0). -/
def execIllegal (s : State) : Result State := .next (s.raise .illegalInstr 0)

end Sys2Proof.Machine
end

