-- ==== Sys2Proof/Machine/Coremap.lean ====
section
/-! DEFINITION. The physical-frame allocator and its eviction engine (50_frame_allocator.md R200 to R213). Nothing here is an
instruction: the host calls `find` between steps or inside an exception delivery (R213). -/
namespace Sys2Proof.Machine

/-- The claim of a frame, none when it is free (10_state.md R27). -/
def State.claim (s : State) (f : Nat) : Option Claim :=
  match s.coremap[f]? with
  | some c => c
  | none => none

/-- `owner[f] <- S ; vpn[f] <- v`, or free (50_frame_allocator.md R203, R212). -/
def State.setClaim (s : State) (f : Nat) (c : Option Claim) : State := { s with coremap := s.coremap.set f c }

/-- Writes the page-table entry of a page of a space. -/
def State.setPte (s : State) (id vpn : Nat) (e : TranslationEntry) : State := s.modifyEntry (.table id vpn) fun _ => e

/-- The TLB entry in which a frame's mapping is resident, if any (R208). -/
def State.tlbResident (s : State) (c : Claim) : Option (Fin 4) :=
  if s.cfg.useTlb && s.currentSpace == some c.owner then s.tlbFind c.vpn else none

/-- `E(f)`, the translation entry of a frame: the live TLB copy when the mapping is resident, else the page-table entry (R205). -/
def State.frameEntry (s : State) (f : Nat) : Option (EntryRef × TranslationEntry) :=
  match s.claim f with
  | none => none
  | some c =>
    match s.tlbResident c with
    | some i => some (.tlb i, s.tlb[i])
    | none => (s.pte c.owner c.vpn).map fun e => (.table c.owner c.vpn, e)

/-- The frames in scan order: N of them from `start`, wrapping from N - 1 to 0 (R206). -/
def scanOrder (start n : Nat) : List Nat := (List.range n).map fun k => (start + k) % n

/-- Pass 1: a frame whose `use` bit is set loses it and is skipped; the first frame that is unused and not dirty is the victim
(R206). -/
def State.scanPass1 (s : State) : List Nat → Result (Option Nat × State)
  | [] => .next (none, s)
  | f :: fs =>
    match s.frameEntry f with
    | none => .refused (.brokenCoremap f)
    | some (r, e) =>
      if e.use then (s.modifyEntry r fun d => { d with use := false }).scanPass1 fs
      else if e.dirty then s.scanPass1 fs
      else .next (some f, s)

/-- Pass 2: the first frame that is not dirty (R207). -/
def State.scanPass2 (s : State) : List Nat → Result (Option Nat)
  | [] => .next none
  | f :: fs =>
    match s.frameEntry f with
    | none => .refused (.brokenCoremap f)
    | some (_, e) => if e.dirty then s.scanPass2 fs else .next (some f)

/-- The frame after the last victim, where a scan starts (R206). -/
def State.scanStart (s : State) : Nat := (s.lastVictim + 1) % s.cfg.numPhysPages

/-- The two-pass clock (R206, R207): pass 1, else pass 2, else the start frame, the least recently scanned dirty one. -/
def State.selectVictim (s : State) : Result (Nat × State) :=
  Result.andThen (s.scanPass1 (scanOrder s.scanStart s.cfg.numPhysPages)) fun p =>
    match p with
    | (some f, t) => .next (f, { t with lastVictim := f })
    | (none, t) =>
      Result.andThen (t.scanPass2 (scanOrder s.scanStart s.cfg.numPhysPages)) fun q =>
        match q with
        | some f => .next (f, { t with lastVictim := f })
        | none => .next (s.scanStart, { t with lastVictim := s.scanStart })

/-- `FoldBack(i)`: the valid TLB entry i over the page-table entry of its vpn in the current space, all six fields (R210). -/
def State.foldBack (s : State) (i : Fin 4) : Result State :=
  if s.tlb[i].valid then
    match s.currentSpace with
    | none => .refused .noCurrentSpace
    | some id =>
      match s.pte id s.tlb[i].virtualPage with
      | none => .refused (.pageOutOfRange s.tlb[i].virtualPage)
      | some _ => .next (s.setPte id s.tlb[i].virtualPage s.tlb[i])
  else .refused (.invalidEntry s.tlb[i].virtualPage)

/-- `tlb[i].valid <- false`, the other fields as they are (R209). -/
def State.invalidateTlb (s : State) (i : Fin 4) : State := s.modifyEntry (.tlb i) fun e => { e with valid := false }

/-- Folds a valid TLB entry back and invalidates it; an invalid one is left alone (R209 step 1, R223). -/
def State.flushTlb (s : State) (i : Fin 4) : Result State :=
  if s.tlb[i].valid then Result.andThen (s.foldBack i) fun t => .next (t.invalidateTlb i) else .next s

/-- The bytes of frame f (10_state.md R26). -/
def State.frameBytes (s : State) (f : Nat) : List Byte :=
  Memory.readBytes s.mem (f * s.cfg.pageSize) s.cfg.pageSize

/-- Fills frame f: a host write to physical memory, no `use` or `dirty` bit is set (20_memory.md R68). -/
def State.fillFrame (s : State) (f : Nat) (bytes : List Byte) : State :=
  { s with mem := Memory.writeBytes s.mem (f * s.cfg.pageSize) bytes }

/-- `SaveToSwap(v)` of the space `id`: the page's bytes to its store at offset `v * PAGE_SIZE`, and `inSwap[v]` (R221). -/
def State.saveToSwap (s : State) (id v : Nat) : Result State :=
  match s.space id, s.pte id v with
  | none, _ => .refused (.unknownSpace id)
  | some _, none => .refused (.pageOutOfRange v)
  | some S, some e =>
    match S.swap with
    | none => .refused (.noSwapStore id)
    | some store =>
      if s.cfg.numPhysPages ≤ e.physicalPage then .fault (.noPhysicalByte (e.physicalPage * s.cfg.pageSize))
      else
        .next { s with spaces := Spaces.modify s.spaces id fun T =>
          { T with
            swap := some (Memory.writeBytes store (v * s.cfg.pageSize) (s.frameBytes e.physicalPage))
            inSwap := T.inSwap.set v true } }

/-- `LoadFromSwap(v, f)` of the space `id`: the page's bytes from its store to frame f (R221). -/
def State.loadFromSwap (s : State) (id v f : Nat) : Result State :=
  match s.space id with
  | none => .refused (.unknownSpace id)
  | some S =>
    match S.swap with
    | none => .refused (.noSwapStore id)
    | some store =>
      if s.cfg.numPhysPages ≤ f then .fault (.noPhysicalByte (f * s.cfg.pageSize))
      else .next (s.fillFrame f (Memory.readBytes store (v * s.cfg.pageSize) s.cfg.pageSize))

/-- Step 1 of `Evict` (R209): the mapping's live TLB copy, if there is one, is folded back and invalidated. -/
def State.foldResident (s : State) (c : Claim) : Result State :=
  match s.tlbResident c with
  | some i => s.flushTlb i
  | none => .next s

/-- `Evict(f)`, steps 1 to 3 (R209): fold the live copy back, write the page to swap if dirty, mark its entry invalid. Step 4 is
`find`'s. -/
def State.evict (s : State) (f : Nat) : Result State :=
  match s.claim f with
  | none => .refused (.brokenCoremap f)
  | some c =>
    Result.andThen (s.foldResident c) fun t =>
      match t.pte c.owner c.vpn with
      | none => .refused (.brokenCoremap f)
      | some e =>
        Result.andThen (if e.dirty then t.saveToSwap c.owner c.vpn else .next t) fun u =>
          .next (u.modifyEntry (.table c.owner c.vpn) fun d => { d with valid := false })

/-- The free frame of lowest index (R204). -/
def State.freeFrame (s : State) : Option Nat := s.coremap.findIdx? fun c => c.isNone

/-- `Find(S, v)` (R203): a free frame if there is one, else an evicted victim, claimed for the pair. The caller must not already hold
a frame for it (U13). -/
def State.find (s : State) (id v : Nat) : Result (Nat × State) :=
  match s.space id with
  | none => .refused (.unknownSpace id)
  | some S =>
    if S.numPages ≤ v then .refused (.pageOutOfRange v)
    else if some { owner := id, vpn := v } ∈ s.coremap then .refused (.alreadyClaimed id v)
    else
      match s.freeFrame with
      | some f => .next (f, s.setClaim f (some { owner := id, vpn := v }))
      | none =>
        Result.andThen s.selectVictim fun p =>
          Result.andThen (p.2.evict p.1) fun t => .next (p.1, t.setClaim p.1 (some { owner := id, vpn := v }))

/-- Destroying an AddressSpace (R212): its frames become free, and in TLB mode the current space's TLB entries become invalid. The
space leaves the registry, and is no longer the active table or the current space (notes/assumptions/12.md). -/
def State.destroySpace (s : State) (id : Nat) : Result State :=
  match s.space id with
  | none => .refused (.unknownSpace id)
  | some _ =>
    let isCurrent := s.currentSpace == some id
    let isActive := s.activeTable == some id
    .next { s with
      coremap := s.coremap.map fun c => if c.any (fun d => d.owner == id) then none else c
      spaces := Spaces.erase s.spaces id
      tlb := if isCurrent && s.cfg.useTlb then s.tlb.map fun e => { e with valid := false } else s.tlb
      currentSpace := if isCurrent then none else s.currentSpace
      activeTable := if isActive then none else s.activeTable
      pageTableSize := if isActive then 0 else s.pageTableSize }

end Sys2Proof.Machine
end

