-- ==== Sys2Proof/Machine/AddressSpace.lean ====
section
/-! DEFINITION. The address-space operations that drive the translator and the coremap: construction and loading
(50_frame_allocator.md R216 to R220), context switch (R223, R224) and the resolution of a page fault (R225, R227). They are
operations of the host. -/
namespace Sys2Proof.Machine

/-- Does a byte of the space belong to a segment (R217). -/
def Segment.contains (g : Segment) (a : Nat) : Bool := decide (g.virtualAddress ≤ a) && decide (a < g.virtualAddress + g.size)

/-- The executable's byte at `fileOffset + (a - virtualAddress)` (R217). -/
def Segment.byteAt (g : Segment) (file : List Host.Cell) (a : Nat) : Byte :=
  Memory.read file (g.fileOffset + (a - g.virtualAddress))

/-- The image byte of a virtual address: from the code or initialized-data segment it belongs to, else 0 (R217;
notes/assumptions/13.md). -/
def AddressSpace.imageByte (S : AddressSpace) (a : Nat) : Byte :=
  if S.code.contains a then S.code.byteAt S.file a
  else if S.initData.contains a then S.initData.byteAt S.file a
  else 0

/-- The image bytes of page v (R218, R220). -/
def AddressSpace.imagePage (S : AddressSpace) (pageSize v : Nat) : List Byte :=
  (List.range pageSize).map fun k => S.imageByte (v * pageSize + k)

/-- The entry of a page just made resident (R218, R220, R225). -/
def TranslationEntry.loaded (v f : Nat) : TranslationEntry where
  virtualPage := v
  physicalPage := f
  valid := true
  readOnly := false
  use := false
  dirty := false

/-- `LoadSegment(va)` on the space `id` (R220): a frame from the coremap, the image bytes of the page, a valid entry. -/
def State.loadSegment (s : State) (id va : Nat) : Result State :=
  match s.space id with
  | none => .refused (.unknownSpace id)
  | some S =>
    let v := va / s.cfg.pageSize
    Result.andThen (s.find id v) fun p =>
      .next ((p.2.fillFrame p.1 (S.imagePage s.cfg.pageSize v)).setPte id v (.loaded v p.1))

/-- Loads the pages of a list one after the other. -/
def State.loadPages (s : State) (id : Nat) : List Nat → Result State
  | [] => .next s
  | v :: vs => Result.andThen (s.loadSegment id (v * s.cfg.pageSize)) fun t => t.loadPages id vs

/-- The program image an AddressSpace is built from: three descriptors and the file's bytes (R217, 92_eei_decisions.md D40). -/
structure ProgramImage where
  file : List Host.Cell
  code : Segment
  initData : Segment
  uninitData : Segment
deriving DecidableEq, Repr

/-- The entry of a page not loaded yet: invalid (R219), its `virtualPage` the index (R216; notes/assumptions/5.md). -/
def TranslationEntry.absent (v : Nat) : TranslationEntry := { TranslationEntry.empty with virtualPage := v }

/-- An AddressSpace with no page loaded (R216, R219). Only the policy with a swap store has one (notes/assumptions/12.md). -/
def AddressSpace.fresh (img : ProgramImage) (numPages : Nat) (policy : LoadPolicy) : AddressSpace where
  pageTable := (List.range numPages).map TranslationEntry.absent
  numPages := numPages
  file := img.file
  code := img.code
  initData := img.initData
  uninitData := img.uninitData
  policy := policy
  swap := match policy with
    | .demandSwap => some []
    | .demandNoSwap => none
    | .eager => none
  inSwap := List.replicate numPages false

/-- Construction of an AddressSpace under a load policy (R216): demand-paged, no page is loaded (R219); eager, every page is, in
order (R218). -/
def State.constructSpace (s : State) (id : Nat) (img : ProgramImage) (numPages : Nat) (policy : LoadPolicy) : Result State :=
  match s.space id with
  | some _ => .refused (.spaceExists id)
  | none =>
    let t := { s with spaces := Spaces.insert s.spaces id (.fresh img numPages policy) }
    match policy with
    | .eager => t.loadPages id (List.range numPages)
    | .demandNoSwap => .next t
    | .demandSwap => .next t

/-- Flushes the TLB entries of a list one after the other. -/
def State.flushAll (s : State) : List (Fin 4) → Result State
  | [] => .next s
  | i :: is => Result.andThen (s.flushTlb i) fun t => t.flushAll is

/-- `SaveState()` of the current space (R223): in TLB mode every valid entry is folded back and invalidated. -/
def State.saveState (s : State) : Result State := if s.cfg.useTlb then s.flushAll tlbOrder else .next s

/-- Is any TLB entry valid. -/
def State.tlbHasValid (s : State) : Bool := tlbOrder.any fun i => s.tlb[i].valid

/-- `RestoreState()` on the space switched in (R224). In TLB mode the previous space's `SaveState` has left every entry invalid. -/
def State.restoreState (s : State) (id : Nat) : Result State :=
  match s.space id with
  | none => .refused (.unknownSpace id)
  | some S =>
    if s.cfg.useTlb then
      if s.tlbHasValid && s.currentSpace != some id then .refused .tlbNotFlushed
      else .next { s with currentSpace := some id }
    else .next { s with currentSpace := some id, activeTable := some id, pageTableSize := S.numPages }

/-- `RefillTLB(entry)` for the entry of page v of the current space, into the slot the host chose (R227): the displaced entry is
folded back, then all six fields are overwritten. The entry is read after the fold-back (notes/assumptions/9.md). -/
def State.refillTlb (s : State) (slot : Fin 4) (v : Nat) : Result State :=
  match s.currentSpace with
  | none => .refused .noCurrentSpace
  | some id =>
    Result.andThen (s.flushTlb slot) fun t =>
      match t.pte id v with
      | none => .refused (.pageOutOfRange v)
      | some e =>
        if e.valid then
          if (t.tlbFind v).isSome then .refused (.duplicateTlbEntry v)
          else .next (t.modifyEntry (.tlb slot) fun _ => e)
        else .refused (.invalidEntry v)

/-- What the host does after it handled an exception (60_exceptions.md R247). -/
inductive Continuation where
  | retry
  | terminate
deriving DecidableEq, Repr

/-- Makes page v of the space `id` resident (R225): from swap if its latest contents are there, else from the image. -/
def State.pageIn (s : State) (id v : Nat) : Result State :=
  match s.space id with
  | none => .refused (.unknownSpace id)
  | some S =>
    if S.inSwap[v]? = some true then
      Result.andThen (s.find id v) fun p =>
        Result.andThen (p.2.loadFromSwap id v p.1) fun t => .next (t.setPte id v (.loaded v p.1))
    else s.loadSegment id (v * s.cfg.pageSize)

/-- `OnPageFault(badVAddr)` (R225), with the refill slot the host chooses in TLB mode (R227). `PC` and `NEXT_PC` are unchanged; the
answer `retry` re-invokes the engine, `terminate` is for an address beyond the space. -/
def State.onPageFault (s : State) (badVAddr : Word) (slot : Fin 4) : Result (Continuation × State) :=
  match s.currentSpace with
  | none => .refused .noCurrentSpace
  | some id =>
    match s.space id with
    | none => .refused (.unknownSpace id)
    | some S =>
      let v := s.vpnOf badVAddr
      if S.numPages ≤ v then .next (.terminate, s)
      else
        Result.andThen (if (s.pte id v).any (·.valid) then .next s else s.pageIn id v) fun t =>
          Result.andThen (if t.cfg.useTlb then t.refillTlb slot v else .next t) fun u => .next (.retry, u)

end Sys2Proof.Machine
end

