-- ==== Sys2Proof/Machine/HostPort.lean ====
section
/-! DEFINITION. The host's interface to the machine (00_scope.md R5): the register port (10_state.md R36), the memory port
(20_memory.md R68, 60_exceptions.md R252), the translation state (20_memory.md R62), boot (70_reset_and_hazards.md R281 to R284),
the end of a program (60_exceptions.md R250), and all operations of the host gathered as data. The host acts only between steps or
inside an exception delivery (00_scope.md R4). -/
namespace Sys2Proof.Machine

/-- `ReadRegister(index)` (10_state.md R36, indices of R11). -/
def State.readRegister (s : State) (index : Nat) : Result Word :=
  if h : index < 32 then .next (s.getX ⟨index, h⟩)
  else
    match index with
    | 32 => .next s.hi
    | 33 => .next s.lo
    | 34 => .next s.pc
    | 35 => .next s.nextPc
    | 36 => .next s.prevPc
    | 37 => .next (BitVec.ofNat 32 s.load.val)
    | 38 => .next s.loadValue
    | 39 => .next s.badVAddr
    | _ => .refused (.badRegisterIndex index)

/-- `WriteRegister(index, value)` (10_state.md R36): nothing for index 0, a value above 31 for `LOAD` is refused. -/
def State.writeRegister (s : State) (index : Nat) (v : Word) : Result State :=
  if h : index < 32 then .next (s.setX ⟨index, h⟩ v)
  else
    match index with
    | 32 => .next { s with hi := v }
    | 33 => .next { s with lo := v }
    | 34 => .next { s with pc := v }
    | 35 => .next { s with nextPc := v }
    | 36 => .next { s with prevPc := v }
    | 37 => if hv : v.toNat < 32 then .next { s with load := ⟨v.toNat, hv⟩ } else .refused (.badLoadIndex v)
    | 38 => .next { s with loadValue := v }
    | 39 => .next { s with badVAddr := v }
    | _ => .refused (.badRegisterIndex index)

/-- The answer of a memory call of the host: the value, or failure after the exception it raised (20_memory.md R68,
60_exceptions.md R252). -/
def Access.answer {α : Type} (s : State) (va : Word) : Access α → Result (Option α × State)
  | .ok v t => .next (some v, { t with trap := none })
  | .exc e => .next (none, s.raise e va)
  | .refused r => .refused r

/-- The host's `ReadMem(virtualAddr, size)` (20_memory.md R53, R68). -/
def State.hostReadMem (s : State) (va : Word) (size : Nat) : Result (Option Word × State) :=
  match AccessSize.ofBytes size with
  | none => .refused (.badSize size)
  | some z => (s.memRead va z).answer s va

/-- The host's `WriteMem(virtualAddr, size, value)` (20_memory.md R54, R68). -/
def State.hostWriteMem (s : State) (va : Word) (size : Nat) (v : Word) : Result (Option Unit × State) :=
  match AccessSize.ofBytes size with
  | none => .refused (.badSize size)
  | some z => (s.memWrite va z v).answer s va

/-- The host's call of `Translate` alone, which delivers nothing (20_memory.md R44, 90_conflicts.md C6). -/
def State.hostTranslate (s : State) (va : Word) (size : Nat) (writing : Bool) : Result (Except ExcKind Nat × State) :=
  match AccessSize.ofBytes size with
  | none => .refused (.badSize size)
  | some z =>
    match s.translate va z writing with
    | .ok p t => .next (.ok p, t)
    | .exc e => .next (.error e, s)
    | .refused r => .refused r

/-- How many bytes PhysicalMemory has (10_state.md R26). -/
def State.physSize (s : State) : Nat := s.cfg.numPhysPages * s.cfg.pageSize

/-- The host's direct read of a physical byte (20_memory.md R68). -/
def State.readPhys (s : State) (p : Nat) : Result Byte :=
  if p < s.physSize then .next (Memory.read s.mem p) else .fault (.noPhysicalByte p)

/-- The host's direct write of a physical byte: no `use` or `dirty` bit is set (20_memory.md R68). -/
def State.writePhys (s : State) (p : Nat) (b : Byte) : Result State :=
  if p < s.physSize then .next { s with mem := Memory.write s.mem p b } else .fault (.noPhysicalByte p)

/-- The host's write of a TLB entry (20_memory.md R62). -/
def State.writeTlb (s : State) (i : Fin 4) (e : TranslationEntry) : State := s.modifyEntry (.tlb i) fun _ => e

/-- The host's write of a page-table entry (20_memory.md R62). -/
def State.writePte (s : State) (id vpn : Nat) (e : TranslationEntry) : Result State :=
  match s.pte id vpn with
  | none => .refused (.pageOutOfRange vpn)
  | some _ => .next (s.setPte id vpn e)

/-- The host's setting of the active page table and `pageTableSize` (20_memory.md R62). An identifier of no space of the registry is
accepted (notes/assumptions/25.md). -/
def State.setActiveTable (s : State) (id : Option Nat) (size : Nat) : State :=
  { s with activeTable := id, pageTableSize := size }

/-- Terminating the program (60_exceptions.md R250): its AddressSpace is destroyed; nothing else marks the end. -/
def State.terminate (s : State) : Result State :=
  match s.currentSpace with
  | none => .refused .noCurrentSpace
  | some id => s.destroySpace id

/-- The registers of a new program (70_reset_and_hazards.md R283, R284): all zero, `PC` = 0, `NEXT_PC` = 4, and `x[29]` a little below
the space's top. -/
def State.launchRegisters (s : State) (numPages : Nat) : State :=
  { s with
    x := (Vector.replicate 32 0).set 29 (BitVec.ofNat 32 (numPages * s.cfg.pageSize) - 16)
    hi := 0, lo := 0, pc := 0, nextPc := 4, prevPc := 0, load := 0, loadValue := 0, badVAddr := 0 }

/-- Boot of a program (70_reset_and_hazards.md R284 steps 2 to 4): build the space, set the registers, make the space current. -/
def State.launch (s : State) (id : Nat) (img : ProgramImage) (numPages : Nat) (policy : LoadPolicy) : Result State :=
  Result.andThen (s.constructSpace id img numPages policy) fun t => (t.launchRegisters numPages).restoreState id

/-- The operations of the host, as data: what may happen between two steps (60_exceptions.md R254, 92_eei_decisions.md D24). -/
inductive HostOp where
  | writeRegister (index : Nat) (v : Word)
  | readMem (va : Word) (size : Nat)
  | writeMem (va : Word) (size : Nat) (v : Word)
  | translate (va : Word) (size : Nat) (writing : Bool)
  | writePhys (p : Nat) (b : Byte)
  | writeTlb (i : Fin 4) (e : TranslationEntry)
  | writePte (id vpn : Nat) (e : TranslationEntry)
  | setActiveTable (id : Option Nat) (size : Nat)
  | find (id vpn : Nat)
  | constructSpace (id : Nat) (img : ProgramImage) (numPages : Nat) (policy : LoadPolicy)
  | destroySpace (id : Nat)
  | loadSegment (id va : Nat)
  | saveToSwap (id vpn : Nat)
  | loadFromSwap (id vpn frame : Nat)
  | saveState
  | restoreState (id : Nat)
  | onPageFault (badVAddr : Word) (slot : Fin 4)
  | refillTlb (slot : Fin 4) (vpn : Nat)
  | retry
  | continuePast
  | terminate
  | launch (id : Nat) (img : ProgramImage) (numPages : Nat) (policy : LoadPolicy)
deriving DecidableEq, Repr

/-- Forgets what an operation answered and keeps the state after it. -/
def Result.state {α : Type} (r : Result (α × State)) : Result State := r.andThen fun p => .next p.2

/-- What an operation of the host does to the state. -/
def hostStep (op : HostOp) (s : State) : Result State :=
  match op with
  | .writeRegister index v => s.writeRegister index v
  | .readMem va size => (s.hostReadMem va size).state
  | .writeMem va size v => (s.hostWriteMem va size v).state
  | .translate va size writing => (s.hostTranslate va size writing).state
  | .writePhys p b => s.writePhys p b
  | .writeTlb i e => .next (s.writeTlb i e)
  | .writePte id vpn e => s.writePte id vpn e
  | .setActiveTable id size => .next (s.setActiveTable id size)
  | .find id vpn => (s.find id vpn).state
  | .constructSpace id img numPages policy => s.constructSpace id img numPages policy
  | .destroySpace id => s.destroySpace id
  | .loadSegment id va => s.loadSegment id va
  | .saveToSwap id vpn => s.saveToSwap id vpn
  | .loadFromSwap id vpn frame => s.loadFromSwap id vpn frame
  | .saveState => s.saveState
  | .restoreState id => s.restoreState id
  | .onPageFault badVAddr slot => (s.onPageFault badVAddr slot).state
  | .refillTlb slot vpn => s.refillTlb slot vpn
  | .retry => .next s.retry
  | .continuePast => .next s.continuePast
  | .terminate => s.terminate
  | .launch id img numPages policy => s.launch id img numPages policy

/-- An identifier no space of the registry has. -/
def State.freshId (s : State) : Nat := s.spaces.foldl (fun n p => max n (p.1 + 1)) 0

/-- The entry that maps page v to frame f in a program placed by hand. -/
def codeEntry : TranslationEntry := .loaded 0 0

/-- A one-page space whose page 0 is frame 0, in which the word at address 0 is the next instruction (notes/assumptions/16.md). -/
def State.installCodePage (s : State) : State :=
  let id := s.freshId
  let space : AddressSpace := { AddressSpace.fresh ⟨[], ⟨0, 0, 0⟩, ⟨0, 0, 0⟩, ⟨0, 0, 0⟩⟩ 1 .eager with pageTable := [codeEntry] }
  { s with
    pc := 0
    nextPc := 4
    coremap := s.coremap.set 0 (some { owner := id, vpn := 0 })
    spaces := Spaces.insert s.spaces id space
    currentSpace := some id
    activeTable := if s.cfg.useTlb then s.activeTable else some id
    pageTableSize := if s.cfg.useTlb then s.pageTableSize else 1
    tlb := if s.cfg.useTlb then (Vector.replicate 4 TranslationEntry.empty).set 0 codeEntry else s.tlb }

/-- Stores an instruction word where the next step fetches: at the frame the fetch address translates to, or, when it translates to
none, in a code page placed for it (notes/assumptions/16.md). -/
def State.placeCode (s : State) (w : Word) : State :=
  match s.translate s.pc .word false with
  | .ok p _ => { s with mem := Memory.writeValue s.mem p w .word }
  | .exc _ => { s.installCodePage with mem := Memory.writeValue s.mem 0 w .word }
  | .refused _ => { s.installCodePage with mem := Memory.writeValue s.mem 0 w .word }

end Sys2Proof.Machine
end

