-- ==== Sys2Proof/Machine/Step.lean ====
section
/-! DEFINITION. One step of the engine (10_state.md R30), and how the host places an instruction word where the next step fetches
it. -/
namespace Sys2Proof.Machine

/-- `Step()` (10_state.md R30): fetch, decode, execute. A failing fetch raises with `PC` as the bad address (20_memory.md R56); a word
that is no instruction raises ILLEGAL_INSTR when it executes (45_system.md R192). -/
def step (s : State) : Host.Outcome State Fault Refusal :=
  match s.fetch with
  | .ok w t =>
    match decode w with
    | .ok i => exec i t
    | .error _ => execIllegal t
  | .exc e => .next (s.raise e s.pc)
  | .refused r => .refused r

/-- The state in which the very next step fetches and runs the instruction whose bits are `w`, every bit above `nbits` zero
(notes/assumptions/16.md). -/
def State.withFetchWord (s : State) (nbits w : Nat) : State := s.placeCode (BitVec.ofNat 32 (w % 2 ^ nbits))

end Sys2Proof.Machine
end

