-- ==== Sys2Proof/Safety.lean ====
section
/-! DEFINITION. The terms the statements use: what a step leaves unchanged, what it does to the registers, which accesses succeed, and
the invariant of the machine (10_state.md R29, 50_frame_allocator.md R202). -/
namespace Sys2Proof.Machine

/-- `HI` and `LO` are unchanged. -/
structure SameHiLo (s t : State) : Prop where
  hi : t.hi = s.hi
  lo : t.lo = s.lo

/-- Every byte of PhysicalMemory reads as before. -/
def SameMemory (s t : State) : Prop := ∀ a, Memory.read t.mem a = Memory.read s.mem a

/-- Every byte of PhysicalMemory outside the `n` bytes at `p` reads as before. -/
def SameMemoryOutside (p n : Nat) (s t : State) : Prop :=
  ∀ a, a < p ∨ p + n ≤ a → Memory.read t.mem a = Memory.read s.mem a

/-- The TLB and every AddressSpace, page tables and swap stores among them, are unchanged. -/
structure SameEntries (s t : State) : Prop where
  tlb : t.tlb = s.tlb
  spaces : t.spaces = s.spaces

/-- The state only the host changes: the active page table and its size, the current space, the coremap, the configuration. -/
structure SameHostState (s t : State) : Prop where
  activeTable : t.activeTable = s.activeTable
  pageTableSize : t.pageTableSize = s.pageTableSize
  currentSpace : t.currentSpace = s.currentSpace
  coremap : t.coremap = s.coremap
  lastVictim : t.lastVictim = s.lastVictim
  cfg : t.cfg = s.cfg

/-- An entry without its `use` and `dirty` bits: what a translation never changes. -/
def TranslationEntry.mapping (e : TranslationEntry) : TranslationEntry := { e with use := false, dirty := false }

/-- The AddressSpace without the `use` and `dirty` bits of its page table. -/
def AddressSpace.mapping (S : AddressSpace) : AddressSpace :=
  { S with pageTable := S.pageTable.map TranslationEntry.mapping }

/-- The TLB and every AddressSpace are unchanged but for `use` and `dirty` bits. -/
structure SameMappings (s t : State) : Prop where
  tlb : ∀ i : Fin 4, t.tlb[i].mapping = s.tlb[i].mapping
  spaces : ∀ id, (t.space id).map AddressSpace.mapping = (s.space id).map AddressSpace.mapping

/-- A step that completed (10_state.md R30 to R33): register r holds `direct r`, what the instruction left in it, unless the load that
was pending lands there (R32); the PCs have advanced to the staged `pcAfter`; the staged load is pending; `BAD_VADDR` is
unchanged; the result is Done. -/
structure Completes (s t : State) (direct : RegNum → Word) (pcAfter : Word) (stagedReg : RegNum) (stagedValue : Word) : Prop where
  regs : ∀ r, t.getX r = if r = 0 then 0 else if r = s.load then s.loadValue else direct r
  prevPc : t.prevPc = s.pc
  pc : t.pc = s.nextPc
  nextPc : t.nextPc = pcAfter
  load : t.load = stagedReg
  loadValue : t.loadValue = stagedValue
  badVAddr : t.badVAddr = s.badVAddr
  result : t.trap = none

/-- A step that completed, wrote `v` to the general register `rd` and nothing else (40_arithmetic_logic.md R100). -/
structure CompletesWriting (rd : RegNum) (v : Word) (s t : State) : Prop where
  step : Completes s t (fun r => if r = rd then v else s.getX r) (s.nextPc + 4) 0 0
  hiLo : SameHiLo s t
  memory : SameMemory s t
  entries : SameEntries s t
  hostState : SameHostState s t

/-- A step that completed, wrote `HI` and `LO` and nothing else (42_multiply_divide.md R140). -/
structure CompletesHiLo (hi lo : Word) (s t : State) : Prop where
  step : Completes s t s.getX (s.nextPc + 4) 0 0
  hi : t.hi = hi
  lo : t.lo = lo
  memory : SameMemory s t
  entries : SameEntries s t
  hostState : SameHostState s t

/-- A transfer of control that completed: `direct` is what it left in the registers, `pcAfter` what it staged
(44_branches_jumps.md R170). -/
structure CompletesJump (direct : RegNum → Word) (pcAfter : Word) (s t : State) : Prop where
  step : Completes s t direct pcAfter 0 0
  hiLo : SameHiLo s t
  memory : SameMemory s t
  entries : SameEntries s t
  hostState : SameHostState s t

/-- A load that completed: `v` is staged for `rt` (43_loads_stores.md R166); the translation went to the state `u`. -/
structure CompletesLoading (rt : RegNum) (v : Word) (u : State) (s t : State) : Prop where
  step : Completes s t s.getX (s.nextPc + 4) rt v
  hiLo : SameHiLo s t
  memory : SameMemory s t
  entries : SameEntries u t
  hostState : SameHostState s t

/-- A store that completed: byte k of `v` is at `p + k` for the `n` bytes stored, every other byte is as before; the translations
went to the state `u`. -/
structure CompletesStoring (p n : Nat) (v : Word) (u : State) (s t : State) : Prop where
  step : Completes s t s.getX (s.nextPc + 4) 0 0
  hiLo : SameHiLo s t
  stored : ∀ k, k < n → Memory.read t.mem (p + k) = byteOf v k
  memory : SameMemoryOutside p n s t
  entries : SameEntries u t
  hostState : SameHostState s t

/-- The entry a step's fetch goes through, when the fetch succeeds (20_memory.md R56). -/
def State.fetchedThrough (s : State) (r : EntryRef) : Prop :=
  ∃ p u e, s.translate s.pc .word false = .ok p u ∧ s.lookup (s.vpnOf s.pc) = .hit r e

/-- The entry the read half of a step's SWL or SWR goes through, when the read succeeds (43_loads_stores.md R160, R161). -/
def State.mergeReadThrough (s : State) (r : EntryRef) : Prop :=
  ∃ (p q : Nat) (u v : State) (i : Instr) (rt rs : RegNum) (imm : BitVec 16) (wa : Word) (e : TranslationEntry),
    s.translate s.pc .word false = .ok p u ∧ decode (Memory.readValue s.mem p .word) = .ok i ∧
    (i = .swl rt imm rs ∨ i = .swr rt imm rs) ∧ wa.toNat = (s.getX rs + imm.signExtend 32).toNat / 4 * 4 ∧
    s.translate wa .word false = .ok q v ∧ s.lookup (s.vpnOf wa) = .hit r e

/-- A step that raised `Trap(kind, a)` from the state `u` (60_exceptions.md R244, R245): `BAD_VADDR` is the address; the general
registers and the pending load are as before, or drained when EXC_DRAINS_LOAD; nothing else of `u` changed, the PCs included. -/
structure Raises (kind : ExcKind) (a : Word) (u t : State) : Prop where
  badVAddr : t.badVAddr = a
  result : t.trap = some { kind := kind, badVAddr := a }
  kept : u.cfg.excDrainsLoad = false → (∀ r, t.getX r = u.getX r) ∧ t.load = u.load ∧ t.loadValue = u.loadValue
  drained : u.cfg.excDrainsLoad = true →
    (∀ r, t.getX r = if r = 0 then 0 else if r = u.load then u.loadValue else u.getX r) ∧ t.load = 0 ∧ t.loadValue = 0
  pc : t.pc = u.pc
  nextPc : t.nextPc = u.nextPc
  prevPc : t.prevPc = u.prevPc
  hiLo : SameHiLo u t
  memory : SameMemory u t
  entries : SameEntries u t
  hostState : SameHostState u t

/-- The instructions that write `HI` or `LO` (10_state.md R14). -/
def writesHiLo : Instr → Bool
  | .mult _ _ | .multu _ _ | .div _ _ | .divu _ _ | .mthi _ | .mtlo _ => true
  | _ => false

/-- The instructions that read `HI` or `LO` (10_state.md R14). -/
def readsHiLo : Instr → Bool
  | .mfhi _ | .mflo _ => true
  | _ => false

/-- The instructions that store to memory (43_loads_stores.md). -/
def storesMemory : Instr → Bool
  | .sb _ _ _ | .sh _ _ _ | .sw _ _ _ | .swl _ _ _ | .swr _ _ _ => true
  | _ => false

/-- The instructions that access data memory (43_loads_stores.md). -/
def accessesMemory : Instr → Bool
  | .lb _ _ _ | .lbu _ _ _ | .lh _ _ _ | .lhu _ _ _ | .lw _ _ _ | .lwl _ _ _ | .lwr _ _ _ => true
  | .sb _ _ _ | .sh _ _ _ | .sw _ _ _ | .swl _ _ _ | .swr _ _ _ => true
  | _ => false

/-- An AddressSpace as the spec builds it: one entry and one swap flag per page, entry i for page i (10_state.md R23,
50_frame_allocator.md R216); its byte stores are canonical. -/
structure AddressSpace.Ok (S : AddressSpace) : Prop where
  entries : S.pageTable.length = S.numPages
  flags : S.inSwap.length = S.numPages
  index : ∀ (v : Nat) (e : TranslationEntry), S.pageTable[v]? = some e → e.virtualPage = v
  file : Memory.wf S.file
  swap : ∀ m, S.swap = some m → Memory.wf m

/-- The invariant of the machine: memory in canonical form and inside PhysicalMemory; register 0 never holds anything but 0; the
coremap has one place per frame; and the rules of 10_state.md R29 and 50_frame_allocator.md R202: every valid page-table
entry's frame exists and is owned by that (space, vpn) pair, a pair claims at most one frame, an owner has an entry for its page;
in TLB mode a valid TLB entry copies a valid entry of the current space and no two have one vpn. -/
structure State.Inv (s : State) : Prop where
  memory : Memory.wf s.mem
  memoryRange : ∀ c ∈ s.mem, c.1 < s.physSize
  zero : s.x[0] = 0
  frames : s.coremap.length = s.cfg.numPhysPages
  victim : s.lastVictim < s.cfg.numPhysPages
  rising : s.spaces.Pairwise fun p q => p.1 < q.1
  spaces : ∀ id S, s.space id = some S → S.Ok
  owned : ∀ id v e, s.pte id v = some e → e.valid = true →
    e.physicalPage < s.cfg.numPhysPages ∧ s.claim e.physicalPage = some { owner := id, vpn := v }
  oneFrame : ∀ f g c, s.claim f = some c → s.claim g = some c → f = g
  claimed : ∀ f c, s.claim f = some c → (s.pte c.owner c.vpn).isSome = true
  table : ∀ id, s.activeTable = some id → ∃ S, s.space id = some S ∧ s.pageTableSize = S.numPages
  tlbCopies : s.cfg.useTlb = true → ∀ i : Fin 4, s.tlb[i].valid = true →
    ∃ id e, s.currentSpace = some id ∧ s.pte id s.tlb[i].virtualPage = some e ∧ e.valid = true ∧
      e.physicalPage = s.tlb[i].physicalPage
  tlbDistinct : s.cfg.useTlb = true → ∀ i j : Fin 4, s.tlb[i].valid = true → s.tlb[j].valid = true →
    s.tlb[i].virtualPage = s.tlb[j].virtualPage → i = j

/-- The operations of the host that keep the rules of R202 by themselves: all but its direct writes of the translation state
(20_memory.md R62), whose use is the host's duty (10_state.md R29); a refill of the TLB where it is the active source
(50_frame_allocator.md R225); and a program image as the canonical byte store it is. -/
def HostOp.KeepsRules (useTlb : Bool) : HostOp → Prop
  | .writeTlb _ _ | .writePte _ _ _ | .setActiveTable _ _ => False
  | .refillTlb _ _ => useTlb = true
  | .constructSpace _ img _ _ | .launch _ img _ _ => Memory.wf img.file
  | _ => True

/-- Every word of the row decodes to the instruction `f` builds from the word's fields (30_encoding.md R82, R88). -/
def DecodesRow (mask pattern : Word) (f : Fields → Instr) : Prop :=
  ∀ w : Word, w &&& mask = pattern → decode w = .ok (f (fieldsOf w))

/-- An instruction with overflow trap (40_arithmetic_logic.md R101, R103, R111): it writes the wrapped value of an exact signed result
that fits in 32 bits, and raises OVERFLOW(0) on any other. -/
def WritesOrOverflows (rd : RegNum) (exact : Int) (s : State) (r : Result State) : Prop :=
  if -2 ^ 31 ≤ exact ∧ exact ≤ 2 ^ 31 - 1 then
    ∃ t, r = .next t ∧ CompletesWriting rd (BitVec.ofInt 32 exact) s t
  else ∃ t, r = .next t ∧ Raises .overflow 0 s t

/-- The operation completed and wrote `v` to `rd` only. -/
def Writes (rd : RegNum) (v : Word) (s : State) (r : Result State) : Prop := ∃ t, r = .next t ∧ CompletesWriting rd v s t

/-- The step completed as a transfer of control that left `direct` in the registers and staged `pcAfter`. -/
def Jumps (direct : RegNum → Word) (pcAfter : Word) (s : State) (r : Result State) : Prop :=
  ∃ t, r = .next t ∧ CompletesJump direct pcAfter s t

/-- The registers after a link write to `rd`; register 0 discards it (44_branches_jumps.md R177, 10_state.md R12). -/
def State.linked (s : State) (rd r : RegNum) : Word := if r = rd ∧ r ≠ 0 then s.nextPc + 4 else s.getX r

/-- Where a branch with displacement `imm` goes: `NEXT_PC + (sext_16(imm) << 2)` (44_branches_jumps.md R170). -/
def State.branchDest (s : State) (imm : BitVec 16) : Word := BitVec.ofInt 32 (s.nextPc.toNat + 4 * imm.toInt)

/-- Where a jump with target field `target` goes: bits 31:28 of `NEXT_PC + 4`, then the target, then 00 (44_branches_jumps.md R170). -/
def State.jumpDest (s : State) (target : BitVec 26) : Word :=
  BitVec.ofNat 32 ((s.nextPc + 4).toNat / 2 ^ 28 * 2 ^ 28 + 4 * target.toNat)

/-- Is a frame's translation entry unused and not dirty (50_frame_allocator.md R206). -/
def State.unusedClean (s : State) (f : Nat) : Bool :=
  match s.frameEntry f with
  | some (_, e) => !e.use && !e.dirty
  | none => false

/-- Is a frame's translation entry not dirty (50_frame_allocator.md R207). -/
def State.cleanFrame (s : State) (f : Nat) : Bool :=
  match s.frameEntry f with
  | some (_, e) => !e.dirty
  | none => false

/-- The frames in the order a scan examines them (50_frame_allocator.md R206). -/
def State.clockOrder (s : State) : List Nat := scanOrder s.scanStart s.cfg.numPhysPages

/-- The victim of the two-pass clock (50_frame_allocator.md R206, R207): the first frame of the scan that is unused and clean, else the
first that is clean, else the frame where the scan starts. -/
def State.clockVictim (s : State) : Nat :=
  match s.clockOrder.find? s.unusedClean with
  | some f => f
  | none =>
    match s.clockOrder.find? s.cleanFrame with
    | some f => f
    | none => s.scanStart

/-- Every frame is claimed (50_frame_allocator.md R204). -/
def State.full (s : State) : Prop := ∀ g, g < s.cfg.numPhysPages → s.claim g ≠ none

/-- The clock's victim can be evicted: when its page is dirty, it is resident and its owner has a swap store (50_frame_allocator.md R209,
U7). A clean victim needs no store. -/
def State.victimSavable (s : State) : Prop :=
  ∀ c r e S, s.claim s.clockVictim = some c → s.frameEntry s.clockVictim = some (r, e) → e.dirty = true → s.space c.owner = some S →
    e.valid = true ∧ S.swap ≠ none

/-- Translation can work: TLB mode, or the page table of an existing space is installed (70_reset_and_hazards.md R282;
notes/assumptions/25.md). -/
def State.translationReady (s : State) : Prop := s.cfg.useTlb = true ∨ s.activePageTable ≠ none

end Sys2Proof.Machine
end

