-- ==== Sys2Proof/Certificates/Slice0/Obligations.lean ====
section
/-! DEFINITION. The statements about the machine, from the numbered rules of the spec; OBLIGATIONS.json lists them. Hypotheses are on
the state and the operands alone; `Sys2Proof.Machine.exec i s` is the step after the fetch (10_state.md R30 steps 4 to 7). -/
open Sys2Proof Sys2Proof.Machine

/-! ## Decoding and the step -/

/-- Every well-formed instruction is read back from its word, and from its word's bytes in memory order. (It rests on the spec's own
choices D2 of 92_eei_decisions.md.) (It rests on the spec's own choices D2 of 92_eei_decisions.md.) -/
def Obligations.DecodeEncodeRoundTrip : Prop :=
  ∀ i : Instr, i.WellFormed →
    decode (encode i) = .ok i ∧ ∀ rest, decodeBytes (bytesOfWord (encode i) ++ rest) = .ok (i, rest)

/-- R88: whatever the bits an instruction does not use hold, the word is recognised as the same instruction with the same operands. (It
rests on the spec's own choices D2, D15 of 92_eei_decisions.md.) -/
def Obligations.IgnoredBitsDoNotMatter : Prop :=
  ∀ (i : Instr) (w : Word), i.WellFormed → w &&& usedBits i = encode i → decode w = .ok i

/-- R87: a decoded instruction is well formed and its word lies in its row of the opcode table; the words that decode to none are the
complement of the table's rows. (It rests on the spec's own choices D1, D2, D15, D16 of 92_eei_decisions.md.) -/
def Obligations.IllegalWordsAreTheTablesComplement : Prop :=
  (∀ (w : Word) (i : Instr), decode w = .ok i → i.WellFormed ∧ w &&& (tableRow i).1 = (tableRow i).2) ∧
  (∀ w : Word, (∃ e, decode w = .error e) ↔ ∀ row ∈ opcodeTable, w &&& row.1 ≠ row.2)

/-- One word of each family, written out from the spec's encodings, decodes to the instruction it stands for. (It rests on the spec's
own choices D2 of 92_eei_decisions.md.) (It rests on the spec's own choices D2 of 92_eei_decisions.md.) -/
def Obligations.SpecWordsDecode : Prop :=
  decode 0x00221820 = .ok (.add 3 1 2) ∧ decode 0x2022FFFF = .ok (.addi 2 1 0xFFFF) ∧
  decode 0x00021FC3 = .ok (.sra 3 2 31) ∧ decode 0x0022001A = .ok (.div 1 2) ∧
  decode 0x8C22FFFC = .ok (.lw 2 0xFFFC 1) ∧ decode 0xA8220001 = .ok (.swl 2 1 1) ∧
  decode 0x04310003 = .ok (.bgezal 1 3) ∧ decode 0x0BFFFFFF = .ok (.j 0x3FFFFFF) ∧
  decode 0x0080F809 = .ok (.jalr 31 4) ∧ decode 0x03FFFFCC = .ok .syscall ∧ decode 0x0000000D = .error .breakWord

/-- When the bytes at the fetch address decode to an instruction, the step is `exec` of it, at the state in which the fetch has set the
code page's `use` bit. -/
def Obligations.StepRunsDecodedInstruction : Prop :=
  ∀ (s u : State) (p : Nat) (i : Instr) (rest : List Byte), s.translate s.pc .word false = .ok p u →
    decodeBytes (Memory.readBytes s.mem p 4) = .ok (i, rest) → step s = exec i u

/-- R192: a fetched word that decodes to no instruction raises ILLEGAL_INSTR(0). (It rests on the spec's own choices D2, D6, D16 of
92_eei_decisions.md.) -/
def Obligations.IllegalWordRaises : Prop :=
  ∀ (s u : State) (p : Nat) (e : DecodeError), s.translate s.pc .word false = .ok p u →
    decodeBytes (Memory.readBytes s.mem p 4) = .error e → ∃ t, step s = .next t ∧ Raises .illegalInstr 0 u t

/-- R56: a failing fetch raises ADDRESS_ERROR, PAGE_FAULT or BUS_ERROR, never READ_ONLY, with `PC` as the bad address; a misaligned `PC` is an
ADDRESS_ERROR; a fetch from any valid page in an existing frame succeeds, sets the `use` bit of the page's entry and no `dirty` bit.
(A step with no page table installed fetches nothing: `StepAlwaysAnswers`.) -/
def Obligations.FetchOutcomes : Prop :=
  (∀ (s : State) (e : ExcKind), s.translationReady → s.translate s.pc .word false = .exc e →
    (e = .addressError ∨ e = .pageFault ∨ e = .busError) ∧ ∃ t, step s = .next t ∧ Raises e s.pc s t) ∧
  (∀ (s : State), s.translationReady → s.pc.toNat % 4 ≠ 0 → ∃ t, step s = .next t ∧ Raises .addressError s.pc s t) ∧
  (∀ (s : State) (r : EntryRef) (e : TranslationEntry), s.pc.toNat % 4 = 0 → s.lookup (s.pc.toNat / s.cfg.pageSize) = .hit r e →
    e.physicalPage < s.cfg.numPhysPages →
    ∃ u, s.translate s.pc .word false = .ok (e.physicalPage * s.cfg.pageSize + s.pc.toNat % s.cfg.pageSize) u ∧
      u.entryAt r = some { e with use := true } ∧ (∀ q, q ≠ r → u.entryAt q = s.entryAt q) ∧
      u = { s with tlb := u.tlb, spaces := u.spaces } ∧
      ∀ i, decode (wordOfBytes
          (Memory.read s.mem (e.physicalPage * s.cfg.pageSize + s.pc.toNat % s.cfg.pageSize))
          (Memory.read s.mem (e.physicalPage * s.cfg.pageSize + s.pc.toNat % s.cfg.pageSize + 1))
          (Memory.read s.mem (e.physicalPage * s.cfg.pageSize + s.pc.toNat % s.cfg.pageSize + 2))
          (Memory.read s.mem (e.physicalPage * s.cfg.pageSize + s.pc.toNat % s.cfg.pageSize + 3))) = .ok i →
        step s = exec i u)

/-! ## Arithmetic, logic, comparison, immediates -/

/-- R101, R103, R111: ADD, SUB and ADDI write the exact signed result when it fits in 32 bits and otherwise raise OVERFLOW(0), writing
nothing, whatever the destination. (It rests on the spec's own choices D2, D6, D8, D9, D11, D20 of 92_eei_decisions.md.) -/
def Obligations.OverflowTrapsOrWrites : Prop :=
  DecodesRow 0xFC00003F 0x00000020 (fun f => .add f.rd f.rs f.rt) ∧
  DecodesRow 0xFC00003F 0x00000022 (fun f => .sub f.rd f.rs f.rt) ∧
  DecodesRow 0xFC000000 0x20000000 (fun f => .addi f.rt f.rs f.imm) ∧
  ∀ (s : State) (rd rs rt : RegNum) (imm : BitVec 16),
    WritesOrOverflows rd ((s.getX rs).toInt + (s.getX rt).toInt) s (exec (.add rd rs rt) s) ∧
    WritesOrOverflows rd ((s.getX rs).toInt - (s.getX rt).toInt) s (exec (.sub rd rs rt) s) ∧
    WritesOrOverflows rt ((s.getX rs).toInt + imm.toInt) s (exec (.addi rt rs imm) s)

/-- R102, R104, R112: ADDU, SUBU and ADDIU write the result modulo 2^32 and never raise. (It rests on the spec's own choices D2, D8, D9,
D20 of 92_eei_decisions.md.) -/
def Obligations.WrappingArithmetic : Prop :=
  DecodesRow 0xFC00003F 0x00000021 (fun f => .addu f.rd f.rs f.rt) ∧
  DecodesRow 0xFC00003F 0x00000023 (fun f => .subu f.rd f.rs f.rt) ∧
  DecodesRow 0xFC000000 0x24000000 (fun f => .addiu f.rt f.rs f.imm) ∧
  ∀ (s : State) (rd rs rt : RegNum) (imm : BitVec 16),
    Writes rd (BitVec.ofInt 32 ((s.getX rs).toInt + (s.getX rt).toInt)) s (exec (.addu rd rs rt) s) ∧
    Writes rd (BitVec.ofInt 32 ((s.getX rs).toInt - (s.getX rt).toInt)) s (exec (.subu rd rs rt) s) ∧
    Writes rt (BitVec.ofInt 32 ((s.getX rs).toInt + imm.toInt)) s (exec (.addiu rt rs imm) s)

/-- R105 to R108: AND, OR, XOR, NOR. (It rests on the spec's own choices D2, D8, D9 of 92_eei_decisions.md.) -/
def Obligations.RegisterLogic : Prop :=
  DecodesRow 0xFC00003F 0x00000024 (fun f => .and f.rd f.rs f.rt) ∧
  DecodesRow 0xFC00003F 0x00000025 (fun f => .or f.rd f.rs f.rt) ∧
  DecodesRow 0xFC00003F 0x00000026 (fun f => .xor f.rd f.rs f.rt) ∧
  DecodesRow 0xFC00003F 0x00000027 (fun f => .nor f.rd f.rs f.rt) ∧
  ∀ (s : State) (rd rs rt : RegNum),
    Writes rd (s.getX rs &&& s.getX rt) s (exec (.and rd rs rt) s) ∧
    Writes rd (s.getX rs ||| s.getX rt) s (exec (.or rd rs rt) s) ∧
    Writes rd (s.getX rs ^^^ s.getX rt) s (exec (.xor rd rs rt) s) ∧
    Writes rd (~~~(s.getX rs ||| s.getX rt)) s (exec (.nor rd rs rt) s)

/-- R109, R110, R113, R114: SLT and SLTI compare the signed readings, SLTU and SLTIU the unsigned ones; the immediate is sign-extended
in both. (It rests on the spec's own choices D2, D8, D9, D20 of 92_eei_decisions.md.) -/
def Obligations.Comparisons : Prop :=
  DecodesRow 0xFC00003F 0x0000002A (fun f => .slt f.rd f.rs f.rt) ∧
  DecodesRow 0xFC00003F 0x0000002B (fun f => .sltu f.rd f.rs f.rt) ∧
  DecodesRow 0xFC000000 0x28000000 (fun f => .slti f.rt f.rs f.imm) ∧
  DecodesRow 0xFC000000 0x2C000000 (fun f => .sltiu f.rt f.rs f.imm) ∧
  ∀ (s : State) (rd rs rt : RegNum) (imm : BitVec 16),
    Writes rd (if (s.getX rs).toInt < (s.getX rt).toInt then 1 else 0) s (exec (.slt rd rs rt) s) ∧
    Writes rd (if (s.getX rs).toNat < (s.getX rt).toNat then 1 else 0) s (exec (.sltu rd rs rt) s) ∧
    Writes rt (if (s.getX rs).toInt < imm.toInt then 1 else 0) s (exec (.slti rt rs imm) s) ∧
    Writes rt (if (s.getX rs).toNat < (imm.signExtend 32).toNat then 1 else 0) s (exec (.sltiu rt rs imm) s)

/-- R115 to R118: ANDI, ORI, XORI with the zero-extended immediate; LUI with the immediate in the high half. (It rests on the spec's own
choices D2, D8, D9, D20 of 92_eei_decisions.md.) (It rests on the spec's own choices D2, D8, D9, D20 of 92_eei_decisions.md.) -/
def Obligations.ImmediateLogic : Prop :=
  DecodesRow 0xFC000000 0x30000000 (fun f => .andi f.rt f.rs f.imm) ∧
  DecodesRow 0xFC000000 0x34000000 (fun f => .ori f.rt f.rs f.imm) ∧
  DecodesRow 0xFC000000 0x38000000 (fun f => .xori f.rt f.rs f.imm) ∧
  DecodesRow 0xFC000000 0x3C000000 (fun f => .lui f.rt f.imm) ∧
  ∀ (s : State) (rs rt : RegNum) (imm : BitVec 16),
    Writes rt (s.getX rs &&& imm.setWidth 32) s (exec (.andi rt rs imm) s) ∧
    Writes rt (s.getX rs ||| imm.setWidth 32) s (exec (.ori rt rs imm) s) ∧
    Writes rt (s.getX rs ^^^ imm.setWidth 32) s (exec (.xori rt rs imm) s) ∧
    Writes rt (BitVec.ofNat 32 (imm.toNat * 2 ^ 16)) s (exec (.lui rt imm) s)

/-! ## Shifts, multiply and divide -/

/-- R131 to R133: SLL multiplies, SRL divides the unsigned reading, SRA the signed one, by 2^shamt, rounding down. (It rests on the
spec's own choices D2, D8, D9, D12 of 92_eei_decisions.md.) -/
def Obligations.ImmediateShifts : Prop :=
  DecodesRow 0xFC00003F 0x00000000 (fun f => .sll f.rd f.rt f.shamt) ∧
  DecodesRow 0xFC00003F 0x00000002 (fun f => .srl f.rd f.rt f.shamt) ∧
  DecodesRow 0xFC00003F 0x00000003 (fun f => .sra f.rd f.rt f.shamt) ∧
  ∀ (s : State) (rd rt : RegNum) (shamt : Nat),
    Writes rd (BitVec.ofNat 32 ((s.getX rt).toNat * 2 ^ shamt)) s (exec (.sll rd rt shamt) s) ∧
    Writes rd (BitVec.ofNat 32 ((s.getX rt).toNat / 2 ^ shamt)) s (exec (.srl rd rt shamt) s) ∧
    Writes rd (BitVec.ofInt 32 ((s.getX rt).toInt / 2 ^ shamt)) s (exec (.sra rd rt shamt) s)

/-- R134 to R136: SLLV, SRLV, SRAV shift by the low 5 bits of `x[rs]`. (It rests on the spec's own choices D2, D8, D9, D12 of
92_eei_decisions.md.) -/
def Obligations.VariableShifts : Prop :=
  DecodesRow 0xFC00003F 0x00000004 (fun f => .sllv f.rd f.rt f.rs) ∧
  DecodesRow 0xFC00003F 0x00000006 (fun f => .srlv f.rd f.rt f.rs) ∧
  DecodesRow 0xFC00003F 0x00000007 (fun f => .srav f.rd f.rt f.rs) ∧
  ∀ (s : State) (rd rs rt : RegNum),
    Writes rd (BitVec.ofNat 32 ((s.getX rt).toNat * 2 ^ ((s.getX rs).toNat % 32))) s (exec (.sllv rd rt rs) s) ∧
    Writes rd (BitVec.ofNat 32 ((s.getX rt).toNat / 2 ^ ((s.getX rs).toNat % 32))) s (exec (.srlv rd rt rs) s) ∧
    Writes rd (BitVec.ofInt 32 ((s.getX rt).toInt / 2 ^ ((s.getX rs).toNat % 32))) s (exec (.srav rd rt rs) s)

/-- R141, R142: the pair `HI`, `LO` after MULT, MULTU is the exact 64-bit product of the signed, unsigned readings. (It rests on the
spec's own choices D2, D8, D9, D38 of 92_eei_decisions.md.) -/
def Obligations.ProductsAreExact : Prop :=
  DecodesRow 0xFC00003F 0x00000018 (fun f => .mult f.rs f.rt) ∧
  DecodesRow 0xFC00003F 0x00000019 (fun f => .multu f.rs f.rt) ∧
  ∀ (s : State) (rs rt : RegNum),
    (∃ t hi lo, exec (.mult rs rt) s = .next t ∧ CompletesHiLo hi lo s t ∧
      2 ^ 32 * hi.toInt + lo.toNat = (s.getX rs).toInt * (s.getX rt).toInt) ∧
    (∃ t hi lo, exec (.multu rs rt) s = .next t ∧ CompletesHiLo hi lo s t ∧
      2 ^ 32 * hi.toNat + lo.toNat = (s.getX rs).toNat * (s.getX rt).toNat)

/-- R143: a zero divisor writes zeros; otherwise `LO` is the quotient truncated toward zero and `HI` the remainder with the dividend's sign;
the one quotient that does not fit is what the parameter `DIV_OVF` says: refused (the spec's own value), a named pair, or a pair that
nothing constrains, which is the model's own value of the parameter (notes/assumptions/3.md). (It rests on the spec's own choices D2, D8,
D9, D13 of 92_eei_decisions.md.) -/
def Obligations.SignedDivision : Prop :=
  DecodesRow 0xFC00003F 0x0000001A (fun f => .div f.rs f.rt) ∧
  ∀ (s : State) (rs rt : RegNum),
    (s.getX rt = 0 → ∃ t, exec (.div rs rt) s = .next t ∧ CompletesHiLo 0 0 s t) ∧
    (s.getX rt ≠ 0 → ¬ (s.getX rs = 0x80000000 ∧ s.getX rt = 0xFFFFFFFF) →
      ∃ t hi lo, exec (.div rs rt) s = .next t ∧ CompletesHiLo hi lo s t ∧
        (s.getX rs).toInt = (s.getX rt).toInt * lo.toInt + hi.toInt ∧
        hi.toInt.natAbs < (s.getX rt).toInt.natAbs ∧
        (hi.toInt = 0 ∨ hi.toInt.sign = (s.getX rs).toInt.sign)) ∧
    (s.getX rs = 0x80000000 → s.getX rt = 0xFFFFFFFF →
      (s.cfg.divOvf = .refuse → exec (.div rs rt) s = .refused .divOverflow) ∧
      (∀ hi lo, s.cfg.divOvf = .pair hi lo → ∃ t, exec (.div rs rt) s = .next t ∧ CompletesHiLo hi lo s t) ∧
      (s.cfg.divOvf = .free → ∃ t hi lo, exec (.div rs rt) s = .next t ∧ CompletesHiLo hi lo s t))

/-- R144: DIVU writes the unsigned quotient and remainder, zeros for a zero divisor, and never raises. (It rests on the spec's own
choices D2, D8, D9 of 92_eei_decisions.md.) (It rests on the spec's own choices D2, D8, D9 of 92_eei_decisions.md.) -/
def Obligations.UnsignedDivision : Prop :=
  DecodesRow 0xFC00003F 0x0000001B (fun f => .divu f.rs f.rt) ∧
  ∀ (s : State) (rs rt : RegNum),
    (s.getX rt = 0 → ∃ t, exec (.divu rs rt) s = .next t ∧ CompletesHiLo 0 0 s t) ∧
    (s.getX rt ≠ 0 → ∃ t hi lo, exec (.divu rs rt) s = .next t ∧ CompletesHiLo hi lo s t ∧
      (s.getX rs).toNat = (s.getX rt).toNat * lo.toNat + hi.toNat ∧ hi.toNat < (s.getX rt).toNat)

/-- R145 to R148: the moves from and to `HI` and `LO`. (It rests on the spec's own choices D2, D8, D9 of 92_eei_decisions.md.) -/
def Obligations.HiLoMoves : Prop :=
  DecodesRow 0xFC00003F 0x00000010 (fun f => .mfhi f.rd) ∧ DecodesRow 0xFC00003F 0x00000012 (fun f => .mflo f.rd) ∧
  DecodesRow 0xFC00003F 0x00000011 (fun f => .mthi f.rs) ∧ DecodesRow 0xFC00003F 0x00000013 (fun f => .mtlo f.rs) ∧
  ∀ (s : State) (rd rs : RegNum),
    Writes rd s.hi s (exec (.mfhi rd) s) ∧ Writes rd s.lo s (exec (.mflo rd) s) ∧
    (∃ t, exec (.mthi rs) s = .next t ∧ CompletesHiLo (s.getX rs) s.lo s t) ∧
    (∃ t, exec (.mtlo rs) s = .next t ∧ CompletesHiLo s.hi (s.getX rs) s t)

/-! ## Loads and stores -/

/-- R151, R152, R153, R157: LB and LBU stage the addressed byte, LH and LHU the addressed little-endian halfword, sign-extended and
zero-extended; an odd halfword address raises ADDRESS_ERROR with that address. (It rests on the spec's own choices D2, D8, D9, D20 of
92_eei_decisions.md.) -/
def Obligations.ByteAndHalfwordLoads : Prop :=
  DecodesRow 0xFC000000 0x80000000 (fun f => .lb f.rt f.imm f.rs) ∧
  DecodesRow 0xFC000000 0x90000000 (fun f => .lbu f.rt f.imm f.rs) ∧
  DecodesRow 0xFC000000 0x84000000 (fun f => .lh f.rt f.imm f.rs) ∧
  DecodesRow 0xFC000000 0x94000000 (fun f => .lhu f.rt f.imm f.rs) ∧
  (∀ (s u : State) (rt rs : RegNum) (imm : BitVec 16) (p : Nat),
    s.translate (s.getX rs + imm.signExtend 32) .byte false = .ok p u →
    (∃ t, exec (.lb rt imm rs) s = .next t ∧ CompletesLoading rt ((Memory.read s.mem p).signExtend 32) u s t) ∧
    (∃ t, exec (.lbu rt imm rs) s = .next t ∧ CompletesLoading rt ((Memory.read s.mem p).setWidth 32) u s t)) ∧
  (∀ (s u : State) (rt rs : RegNum) (imm : BitVec 16) (p : Nat) (h : BitVec 16),
    s.translate (s.getX rs + imm.signExtend 32) .half false = .ok p u →
    h.toNat = (Memory.read s.mem p).toNat + 256 * (Memory.read s.mem (p + 1)).toNat →
    (∃ t, exec (.lh rt imm rs) s = .next t ∧ CompletesLoading rt (h.signExtend 32) u s t) ∧
    (∃ t, exec (.lhu rt imm rs) s = .next t ∧ CompletesLoading rt (h.setWidth 32) u s t)) ∧
  (∀ (s : State) (rt rs : RegNum) (imm : BitVec 16), (s.getX rs + imm.signExtend 32).toNat % 2 ≠ 0 →
    (∃ t, exec (.lh rt imm rs) s = .next t ∧ Raises .addressError (s.getX rs + imm.signExtend 32) s t) ∧
    (∃ t, exec (.lhu rt imm rs) s = .next t ∧ Raises .addressError (s.getX rs + imm.signExtend 32) s t))

/-- R158: LW stages the addressed little-endian word; an address that is not a multiple of 4 raises ADDRESS_ERROR. (It rests on the
spec's own choices D2, D8, D9, D20 of 92_eei_decisions.md.) -/
def Obligations.WordLoad : Prop :=
  DecodesRow 0xFC000000 0x8C000000 (fun f => .lw f.rt f.imm f.rs) ∧
  (∀ (s u : State) (rt rs : RegNum) (imm : BitVec 16) (p : Nat) (w : Word),
    s.translate (s.getX rs + imm.signExtend 32) .word false = .ok p u →
    w.toNat = (Memory.read s.mem p).toNat + 2 ^ 8 * (Memory.read s.mem (p + 1)).toNat +
      2 ^ 16 * (Memory.read s.mem (p + 2)).toNat + 2 ^ 24 * (Memory.read s.mem (p + 3)).toNat →
    ∃ t, exec (.lw rt imm rs) s = .next t ∧ CompletesLoading rt w u s t) ∧
  (∀ (s : State) (rt rs : RegNum) (imm : BitVec 16), (s.getX rs + imm.signExtend 32).toNat % 4 ≠ 0 →
    ∃ t, exec (.lw rt imm rs) s = .next t ∧ Raises .addressError (s.getX rs + imm.signExtend 32) s t)

/-- R155, R156: LWL and LWR read the enclosing aligned word and stage its merge with the register's old value, which is the pending
load's value when that load targets the register. (It rests on the spec's own choices D2, D8, D9, D14, D20 of 92_eei_decisions.md.) -/
def Obligations.MergingLoads : Prop :=
  DecodesRow 0xFC000000 0x88000000 (fun f => .lwl f.rt f.imm f.rs) ∧
  DecodesRow 0xFC000000 0x98000000 (fun f => .lwr f.rt f.imm f.rs) ∧
  ∀ (s u : State) (rt rs : RegNum) (imm : BitVec 16) (p : Nat) (ea wa w base : Word),
    ea = s.getX rs + imm.signExtend 32 → wa.toNat = ea.toNat / 4 * 4 →
    s.translate wa .word false = .ok p u → w = Memory.readValue s.mem p .word →
    base = (if s.load = rt then s.loadValue else s.getX rt) →
    (∃ t, exec (.lwl rt imm rs) s = .next t ∧
      CompletesLoading rt (lwlMerge s.cfg.mergeTable (BitVec.ofNat 2 (ea.toNat % 4)) base w) u s t) ∧
    (∃ t, exec (.lwr rt imm rs) s = .next t ∧
      CompletesLoading rt (lwrMerge s.cfg.mergeTable (BitVec.ofNat 2 (ea.toNat % 4)) base w) u s t)

/-- R164, R165: every row of the four tables byte by byte, byte 0 the lowest, for ARCH_LE; row b of IMPL is row 3 - b of ARCH_LE in all four;
under ARCH_LE `lwl rt, 3(a)` then `lwr rt, 0(a)` assemble the four bytes at a to a + 3 as a little-endian word for every a, whatever the
register held, and `swl`, `swr` store them: of the bytes of the (at most two) aligned words they rewrite, exactly those at a to a + 3
change, to the register's bytes. (It rests on the spec's own choices D14 of 92_eei_decisions.md.) -/
def Obligations.MergeTablesMirrorAndAssemble : Prop :=
  (∀ (b : BitVec 2) (base w v : Word) (k : Nat), k < 4 →
    byteOf (lwlMerge .archLE b base w) k = (if 3 ≤ k + b.toNat then byteOf w (k + b.toNat - 3) else byteOf base k) ∧
    byteOf (lwrMerge .archLE b base w) k = (if k + b.toNat < 4 then byteOf w (k + b.toNat) else byteOf base k) ∧
    byteOf (swlMerge .archLE b w v) k = (if k ≤ b.toNat then byteOf v (k + 3 - b.toNat) else byteOf w k) ∧
    byteOf (swrMerge .archLE b w v) k = (if b.toNat ≤ k then byteOf v (k - b.toNat) else byteOf w k)) ∧
  (∀ (b : BitVec 2) (base w v : Word),
    lwlMerge .impl b base w = lwlMerge .archLE (3 - b) base w ∧ lwrMerge .impl b base w = lwrMerge .archLE (3 - b) base w ∧
    swlMerge .impl b w v = swlMerge .archLE (3 - b) w v ∧ swrMerge .impl b w v = swrMerge .archLE (3 - b) w v) ∧
  (∀ (m : List Host.Cell) (a : Nat) (base : Word),
    lwrMerge .archLE (BitVec.ofNat 2 a) (lwlMerge .archLE (BitVec.ofNat 2 (a + 3)) base
        (Memory.readValue m ((a + 3) / 4 * 4) .word)) (Memory.readValue m (a / 4 * 4) .word) =
      wordOfBytes (Memory.read m a) (Memory.read m (a + 1)) (Memory.read m (a + 2)) (Memory.read m (a + 3))) ∧
  (∀ (m m1 m2 : List Host.Cell) (a : Nat) (v : Word), Memory.wf m →
    m1 = Memory.writeValue m ((a + 3) / 4 * 4)
      (swlMerge .archLE (BitVec.ofNat 2 (a + 3)) (Memory.readValue m ((a + 3) / 4 * 4) .word) v) .word →
    m2 = Memory.writeValue m1 (a / 4 * 4)
      (swrMerge .archLE (BitVec.ofNat 2 a) (Memory.readValue m1 (a / 4 * 4) .word) v) .word →
    ∀ c, Memory.read m2 c = if a ≤ c ∧ c < a + 4 then byteOf v (c - a) else Memory.read m c)

/-- R159, R162, R163: SB, SH, SW store the low 1, 2, 4 bytes of `x[rt]`, little-endian, and no other byte changes. (It rests on the
spec's own choices D2, D8, D9, D20, D21 of 92_eei_decisions.md.) -/
def Obligations.PlainStores : Prop :=
  DecodesRow 0xFC000000 0xA0000000 (fun f => .sb f.rt f.imm f.rs) ∧
  DecodesRow 0xFC000000 0xA4000000 (fun f => .sh f.rt f.imm f.rs) ∧
  DecodesRow 0xFC000000 0xAC000000 (fun f => .sw f.rt f.imm f.rs) ∧
  (∀ (s u : State) (rt rs : RegNum) (imm : BitVec 16) (p : Nat), Memory.wf s.mem →
    (s.translate (s.getX rs + imm.signExtend 32) .byte true = .ok p u →
      ∃ t, exec (.sb rt imm rs) s = .next t ∧ CompletesStoring p 1 (s.getX rt) u s t) ∧
    (s.translate (s.getX rs + imm.signExtend 32) .half true = .ok p u →
      ∃ t, exec (.sh rt imm rs) s = .next t ∧ CompletesStoring p 2 (s.getX rt) u s t) ∧
    (s.translate (s.getX rs + imm.signExtend 32) .word true = .ok p u →
      ∃ t, exec (.sw rt imm rs) s = .next t ∧ CompletesStoring p 4 (s.getX rt) u s t)) ∧
  (∀ (s : State) (rt rs : RegNum) (imm : BitVec 16),
    ((s.getX rs + imm.signExtend 32).toNat % 2 ≠ 0 →
      ∃ t, exec (.sh rt imm rs) s = .next t ∧ Raises .addressError (s.getX rs + imm.signExtend 32) s t) ∧
    ((s.getX rs + imm.signExtend 32).toNat % 4 ≠ 0 →
      ∃ t, exec (.sw rt imm rs) s = .next t ∧ Raises .addressError (s.getX rs + imm.signExtend 32) s t))

/-- R160, R161: SWL and SWR read the enclosing aligned word, then write the whole merged word; when the write fails after the read, the
read's `use` bit stays, memory is unchanged and the write's exception is raised with the aligned address. (It rests on the spec's own
choices D2, D8, D9, D14, D20, D30 of 92_eei_decisions.md.) (It rests on the spec's own choices D2, D8, D9, D14, D20, D30 of
92_eei_decisions.md.) -/
def Obligations.MergingStores : Prop :=
  DecodesRow 0xFC000000 0xA8000000 (fun f => .swl f.rt f.imm f.rs) ∧
  DecodesRow 0xFC000000 0xB8000000 (fun f => .swr f.rt f.imm f.rs) ∧
  ∀ (s u : State) (rt rs : RegNum) (imm : BitVec 16) (p : Nat) (ea wa w : Word), Memory.wf s.mem →
    ea = s.getX rs + imm.signExtend 32 → wa.toNat = ea.toNat / 4 * 4 →
    s.translate wa .word false = .ok p u → w = Memory.readValue s.mem p .word →
    (∀ v q, u.translate wa .word true = .ok q v → q = p ∧
      (∃ t, exec (.swl rt imm rs) s = .next t ∧
        CompletesStoring p 4 (swlMerge s.cfg.mergeTable (BitVec.ofNat 2 (ea.toNat % 4)) w (s.getX rt)) v s t) ∧
      (∃ t, exec (.swr rt imm rs) s = .next t ∧
        CompletesStoring p 4 (swrMerge s.cfg.mergeTable (BitVec.ofNat 2 (ea.toNat % 4)) w (s.getX rt)) v s t)) ∧
    (∀ e, u.translate wa .word true = .exc e → e = .readOnly ∧
      (∃ t, exec (.swl rt imm rs) s = .next t ∧ Raises .readOnly wa u t) ∧
      (∃ t, exec (.swr rt imm rs) s = .next t ∧ Raises .readOnly wa u t))

/-- R55: a failing access raises the exception `Translate` returned, with the virtual address of the access: `PC` for the fetch, the
effective address for a load or store, that address aligned down for LWL, LWR, SWL, SWR (the write after the read included), the
address the host gave for a memory call of the host. The addresses rest on the spec's own choices D20 (the sign-extended offset, R150),
D14 (the aligned-down access, R154) and D30 (the write after the read, R160) of 92_eei_decisions.md; the failing answer of the host's call
rests on D37 and on notes/assumptions/20.md. -/
def Obligations.FailingAccessRaises : Prop :=
  (∀ (s : State) (e : ExcKind), s.translationReady → s.translate s.pc .word false = .exc e →
    ∃ t, step s = .next t ∧ Raises e s.pc s t) ∧
  (∀ (s : State) (rt rs : RegNum) (imm : BitVec 16) (e : ExcKind) (ea wa : Word), ea = s.getX rs + imm.signExtend 32 →
    wa.toNat = ea.toNat / 4 * 4 →
    (s.translate ea .byte false = .exc e → ∀ i ∈ [Instr.lb rt imm rs, .lbu rt imm rs],
      ∃ t, exec i s = .next t ∧ Raises e ea s t) ∧
    (s.translate ea .half false = .exc e → ∀ i ∈ [Instr.lh rt imm rs, .lhu rt imm rs],
      ∃ t, exec i s = .next t ∧ Raises e ea s t) ∧
    (s.translate ea .word false = .exc e → ∃ t, exec (.lw rt imm rs) s = .next t ∧ Raises e ea s t) ∧
    (s.translate wa .word false = .exc e →
      ∀ i ∈ [Instr.lwl rt imm rs, .lwr rt imm rs, .swl rt imm rs, .swr rt imm rs],
        ∃ t, exec i s = .next t ∧ Raises e wa s t) ∧
    (s.translate ea .byte true = .exc e → ∃ t, exec (.sb rt imm rs) s = .next t ∧ Raises e ea s t) ∧
    (s.translate ea .half true = .exc e → ∃ t, exec (.sh rt imm rs) s = .next t ∧ Raises e ea s t) ∧
    (s.translate ea .word true = .exc e → ∃ t, exec (.sw rt imm rs) s = .next t ∧ Raises e ea s t) ∧
    (∀ p u, s.translate wa .word false = .ok p u → u.translate wa .word true = .exc e →
      ∀ i ∈ [Instr.swl rt imm rs, .swr rt imm rs], ∃ t, exec i s = .next t ∧ Raises e wa u t)) ∧
  (∀ (s : State) (va v : Word) (size : AccessSize) (e : ExcKind),
    (s.translate va size false = .exc e → ∃ t, s.hostReadMem va size.bytes = .next (none, t) ∧ Raises e va s t) ∧
    (s.translate va size true = .exc e → ∃ t, s.hostWriteMem va size.bytes v = .next (none, t) ∧ Raises e va s t))

/-! ## Branches, jumps, system call -/

/-- R171 to R176: BEQ and BNE compare two registers; BLEZ, BGTZ, BLTZ and BGEZ test the signed reading against zero. (It rests on the
spec's own choices D2, D8, D9, D20 of 92_eei_decisions.md.) -/
def Obligations.ConditionalBranches : Prop :=
  DecodesRow 0xFC000000 0x10000000 (fun f => .beq f.rs f.rt f.imm) ∧
  DecodesRow 0xFC000000 0x14000000 (fun f => .bne f.rs f.rt f.imm) ∧
  DecodesRow 0xFC000000 0x18000000 (fun f => .blez f.rs f.imm) ∧
  DecodesRow 0xFC000000 0x1C000000 (fun f => .bgtz f.rs f.imm) ∧
  DecodesRow 0xFC1F0000 0x04000000 (fun f => .bltz f.rs f.imm) ∧
  DecodesRow 0xFC1F0000 0x04010000 (fun f => .bgez f.rs f.imm) ∧
  ∀ (s : State) (rs rt : RegNum) (imm : BitVec 16),
    Jumps s.getX (if s.getX rs = s.getX rt then s.branchDest imm else s.nextPc + 4) s (exec (.beq rs rt imm) s) ∧
    Jumps s.getX (if s.getX rs = s.getX rt then s.nextPc + 4 else s.branchDest imm) s (exec (.bne rs rt imm) s) ∧
    Jumps s.getX (if (s.getX rs).toInt ≤ 0 then s.branchDest imm else s.nextPc + 4) s (exec (.blez rs imm) s) ∧
    Jumps s.getX (if 0 < (s.getX rs).toInt then s.branchDest imm else s.nextPc + 4) s (exec (.bgtz rs imm) s) ∧
    Jumps s.getX (if (s.getX rs).toInt < 0 then s.branchDest imm else s.nextPc + 4) s (exec (.bltz rs imm) s) ∧
    Jumps s.getX (if 0 ≤ (s.getX rs).toInt then s.branchDest imm else s.nextPc + 4) s (exec (.bgez rs imm) s)

/-- R178, R179 with R177: BLTZAL and BGEZAL link through register 31, taken or not, and test the source after the link write. (It rests
on the spec's own choices D2, D8, D9, D10, D20 of 92_eei_decisions.md.) -/
def Obligations.LinkingBranches : Prop :=
  DecodesRow 0xFC1F0000 0x04100000 (fun f => .bltzal f.rs f.imm) ∧
  DecodesRow 0xFC1F0000 0x04110000 (fun f => .bgezal f.rs f.imm) ∧
  ∀ (s : State) (rs : RegNum) (imm : BitVec 16),
    Jumps (s.linked 31) (if (s.linked 31 rs).toInt < 0 then s.branchDest imm else s.nextPc + 4) s (exec (.bltzal rs imm) s) ∧
    Jumps (s.linked 31) (if 0 ≤ (s.linked 31 rs).toInt then s.branchDest imm else s.nextPc + 4) s (exec (.bgezal rs imm) s)

/-- R180, R181: J and JAL. (It rests on the spec's own choices D2, D8, D9 of 92_eei_decisions.md.) -/
def Obligations.RegionJumps : Prop :=
  DecodesRow 0xFC000000 0x08000000 (fun f => .j f.target) ∧ DecodesRow 0xFC000000 0x0C000000 (fun f => .jal f.target) ∧
  ∀ (s : State) (target : BitVec 26),
    Jumps s.getX (s.jumpDest target) s (exec (.j target) s) ∧ Jumps (s.linked 31) (s.jumpDest target) s (exec (.jal target) s)

/-- R182, R183 with R177: JR and JALR; JALR reads its source after the link write. (It rests on the spec's own choices D2, D8, D9, D10
of 92_eei_decisions.md.) -/
def Obligations.RegisterJumps : Prop :=
  DecodesRow 0xFC00003F 0x00000008 (fun f => .jr f.rs) ∧ DecodesRow 0xFC00003F 0x00000009 (fun f => .jalr f.rd f.rs) ∧
  ∀ (s : State) (rd rs : RegNum),
    Jumps s.getX (s.getX rs) s (exec (.jr rs) s) ∧ Jumps (s.linked rd) (s.linked rd rs) s (exec (.jalr rd rs) s)

/-- R190: SYSCALL, in every state, raises SYSCALL(0). (It rests on the spec's own choices D2, D6 of 92_eei_decisions.md.) -/
def Obligations.SyscallRaises : Prop :=
  DecodesRow 0xFC00003F 0x0000000C (fun _ => .syscall) ∧
  ∀ s : State, ∃ t, exec .syscall s = .next t ∧ Raises .syscall 0 s t

/-! ## The whole machine -/

/-- R32, R33: a step that completes, whatever it ran, moves `PC` to `PREV_PC` and `NEXT_PC` to `PC`, so that the instruction at
`NEXT_PC`, the delay slot, executes next; and the load pending before it lands at its end, over anything the step wrote to that
register, a load to register 0 excepted. (It rests on the spec's own choices D8, D9 of 92_eei_decisions.md.) -/
def Obligations.CompletedStepsAdvanceAndCommit : Prop :=
  ∀ s t : State, step s = .next t → t.trap = none →
    t.prevPc = s.pc ∧ t.pc = s.nextPc ∧ t.getX s.load = (if s.load = 0 then 0 else s.loadValue)

/-- R17, R19: `PREV_PC` holds the address of the instruction executed by the last step that completed; `BAD_VADDR` is written exactly when an
exception is raised, with its address; no step reads either. -/
def Obligations.PrevPcAndBadVAddr : Prop :=
  ∀ s t : State, step s = .next t →
    (t.trap = none → t.prevPc = s.pc ∧ t.badVAddr = s.badVAddr) ∧
    (∀ x, t.trap = some x → t.prevPc = s.prevPc ∧ t.badVAddr = x.badVAddr) ∧
    ∀ p b : Word, ∃ u, step { s with prevPc := p, badVAddr := b } = .next u ∧
      { u with prevPc := t.prevPc, badVAddr := t.badVAddr } = t

/-- R34, R244, R246: a step that raises leaves `HI`, `LO`, the three PCs and memory as they were, the general registers and the pending load as
they were or drained; of the translation state it sets the `use` bits of the entries that an earlier successful read of the same step went
through, the fetch and the read half of SWL and SWR, and changes nothing else. (The read half rests on the spec's own choices D14, the
aligned-down access of R154, D20, the sign-extended offset of R150, and D30, the read first of R160, of 92_eei_decisions.md.) -/
def Obligations.ExceptionsArePrecise : Prop :=
  ∀ (s t : State) (x : Trap), step s = .next t → t.trap = some x →
    ∃ u, u = { s with tlb := u.tlb, spaces := u.spaces } ∧ SameMappings s u ∧ Raises x.kind x.badVAddr u t ∧
      ∀ r e, s.entryAt r = some e →
        ((s.fetchedThrough r ∨ s.mergeReadThrough r) → u.entryAt r = some { e with use := true }) ∧
        (¬ (s.fetchedThrough r ∨ s.mergeReadThrough r) → u.entryAt r = some e)

/-- R242, R243: which instructions raise which kinds in Execute, and the bad address 0 of the kinds that are not about memory. (It rests
on the spec's own choices D6, D19 of 92_eei_decisions.md.) -/
def Obligations.ExecuteRaisesOnlyItsKinds : Prop :=
  ∀ (i : Instr) (s t : State) (x : Trap), exec i s = .next t → t.trap = some x →
    (x = ⟨.overflow, 0⟩ ∧ ∃ a b c, i = .add a b c ∨ i = .sub a b c ∨ ∃ imm, i = .addi a b imm) ∨
    (x = ⟨.syscall, 0⟩ ∧ i = .syscall) ∨
    (accessesMemory i = true ∧ (x.kind = .addressError ∨ x.kind = .pageFault ∨ x.kind = .busError)) ∨
    (storesMemory i = true ∧ x.kind = .readOnly)

/-- R14: only MULT, MULTU, DIV, DIVU, MTHI and MTLO change `HI` or `LO`; no instruction but MFHI and MFLO reads them: whatever they hold, the
other instructions do the same to everything else, and MULT, MULTU, DIV and DIVU write the same pair. -/
def Obligations.HiLoAreTouchedByTheirInstructionsOnly : Prop :=
  (∀ (i : Instr) (s t : State), writesHiLo i = false → exec i s = .next t → SameHiLo s t) ∧
  (∀ (i : Instr) (s t : State) (hi lo : Word), readsHiLo i = false → exec i s = .next t →
    ∃ u, exec i { s with hi := hi, lo := lo } = .next u ∧ { u with hi := t.hi, lo := t.lo } = t) ∧
  (∀ (s t : State) (rs rt : RegNum) (hi lo : Word), ∀ i ∈ [Instr.mult rs rt, .multu rs rt, .div rs rt, .divu rs rt],
    exec i s = .next t → exec i { s with hi := hi, lo := lo } = .next t)

/-- Only SB, SH, SW, SWL and SWR change a byte of memory. -/
def Obligations.OnlyStoresWriteMemory : Prop :=
  ∀ (i : Instr) (s t : State), storesMemory i = false → exec i s = .next t → SameMemory s t

/-- R62: no instruction changes the translation state but for `use` and `dirty` bits, nor the coremap, nor which table and space are
active, nor the configuration. -/
def Obligations.NoInstructionWritesTranslationState : Prop :=
  ∀ s t : State, step s = .next t → SameMappings s t ∧ SameHostState s t

/-- R255: a program reaches only the frames the active source maps: a byte of PhysicalMemory that a step changes lies in a frame that a
valid, writable entry of the active source maps. (It rests on the spec's own choices D23 of 92_eei_decisions.md.) -/
def Obligations.WritesStayInWritableFrames : Prop :=
  ∀ (s t : State) (a : Nat), Memory.wf s.mem → step s = .next t → Memory.read t.mem a ≠ Memory.read s.mem a →
    a < s.physSize ∧
    ∃ r e, s.entryAt r = some e ∧ e.valid = true ∧ e.readOnly = false ∧ e.physicalPage = a / s.cfg.pageSize ∧
      ((s.cfg.useTlb = true ∧ ∃ i, r = .tlb i) ∨
       (s.cfg.useTlb = false ∧ ∃ id v, r = .table id v ∧ s.activeTable = some id ∧ v < s.pageTableSize))

/-- R282: where the invariant holds and translation can work, a step always answers a next state, but for the one case the spec refuses:
at the parameter value `DIV_OVF` = refuse (42_multiply_divide.md R143, the spec's own value and the one at reset) a step may be refused,
with that reason and no other; with no page table installed in page-table mode every step is refused by name, a misaligned `PC`
included; in TLB mode the first step after reset raises PAGE_FAULT(0). That a parameter value other than refuse goes on with a pair
nothing constrains is the model's choice (notes/assumptions/3.md); the reset values and the parameter are the spec's own choices D4 and
D13 of 92_eei_decisions.md. That a reference to a space not in the registry counts as no table installed is the model's choice
(notes/assumptions/25.md). -/
def Obligations.StepAlwaysAnswers : Prop :=
  (∀ s : State, s.Inv → s.translationReady →
    (∃ t, step s = .next t) ∨ (s.cfg.divOvf = .refuse ∧ step s = .refused .divOverflow)) ∧
  (∀ s : State, ¬ s.translationReady → step s = .refused .noPageTable) ∧
  (∀ c : Params, c.useTlb = true → ∃ t, step (State.resetWith c) = .next t ∧ Raises .pageFault 0 (State.resetWith c) t)

/-- R248: a step depends on nothing but the machine's state, the result the last step returned being an output only; so after an exception,
with the pending load not drained (or none pending), the retry fetches and executes the same instruction from the start, and while
the host changes nothing it raises the same exception again and leaves the same state, indefinitely. -/
def Obligations.RetryReexecutes : Prop :=
  (∀ s : State, step s.retry = step s) ∧
  (∀ (s t : State) (x : Trap), s.cfg.excDrainsLoad = false ∨ s.load = 0 → step s = .next t → t.trap = some x →
    t.retry.pc = s.pc ∧ t.retry.nextPc = s.nextPc ∧ step t.retry = .next t)

/-! ## Translation -/

/-- R45: a misaligned access is an ADDRESS_ERROR before any table is consulted, whatever is mapped; size 4 needs a multiple of 4, size 2 an
even address, size 1 nothing; the fetch is checked as size 4 (where translation can work); LWL, LWR, SWL and SWR never fail the check. (With the parameter
OOR_VPN_EXCEPTION at ADDRESS_ERROR the lookup has that kind too, so the clauses that deny the kind take the default value.) -/
def Obligations.AlignmentIsCheckedFirst : Prop :=
  (∀ (s : State) (va : Word) (w : Bool),
    (va.toNat % 4 ≠ 0 → s.translate va .word w = .exc .addressError) ∧
    (va.toNat % 2 ≠ 0 → s.translate va .half w = .exc .addressError) ∧
    (s.cfg.oorVpn = .pageFault → s.translate va .byte w ≠ .exc .addressError) ∧
    (s.cfg.oorVpn = .pageFault → va.toNat % 2 = 0 → s.translate va .half w ≠ .exc .addressError) ∧
    (s.cfg.oorVpn = .pageFault → va.toNat % 4 = 0 → s.translate va .word w ≠ .exc .addressError)) ∧
  (∀ s : State, s.translationReady → s.pc.toNat % 4 ≠ 0 → ∃ t, step s = .next t ∧ Raises .addressError s.pc s t) ∧
  (∀ (s t : State) (x : Trap) (rt rs : RegNum) (imm : BitVec 16), s.cfg.oorVpn = .pageFault →
    ∀ i ∈ [Instr.lwl rt imm rs, .lwr rt imm rs, .swl rt imm rs, .swr rt imm rs],
      exec i s = .next t → t.trap = some x → x.kind ≠ .addressError)

/-- R47: in page-table mode a vpn at or beyond `pageTableSize` gives the exception that the parameter `OOR_VPN_EXCEPTION` names, PAGE_FAULT or
ADDRESS_ERROR, an invalid entry gives PAGE_FAULT, and a valid one is the entry used, its `virtualPage` not compared. (It rests on the spec's own choices D19, D21 of
92_eei_decisions.md.) -/
def Obligations.PageTableModeLookup : Prop :=
  ∀ (s : State) (id : Nat) (S : AddressSpace) (va : Word) (size : AccessSize) (w : Bool),
    s.cfg.useTlb = false → s.activeTable = some id → s.space id = some S → va.toNat % size.bytes = 0 →
    (s.pageTableSize ≤ va.toNat / s.cfg.pageSize →
      (s.cfg.oorVpn = .pageFault → s.translate va size w = .exc .pageFault) ∧
      (s.cfg.oorVpn = .addressError → s.translate va size w = .exc .addressError)) ∧
    (∀ e, va.toNat / s.cfg.pageSize < s.pageTableSize → S.pageTable[va.toNat / s.cfg.pageSize]? = some e →
      (e.valid = false → s.translate va size w = .exc .pageFault) ∧
      (e.valid = true → s.lookup (va.toNat / s.cfg.pageSize) = .hit (.table id (va.toNat / s.cfg.pageSize)) e))

/-- R48: in TLB mode the entry used is the valid one of lowest index with the vpn; with none the access is a PAGE_FAULT; the page table
is not consulted. (It rests on the spec's own choices D18, D21 of 92_eei_decisions.md.) -/
def Obligations.TlbModeLookup : Prop :=
  ∀ (s : State) (va : Word) (size : AccessSize) (w : Bool), s.cfg.useTlb = true → va.toNat % size.bytes = 0 →
    ((∀ i : Fin 4, ¬ (s.tlb[i].valid = true ∧ s.tlb[i].virtualPage = va.toNat / s.cfg.pageSize)) →
      s.translate va size w = .exc .pageFault) ∧
    (∀ i : Fin 4, s.tlb[i].valid = true → s.tlb[i].virtualPage = va.toNat / s.cfg.pageSize →
      (∀ j : Fin 4, j < i → ¬ (s.tlb[j].valid = true ∧ s.tlb[j].virtualPage = va.toNat / s.cfg.pageSize)) →
      s.lookup (va.toNat / s.cfg.pageSize) = .hit (.tlb i) s.tlb[i])

/-- R49, R50, R51: with the entry found, a write through a read-only entry is READ_ONLY, then a frame that does not exist is BUS_ERROR,
else the access succeeds at `physicalPage * PAGE_SIZE + offset`, the entry's `use` is set, its `dirty` when writing, and nothing
else changes; BUS_ERROR cannot come where the invariant holds. -/
def Obligations.TranslationOfAFoundEntry : Prop :=
  ∀ (s : State) (va : Word) (size : AccessSize) (w : Bool) (r : EntryRef) (e : TranslationEntry), va.toNat % size.bytes = 0 →
    s.lookup (va.toNat / s.cfg.pageSize) = .hit r e →
    (w = true → e.readOnly = true → s.translate va size w = .exc .readOnly) ∧
    ((w = false ∨ e.readOnly = false) → s.cfg.numPhysPages ≤ e.physicalPage → s.translate va size w = .exc .busError) ∧
    ((w = false ∨ e.readOnly = false) → e.physicalPage < s.cfg.numPhysPages →
      ∃ u, s.translate va size w = .ok (e.physicalPage * s.cfg.pageSize + va.toNat % s.cfg.pageSize) u ∧
        u.entryAt r = some { e with use := true, dirty := e.dirty || w } ∧
        (∀ q, q ≠ r → u.entryAt q = s.entryAt q) ∧ u = { s with tlb := u.tlb, spaces := u.spaces }) ∧
    (s.Inv → e.physicalPage < s.cfg.numPhysPages)

/-! ## The host's operations -/

/-- R11, R36: the register port reaches the 40 slots: indices 0 to 31 are the general registers, 32 to 39 `HI`, `LO`, `PC`, `NEXT_PC`, `PREV_PC`,
`LOAD`, `LOAD_VALUE` and `BAD_VADDR`; a write is read back at its index and seen at no other, and changes no other state; index 0 reads 0
and a write of it does nothing; an index above 39 is refused, and so is a value above 31 for `LOAD`. (It rests on the spec's own choices D3
of 92_eei_decisions.md.) -/
def Obligations.RegisterPort : Prop :=
  (∀ s : State, (∀ r : RegNum, s.readRegister r.val = .next (s.getX r)) ∧ s.readRegister 0 = .next 0 ∧
    s.readRegister 32 = .next s.hi ∧ s.readRegister 33 = .next s.lo ∧ s.readRegister 34 = .next s.pc ∧
    s.readRegister 35 = .next s.nextPc ∧ s.readRegister 36 = .next s.prevPc ∧
    s.readRegister 37 = .next (BitVec.ofNat 32 s.load.val) ∧ s.readRegister 38 = .next s.loadValue ∧
    s.readRegister 39 = .next s.badVAddr) ∧
  (∀ (s : State) (i : Nat) (v : Word), i < 40 → (i = 37 → v.toNat < 32) →
    ∃ t, s.writeRegister i v = .next t ∧
      (∀ j, j < 40 → t.readRegister j = if j = i ∧ j ≠ 0 then .next v else s.readRegister j) ∧
      t = { s with
        x := t.x, hi := t.hi, lo := t.lo, pc := t.pc, nextPc := t.nextPc, prevPc := t.prevPc, load := t.load
        loadValue := t.loadValue, badVAddr := t.badVAddr }) ∧
  (∀ (s : State) (v : Word), s.writeRegister 0 v = .next s) ∧
  (∀ (s : State) (i : Nat) (v : Word), 40 ≤ i →
    s.readRegister i = .refused (.badRegisterIndex i) ∧ s.writeRegister i v = .refused (.badRegisterIndex i)) ∧
  (∀ (s : State) (v : Word), 32 ≤ v.toNat → s.writeRegister 37 v = .refused (.badLoadIndex v))

/-- R53, R68: the host's memory calls behave as the engine's accesses: a failing one raises with its address, a successful read answers
the bytes little-endian and zero-extended, a successful write stores the low bytes; the host's direct physical accesses reach every byte
of PhysicalMemory and set no bit. (A failing call answers failure, 60_exceptions.md R252.) It rests on the spec's own choices D21 (a
write stores the low bytes, R54) and D37 (the raise of a failing call, R252) of 92_eei_decisions.md, with notes/assumptions/20.md for
the failing answer; that a successful call leaves `trap` none is the model's choice (notes/assumptions/4.md). -/
def Obligations.HostMemoryCalls : Prop :=
  (∀ (s u : State) (va v : Word) (size : AccessSize) (p : Nat) (e : ExcKind),
    (s.translate va size false = .exc e → ∃ t, s.hostReadMem va size.bytes = .next (none, t) ∧ Raises e va s t) ∧
    (s.translate va size true = .exc e → ∃ t, s.hostWriteMem va size.bytes v = .next (none, t) ∧ Raises e va s t) ∧
    (s.translate va size false = .ok p u → ∃ w : Word, s.hostReadMem va size.bytes = .next (some w, { u with trap := none }) ∧
      ∀ k, k < 4 → byteOf w k = if k < size.bytes then Memory.read s.mem (p + k) else 0) ∧
    (Memory.wf s.mem → s.translate va size true = .ok p u → ∃ t, s.hostWriteMem va size.bytes v = .next (some (), t) ∧
      (∀ k, k < size.bytes → Memory.read t.mem (p + k) = byteOf v k) ∧ SameMemoryOutside p size.bytes s t ∧
      t = { u with mem := t.mem, trap := none })) ∧
  (∀ (s : State) (p : Nat) (b : Byte), p < s.cfg.numPhysPages * s.cfg.pageSize → s.readPhys p = .next (Memory.read s.mem p) ∧
    (Memory.wf s.mem → ∃ t, s.writePhys p b = .next t ∧ Memory.read t.mem p = b ∧ SameMemoryOutside p 1 s t ∧
      t = { s with mem := t.mem }))

/-- R190, R249: after a SYSCALL the handler's advance puts the SYSCALL's address in `PREV_PC`, the address that was in `NEXT_PC` in `PC`
(a branch target when the SYSCALL sat in a delay slot), and that plus 4 in `NEXT_PC`; nothing else changes. (It rests on the spec's own
choices D31 of 92_eei_decisions.md.) That the continuation clears `trap` is the model's choice (notes/assumptions/4.md). (It rests on
the spec's own choices D31 of 92_eei_decisions.md.) -/
def Obligations.ContinuePastSyscall : Prop :=
  ∀ s t : State, exec .syscall s = .next t →
    t.continuePast = { t with prevPc := s.pc, pc := s.nextPc, nextPc := s.nextPc + 4, trap := none }

/-- R203, R204: `Find` takes the free frame of lowest index when one is free, whatever stores the spaces have, leaving `lastVictim` and every
bit alone; when none is free it takes the clock's victim, whose page becomes invalid, unless that page is dirty and its owner has no swap
store, where it is refused (R209, U7); in both cases the frame exists and the pair claims it. (It rests on the spec's own choices D25, D26,
D27 of 92_eei_decisions.md.) -/
def Obligations.FindNeverFails : Prop :=
  ∀ (s : State) (id v : Nat) (S : AddressSpace), s.Inv → s.space id = some S → v < S.numPages →
    (∀ f, s.claim f ≠ some { owner := id, vpn := v }) →
    ((s.full → s.victimSavable) →
      ∃ f t, s.find id v = .next (f, t) ∧ f < s.cfg.numPhysPages ∧ t.claim f = some { owner := id, vpn := v } ∧
        (¬ s.full → s.claim f = none ∧ (∀ g, g < f → s.claim g ≠ none) ∧ t = { s with coremap := t.coremap }) ∧
        (s.full → f = s.clockVictim ∧ ∃ c e, s.claim f = some c ∧ t.pte c.owner c.vpn = some e ∧ e.valid = false) ∧
        ∀ g, g ≠ f → t.claim g = s.claim g) ∧
    (∀ c r e T, s.full → s.claim s.clockVictim = some c → s.frameEntry s.clockVictim = some (r, e) → e.dirty = true →
      s.space c.owner = some T → T.swap = none → s.find id v = .refused (.noSwapStore c.owner))

/-- R206, R207: with no frame free the victim is the two-pass clock's, `lastVictim` remembers it, the frames the first pass examined
before its end have lost their `use` bits, and nothing else changes: every other place that holds a translation entry, a frame's or not, is
as before. (It rests on the spec's own choices D25, D26, D27 of 92_eei_decisions.md.) -/
def Obligations.VictimIsTheClocks : Prop :=
  ∀ s : State, s.Inv → s.full →
    ∃ t, s.selectVictim = .next (s.clockVictim, t) ∧ s.clockVictim < s.cfg.numPhysPages ∧
      t = { s with lastVictim := s.clockVictim, tlb := t.tlb, spaces := t.spaces } ∧ SameMappings s t ∧
      (∀ f ∈ s.clockOrder.takeWhile (fun g => !s.unusedClean g),
        ∃ r e, s.frameEntry f = some (r, e) ∧ t.frameEntry f = some (r, { e with use := false })) ∧
      (∀ f ∈ s.clockOrder.dropWhile (fun g => !s.unusedClean g), t.frameEntry f = s.frameEntry f) ∧
      (∀ q, (∀ f ∈ s.clockOrder.takeWhile (fun g => !s.unusedClean g), ∀ e, s.frameEntry f ≠ some (q, e)) →
        t.entryAt q = s.entryAt q)

/-- R209: eviction writes a dirty page to the owner's swap store, after folding a live TLB copy back, and leaves the page's entry invalid
and no valid TLB copy; nothing else changes: the other TLB entries, every other page's entry, swap flag and bytes in the store, every
other space, the registers and memory; a dirty page of a space with no swap store is refused. (It rests on the spec's own choices D27,
D29 of 92_eei_decisions.md.) -/
def Obligations.EvictionEffects : Prop :=
  ∀ (s : State) (f : Nat) (c : Claim) (r : EntryRef) (e : TranslationEntry) (S : AddressSpace), s.Inv → s.claim f = some c →
    s.frameEntry f = some (r, e) → e.valid = true → s.space c.owner = some S →
    (e.dirty = true → S.swap = none → s.evict f = .refused (.noSwapStore c.owner)) ∧
    (e.dirty = false ∨ S.swap ≠ none → ∃ t T, s.evict f = .next t ∧ t.space c.owner = some T ∧
      t.pte c.owner c.vpn = some { e with valid := false } ∧
      (s.cfg.useTlb = true → s.currentSpace = some c.owner → t.tlbFind c.vpn = none) ∧
      (∀ i : Fin 4, t.tlb[i] = if r = .tlb i then { s.tlb[i] with valid := false } else s.tlb[i]) ∧
      (∀ j w, (j, w) ≠ (c.owner, c.vpn) → t.pte j w = s.pte j w) ∧
      (∀ j, j ≠ c.owner → t.space j = s.space j) ∧
      T = { S with pageTable := T.pageTable, swap := T.swap, inSwap := T.inSwap } ∧
      (e.dirty = true → ∃ old new, S.swap = some old ∧ T.swap = some new ∧ T.inSwap = S.inSwap.set c.vpn true ∧
        T.inSwap[c.vpn]? = some true ∧
        Memory.readBytes new (c.vpn * s.cfg.pageSize) s.cfg.pageSize = s.frameBytes f ∧
        ∀ a, a < c.vpn * s.cfg.pageSize ∨ c.vpn * s.cfg.pageSize + s.cfg.pageSize ≤ a → Memory.read new a = Memory.read old a) ∧
      (e.dirty = false → T.swap = S.swap ∧ T.inSwap = S.inSwap) ∧
      t = { s with tlb := t.tlb, spaces := t.spaces })

/-- R221: `SaveToSwap` then `LoadFromSwap` for the same page reproduces the original bytes exactly, in whichever frame. (It rests on the
spec's own choices D29 of 92_eei_decisions.md.) -/
def Obligations.SwapRoundTrip : Prop :=
  ∀ (s t u : State) (id v f : Nat) (e : TranslationEntry), s.Inv → s.pte id v = some e → s.saveToSwap id v = .next t →
    t.loadFromSwap id v f = .next u → u.frameBytes f = s.frameBytes e.physicalPage

/-- R217, R220: after `LoadSegment` the page is valid, clean, unused and writable in a frame the pair claims, and the frame holds the
image bytes of the page: of the executable at `fileOffset + (a - virtualAddress)` for an address a of the code segment or else of the
initialized-data segment, 0 for every other. (It rests on the spec's own choices D28 of 92_eei_decisions.md.) Which segment wins where two
overlap is the model's choice (notes/assumptions/13.md). -/
def Obligations.LoadSegmentFillsThePage : Prop :=
  ∀ (s t : State) (id va : Nat) (S : AddressSpace), s.Inv → s.space id = some S → s.loadSegment id va = .next t →
    ∃ f, f < s.cfg.numPhysPages ∧ t.claim f = some { owner := id, vpn := va / s.cfg.pageSize } ∧
      t.pte id (va / s.cfg.pageSize) = some ⟨va / s.cfg.pageSize, f, true, false, false, false⟩ ∧
      ∀ k a, k < s.cfg.pageSize → a = va / s.cfg.pageSize * s.cfg.pageSize + k →
        Memory.read t.mem (f * s.cfg.pageSize + k) =
          if S.code.virtualAddress ≤ a ∧ a < S.code.virtualAddress + S.code.size then
            Memory.read S.file (S.code.fileOffset + (a - S.code.virtualAddress))
          else if S.initData.virtualAddress ≤ a ∧ a < S.initData.virtualAddress + S.initData.size then
            Memory.read S.file (S.initData.fileOffset + (a - S.initData.virtualAddress))
          else 0

/-- R219: a demand-paged AddressSpace starts with every entry invalid and no page in swap, and takes no frame. -/
def Obligations.DemandPagedConstruction : Prop :=
  ∀ (s : State) (id n : Nat) (img : ProgramImage) (policy : LoadPolicy), policy ≠ .eager → s.space id = none →
    ∃ t S, s.constructSpace id img n policy = .next t ∧ t.space id = some S ∧ S.numPages = n ∧
      (∀ v, v < n → ∃ e, S.pageTable[v]? = some e ∧ e.valid = false ∧ S.inSwap[v]? = some false) ∧
      (∀ j, j ≠ id → t.space j = s.space j) ∧ t = { s with spaces := t.spaces }

/-- R223, R224: before switching away in TLB mode every valid entry is folded back into the current space's table and invalidated, and
then any space can be switched in; in page-table mode switching in makes its table the active one. It rests on the spec's own choices
D27 (the fold-back of all six fields, R210, and `currentSpace`, R25) of 92_eei_decisions.md. -/
def Obligations.ContextSwitch : Prop :=
  (∀ s : State, s.Inv → s.cfg.useTlb = true → ∃ t, s.saveState = .next t ∧ (∀ i : Fin 4, t.tlb[i].valid = false) ∧
    (∀ (i : Fin 4) (id : Nat), s.currentSpace = some id → s.tlb[i].valid = true →
      t.pte id s.tlb[i].virtualPage = some s.tlb[i]) ∧
    ∀ (id : Nat) (S : AddressSpace), t.space id = some S → t.restoreState id = .next { t with currentSpace := some id }) ∧
  (∀ (s : State) (id : Nat) (S : AddressSpace), s.cfg.useTlb = false → s.space id = some S →
    s.saveState = .next s ∧
    s.restoreState id = .next { s with currentSpace := some id, activeTable := some id, pageTableSize := S.numPages })

/-- R225: when the host's resolution of a page fault answers retry, a byte read of the faulting address succeeds. (It rests on the
spec's own choices D29 of 92_eei_decisions.md.) -/
def Obligations.PageFaultIsResolved : Prop :=
  ∀ (s t : State) (va : Word) (slot : Fin 4), s.Inv → (s.cfg.useTlb = false → s.activeTable = s.currentSpace) →
    s.onPageFault va slot = .next (.retry, t) →
    (∃ p u, t.translate va .byte false = .ok p u) ∧ t.pc = s.pc ∧ t.nextPc = s.nextPc

/-- R212: destroying an AddressSpace frees exactly its frames and writes nothing back; in TLB mode the current space's entries become
invalid. (It rests on the spec's own choices D29 of 92_eei_decisions.md.) That the space leaves the registry is the model's choice
(notes/assumptions/12.md). -/
def Obligations.DestroyFreesFrames : Prop :=
  ∀ (s t : State) (id : Nat), s.destroySpace id = .next t →
    (∀ f, t.claim f = match s.claim f with
      | some c => if c.owner = id then none else some c
      | none => none) ∧
    t.space id = none ∧ (∀ j, j ≠ id → t.space j = s.space j) ∧ t.mem = s.mem ∧ t.lastVictim = s.lastVictim ∧
    (s.cfg.useTlb = true → s.currentSpace = some id → ∀ i : Fin 4, t.tlb[i].valid = false)

/-! ## Reset and the invariant -/

/-- R35: the values after reset. (It rests on the spec's own choices D4, D25 of 92_eei_decisions.md.) -/
def Obligations.ResetValues : Prop :=
  ∀ c : Params,
    (∀ r, (State.resetWith c).getX r = 0) ∧ (State.resetWith c).hi = 0 ∧ (State.resetWith c).lo = 0 ∧
    (State.resetWith c).pc = 0 ∧ (State.resetWith c).nextPc = 4 ∧ (State.resetWith c).prevPc = 0 ∧
    (State.resetWith c).load = 0 ∧ (State.resetWith c).loadValue = 0 ∧ (State.resetWith c).badVAddr = 0 ∧
    (∀ a, Memory.read (State.resetWith c).mem a = 0) ∧ (∀ i : Fin 4, (State.resetWith c).tlb[i].valid = false) ∧
    (State.resetWith c).activeTable = none ∧ (State.resetWith c).cfg = c ∧
    (∀ f, f < c.numPhysPages → (State.resetWith c).claim f = none) ∧ (State.resetWith c).lastVictim = c.numPhysPages - 1

/-- The state after reset meets the invariant, for every configuration. (It rests on the spec's own choices D4 of 92_eei_decisions.md.) -/
def Obligations.ResetMeetsInvariant : Prop :=
  ∀ c : Params, (State.resetWith c).Inv

/-- R29, R202: every step, completed or raising, keeps the invariant. -/
def Obligations.StepKeepsInvariant : Prop :=
  ∀ s t : State, s.Inv → step s = .next t → t.Inv

/-- R29, R202: every operation of the host but its direct writes of the translation state keeps the invariant. -/
def Obligations.HostOperationsKeepInvariant : Prop :=
  ∀ (op : HostOp) (s t : State), op.KeepsRules s.cfg.useTlb → s.Inv → hostStep op s = .next t → t.Inv
end

