-- ==== Sys2Proof/Laws/Encoding.lean ====
section
/-! SUPPORT. What the decoder's fields read from the encoder's formats (30_encoding.md R81), and the byte order of a word
(20_memory.md R42). -/
namespace Sys2Proof

theorem regField_val (w : Word) (lo : Nat) : (regField w lo).val = w.toNat / 2 ^ lo % 32 := by
  simp [regField, Nat.shiftRight_eq_div_pow]

theorem field_toNat (w : Word) (lo len : Nat) : (w.extractLsb' lo len).toNat = w.toNat / 2 ^ lo % 2 ^ len := by
  simp [Nat.shiftRight_eq_div_pow]

theorem rWord_toNat (rs rt rd : RegNum) (shamt funct : Nat) (h : funct < 64) :
    (rWord rs rt rd shamt funct).toNat = rs.val * 2 ^ 21 + rt.val * 2 ^ 16 + rd.val * 2 ^ 11 + shamt % 32 * 2 ^ 6 + funct := by
  rw [rWord, BitVec.toNat_ofNat, Nat.mod_eq_of_lt]
  omega

theorem iWord_toNat (op : Nat) (rs rt : RegNum) (imm : BitVec 16) (h : op < 64) :
    (iWord op rs rt imm).toNat = op * 2 ^ 26 + rs.val * 2 ^ 21 + rt.val * 2 ^ 16 + imm.toNat := by
  rw [iWord, BitVec.toNat_ofNat, Nat.mod_eq_of_lt]
  omega

theorem jWord_toNat (op : Nat) (target : BitVec 26) (h : op < 64) : (jWord op target).toNat = op * 2 ^ 26 + target.toNat := by
  rw [jWord, BitVec.toNat_ofNat, Nat.mod_eq_of_lt]
  omega

/-- The fields of an R-type word are what it was built from. -/
theorem fieldsOf_rWord (rs rt rd : RegNum) (shamt funct : Nat) (h : funct < 64) :
    (fieldsOf (rWord rs rt rd shamt funct)).opcode.toNat = 0 ∧
    (fieldsOf (rWord rs rt rd shamt funct)).funct.toNat = funct ∧
    (fieldsOf (rWord rs rt rd shamt funct)).rs = rs ∧
    (fieldsOf (rWord rs rt rd shamt funct)).rt = rt ∧
    (fieldsOf (rWord rs rt rd shamt funct)).rd = rd ∧
    (fieldsOf (rWord rs rt rd shamt funct)).shamt = shamt % 32 := by
  refine ⟨?_, ?_, Fin.ext ?_, Fin.ext ?_, Fin.ext ?_, ?_⟩ <;>
    simp only [fieldsOf, regField_val, field_toNat, rWord_toNat rs rt rd shamt funct h] <;> omega

/-- The fields of an I-type word are what it was built from. -/
theorem fieldsOf_iWord (op : Nat) (rs rt : RegNum) (imm : BitVec 16) (h : op < 64) :
    (fieldsOf (iWord op rs rt imm)).opcode.toNat = op ∧
    (fieldsOf (iWord op rs rt imm)).rs = rs ∧
    (fieldsOf (iWord op rs rt imm)).rt = rt ∧
    (fieldsOf (iWord op rs rt imm)).imm = imm := by
  refine ⟨?_, Fin.ext ?_, Fin.ext ?_, BitVec.eq_of_toNat_eq ?_⟩ <;>
    simp only [fieldsOf, regField_val, field_toNat, iWord_toNat op rs rt imm h] <;> omega

/-- The fields of a J-type word are what it was built from. -/
theorem fieldsOf_jWord (op : Nat) (target : BitVec 26) (h : op < 64) :
    (fieldsOf (jWord op target)).opcode.toNat = op ∧ (fieldsOf (jWord op target)).target = target := by
  refine ⟨?_, BitVec.eq_of_toNat_eq ?_⟩ <;> simp only [fieldsOf, field_toNat, jWord_toNat op target h] <;> omega

theorem byteOf_toNat (w : Word) (k : Nat) : (byteOf w k).toNat = w.toNat / 2 ^ (8 * k) % 2 ^ 8 := by
  rw [byteOf, field_toNat]

theorem wordOfBytes_toNat (b0 b1 b2 b3 : Byte) :
    (wordOfBytes b0 b1 b2 b3).toNat = b0.toNat + 2 ^ 8 * b1.toNat + 2 ^ 16 * b2.toNat + 2 ^ 24 * b3.toNat := by
  rw [wordOfBytes, BitVec.toNat_ofNat, Nat.mod_eq_of_lt]
  have := b0.isLt; have := b1.isLt; have := b2.isLt; have := b3.isLt
  omega

/-- A word is its four bytes in memory order. -/
@[simp] theorem wordOfBytes_byteOf (w : Word) : wordOfBytes (byteOf w 0) (byteOf w 1) (byteOf w 2) (byteOf w 3) = w := by
  apply BitVec.eq_of_toNat_eq
  simp only [wordOfBytes_toNat, byteOf_toNat, Nat.reduceMul]
  omega

/-- Byte k of a word built from four bytes. -/
theorem byteOf_wordOfBytes (b0 b1 b2 b3 : Byte) :
    byteOf (wordOfBytes b0 b1 b2 b3) 0 = b0 ∧ byteOf (wordOfBytes b0 b1 b2 b3) 1 = b1 ∧
    byteOf (wordOfBytes b0 b1 b2 b3) 2 = b2 ∧ byteOf (wordOfBytes b0 b1 b2 b3) 3 = b3 := by
  have := b0.isLt; have := b1.isLt; have := b2.isLt; have := b3.isLt
  refine ⟨?_, ?_, ?_, ?_⟩ <;> apply BitVec.eq_of_toNat_eq <;> simp only [wordOfBytes_toNat, byteOf_toNat, Nat.reduceMul] <;> omega

end Sys2Proof
end

