-- ==== Sys2Proof/Laws/Memory.lean ====
section
/-! SUPPORT. The laws of byte stores: read after write, the canonical form, byte sequences, and the little-endian values. -/
namespace Sys2Proof.Machine

theorem Memory.read_cons (b : Byte) (rest : List Host.Cell) (a c : Nat) (h : Memory.read rest a = Memory.unlisted) :
    Memory.read (Memory.cons a b rest) c = if c = a then b else Memory.read rest c := by
  unfold Memory.cons
  by_cases hb : b = Memory.unlisted
  · by_cases hc : c = a <;> simp [hb, hc, h]
  · by_cases hc : c = a
    · simp [hb, hc, Memory.read]
    · simp [hb, hc, Memory.read, Ne.symm hc]

/-- An address below every listed one reads the unlisted value. -/
theorem Memory.read_of_lt (m : List Host.Cell) (a : Nat) (h : ∀ c ∈ m, a < c.1) : Memory.read m a = Memory.unlisted := by
  induction m with
  | nil => rfl
  | cons c rest ih =>
    have hc := h c (by simp)
    rw [Memory.read, if_neg (by omega)]
    exact ih fun d hd => h d (by simp [hd])

/-- Read after write: the written byte at its address, every other byte as before. -/
theorem Memory.read_write (m : List Host.Cell) (a c : Nat) (b : Byte) (h : Memory.wf m) :
    Memory.read (Memory.write m a b) c = if c = a then b else Memory.read m c := by
  induction m with
  | nil => exact Memory.read_cons b [] a c rfl
  | cons cell rest ih =>
    obtain ⟨k, d⟩ := cell
    obtain ⟨hp, hu⟩ := h
    obtain ⟨hk, hp⟩ := List.pairwise_cons.mp hp
    have ih := ih ⟨hp, fun e he => hu e (by simp [he])⟩
    rw [Memory.write]
    split
    · rename_i hlt
      by_cases hc : k = c
      · have : c ≠ a := by omega
        simp [Memory.read, hc, this]
      · simp [Memory.read, hc, ih]
    · split
      · rename_i _ heq
        subst heq
        rw [Memory.read_cons b rest k c (Memory.read_of_lt rest k hk)]
        by_cases hc : c = k
        · simp [hc]
        · simp [Memory.read, hc, Ne.symm hc]
      · rename_i h1 h2
        refine Memory.read_cons b _ a c (Memory.read_of_lt _ a ?_)
        intro e he
        rcases List.mem_cons.mp he with rfl | he
        · show a < k; omega
        · have := hk e he
          simp only at this
          omega

theorem Memory.wf_cons (m : List Host.Cell) (a : Nat) (b : Byte) (h : Memory.wf m) (hlt : ∀ c ∈ m, a < c.1) :
    Memory.wf (Memory.cons a b m) := by
  unfold Memory.cons
  split
  · exact h
  · rename_i hb
    refine ⟨List.pairwise_cons.mpr ⟨hlt, h.1⟩, fun c hc => ?_⟩
    rcases List.mem_cons.mp hc with rfl | hc
    · exact hb
    · exact h.2 c hc

theorem Memory.mem_cons (m : List Host.Cell) (a : Nat) (b : Byte) (c : Host.Cell) (hc : c ∈ Memory.cons a b m) :
    c = (a, b) ∨ c ∈ m := by
  unfold Memory.cons at hc
  split at hc
  · exact .inr hc
  · exact List.mem_cons.mp hc

/-- A cell of a store that was written is the written one or was there. -/
theorem Memory.mem_write (m : List Host.Cell) (a : Nat) (b : Byte) (c : Host.Cell) (hc : c ∈ Memory.write m a b) :
    c = (a, b) ∨ c ∈ m := by
  induction m with
  | nil => exact Memory.mem_cons [] a b c hc
  | cons cell rest ih =>
    obtain ⟨k, d⟩ := cell
    rw [Memory.write] at hc
    split at hc
    · rcases List.mem_cons.mp hc with rfl | hc
      · simp
      · rcases ih hc with h | h <;> simp [h]
    · split at hc
      · rcases Memory.mem_cons _ _ _ _ hc with h | h <;> simp [h]
      · exact Memory.mem_cons _ _ _ _ hc

/-- A write keeps the canonical form. -/
theorem Memory.wf_write (m : List Host.Cell) (a : Nat) (b : Byte) (h : Memory.wf m) : Memory.wf (Memory.write m a b) := by
  induction m with
  | nil => exact Memory.wf_cons [] a b h (by simp)
  | cons cell rest ih =>
    obtain ⟨k, d⟩ := cell
    obtain ⟨hp, hu⟩ := h
    obtain ⟨hk, hp⟩ := List.pairwise_cons.mp hp
    have hrest : Memory.wf rest := ⟨hp, fun e he => hu e (by simp [he])⟩
    rw [Memory.write]
    split
    · rename_i hlt
      have ih := ih hrest
      refine ⟨List.pairwise_cons.mpr ⟨fun c hc => ?_, ih.1⟩, fun c hc => ?_⟩
      · rcases Memory.mem_write _ _ _ _ hc with rfl | hc
        · exact hlt
        · exact hk c hc
      · rcases List.mem_cons.mp hc with rfl | hc
        · exact hu (k, d) (by simp)
        · exact ih.2 c hc
    · split
      · rename_i _ heq
        subst heq
        exact Memory.wf_cons rest k b hrest hk
      · rename_i h1 h2
        refine Memory.wf_cons _ a b ⟨List.pairwise_cons.mpr ⟨hk, hp⟩, hu⟩ fun c hc => ?_
        rcases List.mem_cons.mp hc with rfl | hc
        · show a < k; omega
        · have := hk c hc
          simp only at this
          omega

/-- Writing bytes keeps the canonical form. -/
theorem Memory.wf_writeBytes (bs : List Byte) (m : List Host.Cell) (a : Nat) (h : Memory.wf m) :
    Memory.wf (Memory.writeBytes m a bs) := by
  induction bs generalizing m a with
  | nil => exact h
  | cons b bs ih => exact ih _ _ (Memory.wf_write m a b h)

/-- Writing bytes lists no address outside them. -/
theorem Memory.mem_writeBytes (bs : List Byte) (m : List Host.Cell) (a : Nat) (c : Host.Cell)
    (hc : c ∈ Memory.writeBytes m a bs) : (a ≤ c.1 ∧ c.1 < a + bs.length) ∨ c ∈ m := by
  induction bs generalizing m a with
  | nil => exact .inr hc
  | cons b bs ih =>
    rcases ih _ _ hc with h | h
    · left; simp only [List.length_cons]; omega
    · rcases Memory.mem_write _ _ _ _ h with rfl | h
      · left; simp
      · exact .inr h

/-- Reading after writing bytes: byte k of them at the k-th address, every other byte as before. -/
theorem Memory.read_writeBytes (bs : List Byte) (m : List Host.Cell) (a c : Nat) (h : Memory.wf m) :
    Memory.read (Memory.writeBytes m a bs) c =
      if a ≤ c ∧ c < a + bs.length then bs[c - a]?.getD Memory.unlisted else Memory.read m c := by
  induction bs generalizing m a with
  | nil =>
    rw [if_neg (by simp)]
    rfl
  | cons b bs ih =>
    rw [Memory.writeBytes, ih _ _ (Memory.wf_write m a b h), Memory.read_write m a c b h]
    by_cases h1 : a + 1 ≤ c ∧ c < a + 1 + bs.length
    · have h2 : a ≤ c ∧ c < a + (b :: bs).length := by simp only [List.length_cons]; omega
      have h3 : c - a = (c - (a + 1)) + 1 := by omega
      rw [if_pos h1, if_pos h2, h3, List.getElem?_cons_succ]
    · rw [if_neg h1]
      by_cases hc : c = a
      · subst hc; simp
      · rw [if_neg hc, if_neg (by simp only [List.length_cons]; omega)]

/-- Bytes outside those written are unchanged. -/
theorem Memory.read_writeBytes_outside (bs : List Byte) (m : List Host.Cell) (a c : Nat) (h : Memory.wf m)
    (hc : c < a ∨ a + bs.length ≤ c) : Memory.read (Memory.writeBytes m a bs) c = Memory.read m c := by
  rw [Memory.read_writeBytes bs m a c h, if_neg (by omega)]

theorem Memory.length_readBytes (n : Nat) (m : List Host.Cell) (a : Nat) : (Memory.readBytes m a n).length = n := by
  induction n generalizing a with
  | zero => rfl
  | succ n ih => simp [Memory.readBytes, ih]

theorem Memory.getElem?_readBytes (n : Nat) (m : List Host.Cell) (a k : Nat) (h : k < n) :
    (Memory.readBytes m a n)[k]? = some (Memory.read m (a + k)) := by
  induction n generalizing a k with
  | zero => omega
  | succ n ih =>
    cases k with
    | zero => simp [Memory.readBytes]
    | succ k =>
      rw [Memory.readBytes, List.getElem?_cons_succ, ih (a + 1) k (by omega)]
      congr 2
      omega

/-- Reading bytes back gives the bytes written. -/
theorem Memory.readBytes_writeBytes (bs : List Byte) (m : List Host.Cell) (a : Nat) (h : Memory.wf m) :
    Memory.readBytes (Memory.writeBytes m a bs) a bs.length = bs := by
  apply List.ext_getElem?
  intro k
  by_cases hk : k < bs.length
  · rw [Memory.getElem?_readBytes _ _ _ _ hk, Memory.read_writeBytes _ _ _ _ h, if_pos (by omega),
      show a + k - a = k by omega, List.getElem?_eq_getElem hk]
    rfl
  · rw [List.getElem?_eq_none (by rw [Memory.length_readBytes]; omega), List.getElem?_eq_none (by omega)]

theorem Memory.length_valueBytes (v : Word) (size : AccessSize) : ((bytesOfWord v).take size.bytes).length = size.bytes := by
  cases size <;> rfl

theorem Memory.wf_writeValue (m : List Host.Cell) (p : Nat) (v : Word) (size : AccessSize) (h : Memory.wf m) :
    Memory.wf (Memory.writeValue m p v size) := Memory.wf_writeBytes _ m p h

/-- What a byte reads after a store: byte k of the value at the k-th stored address, every other byte as before (R42, R54). -/
theorem Memory.read_writeValue (m : List Host.Cell) (p c : Nat) (v : Word) (size : AccessSize) (h : Memory.wf m) :
    Memory.read (Memory.writeValue m p v size) c =
      if p ≤ c ∧ c < p + size.bytes then byteOf v (c - p) else Memory.read m c := by
  rw [Memory.writeValue, Memory.read_writeBytes _ _ _ _ h, Memory.length_valueBytes]
  split
  · rename_i hc
    obtain ⟨k, rfl⟩ : ∃ k, c = p + k := ⟨c - p, by omega⟩
    have hk : k < size.bytes := by omega
    rw [show p + k - p = k by omega]
    cases size
    · have : k = 0 := by simp [AccessSize.bytes] at hk; exact hk
      subst this; rfl
    · have : k = 0 ∨ k = 1 := by simp [AccessSize.bytes] at hk; omega
      rcases this with rfl | rfl <;> rfl
    · have : k = 0 ∨ k = 1 ∨ k = 2 ∨ k = 3 := by simp [AccessSize.bytes] at hk; omega
      rcases this with rfl | rfl | rfl | rfl <;> rfl
  · rfl

theorem Memory.mem_writeValue (m : List Host.Cell) (p : Nat) (v : Word) (size : AccessSize) (c : Host.Cell)
    (hc : c ∈ Memory.writeValue m p v size) : (p ≤ c.1 ∧ c.1 < p + size.bytes) ∨ c ∈ m := by
  have := Memory.mem_writeBytes _ _ _ _ hc
  rwa [Memory.length_valueBytes] at this

/-- A word read where a word was stored is the word (R42). -/
theorem Memory.readValue_writeValue_word (m : List Host.Cell) (p : Nat) (v : Word) (h : Memory.wf m) :
    Memory.readValue (Memory.writeValue m p v .word) p .word = v := by
  simp [Memory.readValue, Memory.read_writeValue _ _ _ _ _ h, AccessSize.bytes]

end Sys2Proof.Machine
end

