-- ==== Sys2Proof/Laws/State.lean ====
section
/-! SUPPORT. One lemma per field per state update, so that no proof unfolds a record update; and what a general register reads after
each of them. -/
namespace Sys2Proof.Machine

@[simp] theorem State.setX_x (s : State) (r : RegNum) (v : Word) : (s.setX r v).x = if r = 0 then s.x else s.x.set r v := rfl
@[simp] theorem State.setX_hi (s : State) (r : RegNum) (v : Word) : (s.setX r v).hi = s.hi := rfl
@[simp] theorem State.setX_lo (s : State) (r : RegNum) (v : Word) : (s.setX r v).lo = s.lo := rfl
@[simp] theorem State.setX_pc (s : State) (r : RegNum) (v : Word) : (s.setX r v).pc = s.pc := rfl
@[simp] theorem State.setX_nextPc (s : State) (r : RegNum) (v : Word) : (s.setX r v).nextPc = s.nextPc := rfl
@[simp] theorem State.setX_prevPc (s : State) (r : RegNum) (v : Word) : (s.setX r v).prevPc = s.prevPc := rfl
@[simp] theorem State.setX_load (s : State) (r : RegNum) (v : Word) : (s.setX r v).load = s.load := rfl
@[simp] theorem State.setX_loadValue (s : State) (r : RegNum) (v : Word) : (s.setX r v).loadValue = s.loadValue := rfl
@[simp] theorem State.setX_badVAddr (s : State) (r : RegNum) (v : Word) : (s.setX r v).badVAddr = s.badVAddr := rfl
@[simp] theorem State.setX_mem (s : State) (r : RegNum) (v : Word) : (s.setX r v).mem = s.mem := rfl
@[simp] theorem State.setX_tlb (s : State) (r : RegNum) (v : Word) : (s.setX r v).tlb = s.tlb := rfl
@[simp] theorem State.setX_activeTable (s : State) (r : RegNum) (v : Word) : (s.setX r v).activeTable = s.activeTable := rfl
@[simp] theorem State.setX_pageTableSize (s : State) (r : RegNum) (v : Word) : (s.setX r v).pageTableSize = s.pageTableSize := rfl
@[simp] theorem State.setX_currentSpace (s : State) (r : RegNum) (v : Word) : (s.setX r v).currentSpace = s.currentSpace := rfl
@[simp] theorem State.setX_coremap (s : State) (r : RegNum) (v : Word) : (s.setX r v).coremap = s.coremap := rfl
@[simp] theorem State.setX_lastVictim (s : State) (r : RegNum) (v : Word) : (s.setX r v).lastVictim = s.lastVictim := rfl
@[simp] theorem State.setX_spaces (s : State) (r : RegNum) (v : Word) : (s.setX r v).spaces = s.spaces := rfl
@[simp] theorem State.setX_cfg (s : State) (r : RegNum) (v : Word) : (s.setX r v).cfg = s.cfg := rfl
@[simp] theorem State.setX_trap (s : State) (r : RegNum) (v : Word) : (s.setX r v).trap = s.trap := rfl

@[simp] theorem State.drainLoad_x (s : State) : (s.drainLoad).x = (s.setX s.load s.loadValue).x := rfl
@[simp] theorem State.drainLoad_hi (s : State) : (s.drainLoad).hi = s.hi := rfl
@[simp] theorem State.drainLoad_lo (s : State) : (s.drainLoad).lo = s.lo := rfl
@[simp] theorem State.drainLoad_pc (s : State) : (s.drainLoad).pc = s.pc := rfl
@[simp] theorem State.drainLoad_nextPc (s : State) : (s.drainLoad).nextPc = s.nextPc := rfl
@[simp] theorem State.drainLoad_prevPc (s : State) : (s.drainLoad).prevPc = s.prevPc := rfl
@[simp] theorem State.drainLoad_load (s : State) : (s.drainLoad).load = 0 := rfl
@[simp] theorem State.drainLoad_loadValue (s : State) : (s.drainLoad).loadValue = 0 := rfl
@[simp] theorem State.drainLoad_badVAddr (s : State) : (s.drainLoad).badVAddr = s.badVAddr := rfl
@[simp] theorem State.drainLoad_mem (s : State) : (s.drainLoad).mem = s.mem := rfl
@[simp] theorem State.drainLoad_tlb (s : State) : (s.drainLoad).tlb = s.tlb := rfl
@[simp] theorem State.drainLoad_activeTable (s : State) : (s.drainLoad).activeTable = s.activeTable := rfl
@[simp] theorem State.drainLoad_pageTableSize (s : State) : (s.drainLoad).pageTableSize = s.pageTableSize := rfl
@[simp] theorem State.drainLoad_currentSpace (s : State) : (s.drainLoad).currentSpace = s.currentSpace := rfl
@[simp] theorem State.drainLoad_coremap (s : State) : (s.drainLoad).coremap = s.coremap := rfl
@[simp] theorem State.drainLoad_lastVictim (s : State) : (s.drainLoad).lastVictim = s.lastVictim := rfl
@[simp] theorem State.drainLoad_spaces (s : State) : (s.drainLoad).spaces = s.spaces := rfl
@[simp] theorem State.drainLoad_cfg (s : State) : (s.drainLoad).cfg = s.cfg := rfl
@[simp] theorem State.drainLoad_trap (s : State) : (s.drainLoad).trap = s.trap := rfl

@[simp] theorem State.raise_x (s : State) (e : ExcKind) (a : Word) : (s.raise e a).x = if s.cfg.excDrainsLoad then s.drainLoad.x else s.x := rfl
@[simp] theorem State.raise_hi (s : State) (e : ExcKind) (a : Word) : (s.raise e a).hi = s.hi := rfl
@[simp] theorem State.raise_lo (s : State) (e : ExcKind) (a : Word) : (s.raise e a).lo = s.lo := rfl
@[simp] theorem State.raise_pc (s : State) (e : ExcKind) (a : Word) : (s.raise e a).pc = s.pc := rfl
@[simp] theorem State.raise_nextPc (s : State) (e : ExcKind) (a : Word) : (s.raise e a).nextPc = s.nextPc := rfl
@[simp] theorem State.raise_prevPc (s : State) (e : ExcKind) (a : Word) : (s.raise e a).prevPc = s.prevPc := rfl
@[simp] theorem State.raise_load (s : State) (e : ExcKind) (a : Word) : (s.raise e a).load = if s.cfg.excDrainsLoad then 0 else s.load := rfl
@[simp] theorem State.raise_loadValue (s : State) (e : ExcKind) (a : Word) : (s.raise e a).loadValue = if s.cfg.excDrainsLoad then 0 else s.loadValue := rfl
@[simp] theorem State.raise_badVAddr (s : State) (e : ExcKind) (a : Word) : (s.raise e a).badVAddr = a := rfl
@[simp] theorem State.raise_mem (s : State) (e : ExcKind) (a : Word) : (s.raise e a).mem = s.mem := rfl
@[simp] theorem State.raise_tlb (s : State) (e : ExcKind) (a : Word) : (s.raise e a).tlb = s.tlb := rfl
@[simp] theorem State.raise_activeTable (s : State) (e : ExcKind) (a : Word) : (s.raise e a).activeTable = s.activeTable := rfl
@[simp] theorem State.raise_pageTableSize (s : State) (e : ExcKind) (a : Word) : (s.raise e a).pageTableSize = s.pageTableSize := rfl
@[simp] theorem State.raise_currentSpace (s : State) (e : ExcKind) (a : Word) : (s.raise e a).currentSpace = s.currentSpace := rfl
@[simp] theorem State.raise_coremap (s : State) (e : ExcKind) (a : Word) : (s.raise e a).coremap = s.coremap := rfl
@[simp] theorem State.raise_lastVictim (s : State) (e : ExcKind) (a : Word) : (s.raise e a).lastVictim = s.lastVictim := rfl
@[simp] theorem State.raise_spaces (s : State) (e : ExcKind) (a : Word) : (s.raise e a).spaces = s.spaces := rfl
@[simp] theorem State.raise_cfg (s : State) (e : ExcKind) (a : Word) : (s.raise e a).cfg = s.cfg := rfl
@[simp] theorem State.raise_trap (s : State) (e : ExcKind) (a : Word) : (s.raise e a).trap = some { kind := e, badVAddr := a } := rfl

@[simp] theorem State.retry_x (s : State) : (s.retry).x = s.x := rfl
@[simp] theorem State.retry_hi (s : State) : (s.retry).hi = s.hi := rfl
@[simp] theorem State.retry_lo (s : State) : (s.retry).lo = s.lo := rfl
@[simp] theorem State.retry_pc (s : State) : (s.retry).pc = s.pc := rfl
@[simp] theorem State.retry_nextPc (s : State) : (s.retry).nextPc = s.nextPc := rfl
@[simp] theorem State.retry_prevPc (s : State) : (s.retry).prevPc = s.prevPc := rfl
@[simp] theorem State.retry_load (s : State) : (s.retry).load = s.load := rfl
@[simp] theorem State.retry_loadValue (s : State) : (s.retry).loadValue = s.loadValue := rfl
@[simp] theorem State.retry_badVAddr (s : State) : (s.retry).badVAddr = s.badVAddr := rfl
@[simp] theorem State.retry_mem (s : State) : (s.retry).mem = s.mem := rfl
@[simp] theorem State.retry_tlb (s : State) : (s.retry).tlb = s.tlb := rfl
@[simp] theorem State.retry_activeTable (s : State) : (s.retry).activeTable = s.activeTable := rfl
@[simp] theorem State.retry_pageTableSize (s : State) : (s.retry).pageTableSize = s.pageTableSize := rfl
@[simp] theorem State.retry_currentSpace (s : State) : (s.retry).currentSpace = s.currentSpace := rfl
@[simp] theorem State.retry_coremap (s : State) : (s.retry).coremap = s.coremap := rfl
@[simp] theorem State.retry_lastVictim (s : State) : (s.retry).lastVictim = s.lastVictim := rfl
@[simp] theorem State.retry_spaces (s : State) : (s.retry).spaces = s.spaces := rfl
@[simp] theorem State.retry_cfg (s : State) : (s.retry).cfg = s.cfg := rfl
@[simp] theorem State.retry_trap (s : State) : (s.retry).trap = none := rfl

@[simp] theorem State.advancePc_x (s : State) (p : Word) : (s.advancePc p).x = s.x := rfl
@[simp] theorem State.advancePc_hi (s : State) (p : Word) : (s.advancePc p).hi = s.hi := rfl
@[simp] theorem State.advancePc_lo (s : State) (p : Word) : (s.advancePc p).lo = s.lo := rfl
@[simp] theorem State.advancePc_pc (s : State) (p : Word) : (s.advancePc p).pc = s.nextPc := rfl
@[simp] theorem State.advancePc_nextPc (s : State) (p : Word) : (s.advancePc p).nextPc = p := rfl
@[simp] theorem State.advancePc_prevPc (s : State) (p : Word) : (s.advancePc p).prevPc = s.pc := rfl
@[simp] theorem State.advancePc_load (s : State) (p : Word) : (s.advancePc p).load = s.load := rfl
@[simp] theorem State.advancePc_loadValue (s : State) (p : Word) : (s.advancePc p).loadValue = s.loadValue := rfl
@[simp] theorem State.advancePc_badVAddr (s : State) (p : Word) : (s.advancePc p).badVAddr = s.badVAddr := rfl
@[simp] theorem State.advancePc_mem (s : State) (p : Word) : (s.advancePc p).mem = s.mem := rfl
@[simp] theorem State.advancePc_tlb (s : State) (p : Word) : (s.advancePc p).tlb = s.tlb := rfl
@[simp] theorem State.advancePc_activeTable (s : State) (p : Word) : (s.advancePc p).activeTable = s.activeTable := rfl
@[simp] theorem State.advancePc_pageTableSize (s : State) (p : Word) : (s.advancePc p).pageTableSize = s.pageTableSize := rfl
@[simp] theorem State.advancePc_currentSpace (s : State) (p : Word) : (s.advancePc p).currentSpace = s.currentSpace := rfl
@[simp] theorem State.advancePc_coremap (s : State) (p : Word) : (s.advancePc p).coremap = s.coremap := rfl
@[simp] theorem State.advancePc_lastVictim (s : State) (p : Word) : (s.advancePc p).lastVictim = s.lastVictim := rfl
@[simp] theorem State.advancePc_spaces (s : State) (p : Word) : (s.advancePc p).spaces = s.spaces := rfl
@[simp] theorem State.advancePc_cfg (s : State) (p : Word) : (s.advancePc p).cfg = s.cfg := rfl
@[simp] theorem State.advancePc_trap (s : State) (p : Word) : (s.advancePc p).trap = s.trap := rfl

@[simp] theorem State.continuePast_x (s : State) : (s.continuePast).x = s.x := rfl
@[simp] theorem State.continuePast_hi (s : State) : (s.continuePast).hi = s.hi := rfl
@[simp] theorem State.continuePast_lo (s : State) : (s.continuePast).lo = s.lo := rfl
@[simp] theorem State.continuePast_pc (s : State) : (s.continuePast).pc = s.nextPc := rfl
@[simp] theorem State.continuePast_nextPc (s : State) : (s.continuePast).nextPc = s.nextPc + 4 := rfl
@[simp] theorem State.continuePast_prevPc (s : State) : (s.continuePast).prevPc = s.pc := rfl
@[simp] theorem State.continuePast_load (s : State) : (s.continuePast).load = s.load := rfl
@[simp] theorem State.continuePast_loadValue (s : State) : (s.continuePast).loadValue = s.loadValue := rfl
@[simp] theorem State.continuePast_badVAddr (s : State) : (s.continuePast).badVAddr = s.badVAddr := rfl
@[simp] theorem State.continuePast_mem (s : State) : (s.continuePast).mem = s.mem := rfl
@[simp] theorem State.continuePast_tlb (s : State) : (s.continuePast).tlb = s.tlb := rfl
@[simp] theorem State.continuePast_activeTable (s : State) : (s.continuePast).activeTable = s.activeTable := rfl
@[simp] theorem State.continuePast_pageTableSize (s : State) : (s.continuePast).pageTableSize = s.pageTableSize := rfl
@[simp] theorem State.continuePast_currentSpace (s : State) : (s.continuePast).currentSpace = s.currentSpace := rfl
@[simp] theorem State.continuePast_coremap (s : State) : (s.continuePast).coremap = s.coremap := rfl
@[simp] theorem State.continuePast_lastVictim (s : State) : (s.continuePast).lastVictim = s.lastVictim := rfl
@[simp] theorem State.continuePast_spaces (s : State) : (s.continuePast).spaces = s.spaces := rfl
@[simp] theorem State.continuePast_cfg (s : State) : (s.continuePast).cfg = s.cfg := rfl
@[simp] theorem State.continuePast_trap (s : State) : (s.continuePast).trap = none := rfl

@[simp] theorem State.commitLoad_x (s : State) (r : RegNum) (v : Word) : (s.commitLoad r v).x = (s.setX s.load s.loadValue).x := rfl
@[simp] theorem State.commitLoad_hi (s : State) (r : RegNum) (v : Word) : (s.commitLoad r v).hi = s.hi := rfl
@[simp] theorem State.commitLoad_lo (s : State) (r : RegNum) (v : Word) : (s.commitLoad r v).lo = s.lo := rfl
@[simp] theorem State.commitLoad_pc (s : State) (r : RegNum) (v : Word) : (s.commitLoad r v).pc = s.pc := rfl
@[simp] theorem State.commitLoad_nextPc (s : State) (r : RegNum) (v : Word) : (s.commitLoad r v).nextPc = s.nextPc := rfl
@[simp] theorem State.commitLoad_prevPc (s : State) (r : RegNum) (v : Word) : (s.commitLoad r v).prevPc = s.prevPc := rfl
@[simp] theorem State.commitLoad_load (s : State) (r : RegNum) (v : Word) : (s.commitLoad r v).load = r := rfl
@[simp] theorem State.commitLoad_loadValue (s : State) (r : RegNum) (v : Word) : (s.commitLoad r v).loadValue = v := rfl
@[simp] theorem State.commitLoad_badVAddr (s : State) (r : RegNum) (v : Word) : (s.commitLoad r v).badVAddr = s.badVAddr := rfl
@[simp] theorem State.commitLoad_mem (s : State) (r : RegNum) (v : Word) : (s.commitLoad r v).mem = s.mem := rfl
@[simp] theorem State.commitLoad_tlb (s : State) (r : RegNum) (v : Word) : (s.commitLoad r v).tlb = s.tlb := rfl
@[simp] theorem State.commitLoad_activeTable (s : State) (r : RegNum) (v : Word) : (s.commitLoad r v).activeTable = s.activeTable := rfl
@[simp] theorem State.commitLoad_pageTableSize (s : State) (r : RegNum) (v : Word) : (s.commitLoad r v).pageTableSize = s.pageTableSize := rfl
@[simp] theorem State.commitLoad_currentSpace (s : State) (r : RegNum) (v : Word) : (s.commitLoad r v).currentSpace = s.currentSpace := rfl
@[simp] theorem State.commitLoad_coremap (s : State) (r : RegNum) (v : Word) : (s.commitLoad r v).coremap = s.coremap := rfl
@[simp] theorem State.commitLoad_lastVictim (s : State) (r : RegNum) (v : Word) : (s.commitLoad r v).lastVictim = s.lastVictim := rfl
@[simp] theorem State.commitLoad_spaces (s : State) (r : RegNum) (v : Word) : (s.commitLoad r v).spaces = s.spaces := rfl
@[simp] theorem State.commitLoad_cfg (s : State) (r : RegNum) (v : Word) : (s.commitLoad r v).cfg = s.cfg := rfl
@[simp] theorem State.commitLoad_trap (s : State) (r : RegNum) (v : Word) : (s.commitLoad r v).trap = s.trap := rfl

@[simp] theorem State.finish_x (s : State) (p : Word) (r : RegNum) (v : Word) : (s.finish p r v).x = (s.setX s.load s.loadValue).x := rfl
@[simp] theorem State.finish_hi (s : State) (p : Word) (r : RegNum) (v : Word) : (s.finish p r v).hi = s.hi := rfl
@[simp] theorem State.finish_lo (s : State) (p : Word) (r : RegNum) (v : Word) : (s.finish p r v).lo = s.lo := rfl
@[simp] theorem State.finish_pc (s : State) (p : Word) (r : RegNum) (v : Word) : (s.finish p r v).pc = s.nextPc := rfl
@[simp] theorem State.finish_nextPc (s : State) (p : Word) (r : RegNum) (v : Word) : (s.finish p r v).nextPc = p := rfl
@[simp] theorem State.finish_prevPc (s : State) (p : Word) (r : RegNum) (v : Word) : (s.finish p r v).prevPc = s.pc := rfl
@[simp] theorem State.finish_load (s : State) (p : Word) (r : RegNum) (v : Word) : (s.finish p r v).load = r := rfl
@[simp] theorem State.finish_loadValue (s : State) (p : Word) (r : RegNum) (v : Word) : (s.finish p r v).loadValue = v := rfl
@[simp] theorem State.finish_badVAddr (s : State) (p : Word) (r : RegNum) (v : Word) : (s.finish p r v).badVAddr = s.badVAddr := rfl
@[simp] theorem State.finish_mem (s : State) (p : Word) (r : RegNum) (v : Word) : (s.finish p r v).mem = s.mem := rfl
@[simp] theorem State.finish_tlb (s : State) (p : Word) (r : RegNum) (v : Word) : (s.finish p r v).tlb = s.tlb := rfl
@[simp] theorem State.finish_activeTable (s : State) (p : Word) (r : RegNum) (v : Word) : (s.finish p r v).activeTable = s.activeTable := rfl
@[simp] theorem State.finish_pageTableSize (s : State) (p : Word) (r : RegNum) (v : Word) : (s.finish p r v).pageTableSize = s.pageTableSize := rfl
@[simp] theorem State.finish_currentSpace (s : State) (p : Word) (r : RegNum) (v : Word) : (s.finish p r v).currentSpace = s.currentSpace := rfl
@[simp] theorem State.finish_coremap (s : State) (p : Word) (r : RegNum) (v : Word) : (s.finish p r v).coremap = s.coremap := rfl
@[simp] theorem State.finish_lastVictim (s : State) (p : Word) (r : RegNum) (v : Word) : (s.finish p r v).lastVictim = s.lastVictim := rfl
@[simp] theorem State.finish_spaces (s : State) (p : Word) (r : RegNum) (v : Word) : (s.finish p r v).spaces = s.spaces := rfl
@[simp] theorem State.finish_cfg (s : State) (p : Word) (r : RegNum) (v : Word) : (s.finish p r v).cfg = s.cfg := rfl
@[simp] theorem State.finish_trap (s : State) (p : Word) (r : RegNum) (v : Word) : (s.finish p r v).trap = none := rfl

@[simp] theorem State.setHiLo_x (s : State) (h l : Word) : (s.setHiLo h l).x = s.x := rfl
@[simp] theorem State.setHiLo_hi (s : State) (h l : Word) : (s.setHiLo h l).hi = h := rfl
@[simp] theorem State.setHiLo_lo (s : State) (h l : Word) : (s.setHiLo h l).lo = l := rfl
@[simp] theorem State.setHiLo_pc (s : State) (h l : Word) : (s.setHiLo h l).pc = s.pc := rfl
@[simp] theorem State.setHiLo_nextPc (s : State) (h l : Word) : (s.setHiLo h l).nextPc = s.nextPc := rfl
@[simp] theorem State.setHiLo_prevPc (s : State) (h l : Word) : (s.setHiLo h l).prevPc = s.prevPc := rfl
@[simp] theorem State.setHiLo_load (s : State) (h l : Word) : (s.setHiLo h l).load = s.load := rfl
@[simp] theorem State.setHiLo_loadValue (s : State) (h l : Word) : (s.setHiLo h l).loadValue = s.loadValue := rfl
@[simp] theorem State.setHiLo_badVAddr (s : State) (h l : Word) : (s.setHiLo h l).badVAddr = s.badVAddr := rfl
@[simp] theorem State.setHiLo_mem (s : State) (h l : Word) : (s.setHiLo h l).mem = s.mem := rfl
@[simp] theorem State.setHiLo_tlb (s : State) (h l : Word) : (s.setHiLo h l).tlb = s.tlb := rfl
@[simp] theorem State.setHiLo_activeTable (s : State) (h l : Word) : (s.setHiLo h l).activeTable = s.activeTable := rfl
@[simp] theorem State.setHiLo_pageTableSize (s : State) (h l : Word) : (s.setHiLo h l).pageTableSize = s.pageTableSize := rfl
@[simp] theorem State.setHiLo_currentSpace (s : State) (h l : Word) : (s.setHiLo h l).currentSpace = s.currentSpace := rfl
@[simp] theorem State.setHiLo_coremap (s : State) (h l : Word) : (s.setHiLo h l).coremap = s.coremap := rfl
@[simp] theorem State.setHiLo_lastVictim (s : State) (h l : Word) : (s.setHiLo h l).lastVictim = s.lastVictim := rfl
@[simp] theorem State.setHiLo_spaces (s : State) (h l : Word) : (s.setHiLo h l).spaces = s.spaces := rfl
@[simp] theorem State.setHiLo_cfg (s : State) (h l : Word) : (s.setHiLo h l).cfg = s.cfg := rfl
@[simp] theorem State.setHiLo_trap (s : State) (h l : Word) : (s.setHiLo h l).trap = s.trap := rfl

@[simp] theorem State.touch_x (s : State) (r : EntryRef) (w : Bool) : (s.touch r w).x = s.x := by cases r <;> rfl
@[simp] theorem State.touch_hi (s : State) (r : EntryRef) (w : Bool) : (s.touch r w).hi = s.hi := by cases r <;> rfl
@[simp] theorem State.touch_lo (s : State) (r : EntryRef) (w : Bool) : (s.touch r w).lo = s.lo := by cases r <;> rfl
@[simp] theorem State.touch_pc (s : State) (r : EntryRef) (w : Bool) : (s.touch r w).pc = s.pc := by cases r <;> rfl
@[simp] theorem State.touch_nextPc (s : State) (r : EntryRef) (w : Bool) : (s.touch r w).nextPc = s.nextPc := by cases r <;> rfl
@[simp] theorem State.touch_prevPc (s : State) (r : EntryRef) (w : Bool) : (s.touch r w).prevPc = s.prevPc := by cases r <;> rfl
@[simp] theorem State.touch_load (s : State) (r : EntryRef) (w : Bool) : (s.touch r w).load = s.load := by cases r <;> rfl
@[simp] theorem State.touch_loadValue (s : State) (r : EntryRef) (w : Bool) : (s.touch r w).loadValue = s.loadValue := by cases r <;> rfl
@[simp] theorem State.touch_badVAddr (s : State) (r : EntryRef) (w : Bool) : (s.touch r w).badVAddr = s.badVAddr := by cases r <;> rfl
@[simp] theorem State.touch_mem (s : State) (r : EntryRef) (w : Bool) : (s.touch r w).mem = s.mem := by cases r <;> rfl
@[simp] theorem State.touch_activeTable (s : State) (r : EntryRef) (w : Bool) : (s.touch r w).activeTable = s.activeTable := by cases r <;> rfl
@[simp] theorem State.touch_pageTableSize (s : State) (r : EntryRef) (w : Bool) : (s.touch r w).pageTableSize = s.pageTableSize := by cases r <;> rfl
@[simp] theorem State.touch_currentSpace (s : State) (r : EntryRef) (w : Bool) : (s.touch r w).currentSpace = s.currentSpace := by cases r <;> rfl
@[simp] theorem State.touch_coremap (s : State) (r : EntryRef) (w : Bool) : (s.touch r w).coremap = s.coremap := by cases r <;> rfl
@[simp] theorem State.touch_lastVictim (s : State) (r : EntryRef) (w : Bool) : (s.touch r w).lastVictim = s.lastVictim := by cases r <;> rfl
@[simp] theorem State.touch_cfg (s : State) (r : EntryRef) (w : Bool) : (s.touch r w).cfg = s.cfg := by cases r <;> rfl
@[simp] theorem State.touch_trap (s : State) (r : EntryRef) (w : Bool) : (s.touch r w).trap = s.trap := by cases r <;> rfl

@[simp] theorem State.modifyEntry_x (s : State) (r : EntryRef) (f : TranslationEntry → TranslationEntry) : (s.modifyEntry r f).x = s.x := by cases r <;> rfl
@[simp] theorem State.modifyEntry_hi (s : State) (r : EntryRef) (f : TranslationEntry → TranslationEntry) : (s.modifyEntry r f).hi = s.hi := by cases r <;> rfl
@[simp] theorem State.modifyEntry_lo (s : State) (r : EntryRef) (f : TranslationEntry → TranslationEntry) : (s.modifyEntry r f).lo = s.lo := by cases r <;> rfl
@[simp] theorem State.modifyEntry_pc (s : State) (r : EntryRef) (f : TranslationEntry → TranslationEntry) : (s.modifyEntry r f).pc = s.pc := by cases r <;> rfl
@[simp] theorem State.modifyEntry_nextPc (s : State) (r : EntryRef) (f : TranslationEntry → TranslationEntry) : (s.modifyEntry r f).nextPc = s.nextPc := by cases r <;> rfl
@[simp] theorem State.modifyEntry_prevPc (s : State) (r : EntryRef) (f : TranslationEntry → TranslationEntry) : (s.modifyEntry r f).prevPc = s.prevPc := by cases r <;> rfl
@[simp] theorem State.modifyEntry_load (s : State) (r : EntryRef) (f : TranslationEntry → TranslationEntry) : (s.modifyEntry r f).load = s.load := by cases r <;> rfl
@[simp] theorem State.modifyEntry_loadValue (s : State) (r : EntryRef) (f : TranslationEntry → TranslationEntry) : (s.modifyEntry r f).loadValue = s.loadValue := by cases r <;> rfl
@[simp] theorem State.modifyEntry_badVAddr (s : State) (r : EntryRef) (f : TranslationEntry → TranslationEntry) : (s.modifyEntry r f).badVAddr = s.badVAddr := by cases r <;> rfl
@[simp] theorem State.modifyEntry_mem (s : State) (r : EntryRef) (f : TranslationEntry → TranslationEntry) : (s.modifyEntry r f).mem = s.mem := by cases r <;> rfl
@[simp] theorem State.modifyEntry_activeTable (s : State) (r : EntryRef) (f : TranslationEntry → TranslationEntry) : (s.modifyEntry r f).activeTable = s.activeTable := by cases r <;> rfl
@[simp] theorem State.modifyEntry_pageTableSize (s : State) (r : EntryRef) (f : TranslationEntry → TranslationEntry) : (s.modifyEntry r f).pageTableSize = s.pageTableSize := by cases r <;> rfl
@[simp] theorem State.modifyEntry_currentSpace (s : State) (r : EntryRef) (f : TranslationEntry → TranslationEntry) : (s.modifyEntry r f).currentSpace = s.currentSpace := by cases r <;> rfl
@[simp] theorem State.modifyEntry_coremap (s : State) (r : EntryRef) (f : TranslationEntry → TranslationEntry) : (s.modifyEntry r f).coremap = s.coremap := by cases r <;> rfl
@[simp] theorem State.modifyEntry_lastVictim (s : State) (r : EntryRef) (f : TranslationEntry → TranslationEntry) : (s.modifyEntry r f).lastVictim = s.lastVictim := by cases r <;> rfl
@[simp] theorem State.modifyEntry_cfg (s : State) (r : EntryRef) (f : TranslationEntry → TranslationEntry) : (s.modifyEntry r f).cfg = s.cfg := by cases r <;> rfl
@[simp] theorem State.modifyEntry_trap (s : State) (r : EntryRef) (f : TranslationEntry → TranslationEntry) : (s.modifyEntry r f).trap = s.trap := by cases r <;> rfl

@[simp] theorem State.setClaim_x (s : State) (f : Nat) (c : Option Claim) : (s.setClaim f c).x = s.x := rfl
@[simp] theorem State.setClaim_hi (s : State) (f : Nat) (c : Option Claim) : (s.setClaim f c).hi = s.hi := rfl
@[simp] theorem State.setClaim_lo (s : State) (f : Nat) (c : Option Claim) : (s.setClaim f c).lo = s.lo := rfl
@[simp] theorem State.setClaim_pc (s : State) (f : Nat) (c : Option Claim) : (s.setClaim f c).pc = s.pc := rfl
@[simp] theorem State.setClaim_nextPc (s : State) (f : Nat) (c : Option Claim) : (s.setClaim f c).nextPc = s.nextPc := rfl
@[simp] theorem State.setClaim_prevPc (s : State) (f : Nat) (c : Option Claim) : (s.setClaim f c).prevPc = s.prevPc := rfl
@[simp] theorem State.setClaim_load (s : State) (f : Nat) (c : Option Claim) : (s.setClaim f c).load = s.load := rfl
@[simp] theorem State.setClaim_loadValue (s : State) (f : Nat) (c : Option Claim) : (s.setClaim f c).loadValue = s.loadValue := rfl
@[simp] theorem State.setClaim_badVAddr (s : State) (f : Nat) (c : Option Claim) : (s.setClaim f c).badVAddr = s.badVAddr := rfl
@[simp] theorem State.setClaim_mem (s : State) (f : Nat) (c : Option Claim) : (s.setClaim f c).mem = s.mem := rfl
@[simp] theorem State.setClaim_tlb (s : State) (f : Nat) (c : Option Claim) : (s.setClaim f c).tlb = s.tlb := rfl
@[simp] theorem State.setClaim_activeTable (s : State) (f : Nat) (c : Option Claim) : (s.setClaim f c).activeTable = s.activeTable := rfl
@[simp] theorem State.setClaim_pageTableSize (s : State) (f : Nat) (c : Option Claim) : (s.setClaim f c).pageTableSize = s.pageTableSize := rfl
@[simp] theorem State.setClaim_currentSpace (s : State) (f : Nat) (c : Option Claim) : (s.setClaim f c).currentSpace = s.currentSpace := rfl
@[simp] theorem State.setClaim_coremap (s : State) (f : Nat) (c : Option Claim) : (s.setClaim f c).coremap = s.coremap.set f c := rfl
@[simp] theorem State.setClaim_lastVictim (s : State) (f : Nat) (c : Option Claim) : (s.setClaim f c).lastVictim = s.lastVictim := rfl
@[simp] theorem State.setClaim_spaces (s : State) (f : Nat) (c : Option Claim) : (s.setClaim f c).spaces = s.spaces := rfl
@[simp] theorem State.setClaim_cfg (s : State) (f : Nat) (c : Option Claim) : (s.setClaim f c).cfg = s.cfg := rfl
@[simp] theorem State.setClaim_trap (s : State) (f : Nat) (c : Option Claim) : (s.setClaim f c).trap = s.trap := rfl

@[simp] theorem State.fillFrame_x (s : State) (f : Nat) (b : List Byte) : (s.fillFrame f b).x = s.x := rfl
@[simp] theorem State.fillFrame_hi (s : State) (f : Nat) (b : List Byte) : (s.fillFrame f b).hi = s.hi := rfl
@[simp] theorem State.fillFrame_lo (s : State) (f : Nat) (b : List Byte) : (s.fillFrame f b).lo = s.lo := rfl
@[simp] theorem State.fillFrame_pc (s : State) (f : Nat) (b : List Byte) : (s.fillFrame f b).pc = s.pc := rfl
@[simp] theorem State.fillFrame_nextPc (s : State) (f : Nat) (b : List Byte) : (s.fillFrame f b).nextPc = s.nextPc := rfl
@[simp] theorem State.fillFrame_prevPc (s : State) (f : Nat) (b : List Byte) : (s.fillFrame f b).prevPc = s.prevPc := rfl
@[simp] theorem State.fillFrame_load (s : State) (f : Nat) (b : List Byte) : (s.fillFrame f b).load = s.load := rfl
@[simp] theorem State.fillFrame_loadValue (s : State) (f : Nat) (b : List Byte) : (s.fillFrame f b).loadValue = s.loadValue := rfl
@[simp] theorem State.fillFrame_badVAddr (s : State) (f : Nat) (b : List Byte) : (s.fillFrame f b).badVAddr = s.badVAddr := rfl
@[simp] theorem State.fillFrame_mem (s : State) (f : Nat) (b : List Byte) : (s.fillFrame f b).mem = Memory.writeBytes s.mem (f * s.cfg.pageSize) b := rfl
@[simp] theorem State.fillFrame_tlb (s : State) (f : Nat) (b : List Byte) : (s.fillFrame f b).tlb = s.tlb := rfl
@[simp] theorem State.fillFrame_activeTable (s : State) (f : Nat) (b : List Byte) : (s.fillFrame f b).activeTable = s.activeTable := rfl
@[simp] theorem State.fillFrame_pageTableSize (s : State) (f : Nat) (b : List Byte) : (s.fillFrame f b).pageTableSize = s.pageTableSize := rfl
@[simp] theorem State.fillFrame_currentSpace (s : State) (f : Nat) (b : List Byte) : (s.fillFrame f b).currentSpace = s.currentSpace := rfl
@[simp] theorem State.fillFrame_coremap (s : State) (f : Nat) (b : List Byte) : (s.fillFrame f b).coremap = s.coremap := rfl
@[simp] theorem State.fillFrame_lastVictim (s : State) (f : Nat) (b : List Byte) : (s.fillFrame f b).lastVictim = s.lastVictim := rfl
@[simp] theorem State.fillFrame_spaces (s : State) (f : Nat) (b : List Byte) : (s.fillFrame f b).spaces = s.spaces := rfl
@[simp] theorem State.fillFrame_cfg (s : State) (f : Nat) (b : List Byte) : (s.fillFrame f b).cfg = s.cfg := rfl
@[simp] theorem State.fillFrame_trap (s : State) (f : Nat) (b : List Byte) : (s.fillFrame f b).trap = s.trap := rfl

@[simp] theorem State.done_eq (s : State) : s.done = s.finish (s.nextPc + 4) 0 0 := rfl

@[simp] theorem State.jumpTo_eq (s : State) (p : Word) : s.jumpTo p = s.finish p 0 0 := rfl

@[simp] theorem State.loadDelayed_eq (s : State) (r : RegNum) (v : Word) : s.loadDelayed r v = s.finish (s.nextPc + 4) r v := rfl

theorem State.branchIf_eq (s : State) (c : Bool) (imm : BitVec 16) :
    s.branchIf c imm = s.finish (if c then branchTarget s.nextPc imm else s.nextPc + 4) 0 0 := by
  cases c <;> rfl

/-- Register 0 reads 0 (R12). -/
@[simp] theorem State.getX_zero (s : State) : s.getX 0 = 0 := rfl

/-- A general register read depends on the register file only. -/
theorem State.getX_congr {s t : State} (h : t.x = s.x) (r : RegNum) : t.getX r = s.getX r := by
  simp [State.getX, h]

/-- What a register reads after an immediate write (R12). -/
theorem State.getX_setX (s : State) (q r : RegNum) (v : Word) :
    (s.setX q v).getX r = if r = 0 then 0 else if r = q then v else s.getX r := by
  unfold State.getX
  by_cases hr : r = 0
  · simp [hr]
  by_cases hq : q = 0
  · have : r ≠ q := fun h => hr (h.trans hq)
    simp [hr, hq]
  · by_cases hrq : r = q
    · simp [hrq, hq]
    · have : ¬ (q : Nat) = (r : Nat) := fun h => hrq (Fin.ext h.symm)
      simp [hr, hq, hrq, this]

/-- What a register reads when a step has completed: the load that was pending has landed over what the step wrote (R32, R289). -/
@[simp] theorem State.getX_finish (s : State) (p : Word) (q r : RegNum) (v : Word) :
    (s.finish p q v).getX r = if r = 0 then 0 else if r = s.load then s.loadValue else s.getX r := by
  rw [State.getX_congr (s := s.setX s.load s.loadValue) (by simp), State.getX_setX]

/-- What a register reads after an exception (R244, R245). -/
theorem State.getX_raise (s : State) (e : ExcKind) (a : Word) (r : RegNum) :
    (s.raise e a).getX r =
      if r = 0 then 0 else if s.cfg.excDrainsLoad ∧ r = s.load then s.loadValue else s.getX r := by
  by_cases h : s.cfg.excDrainsLoad
  · rw [State.getX_congr (s := s.setX s.load s.loadValue) (by simp [h]), State.getX_setX]
    simp [h]
  · rw [State.getX_congr (s := s) (by simp [h])]
    by_cases hr : r = 0 <;> simp [h, hr]

@[simp] theorem State.getX_touch (s : State) (e : EntryRef) (w : Bool) (r : RegNum) : (s.touch e w).getX r = s.getX r :=
  State.getX_congr (by simp) r

@[simp] theorem State.getX_modifyEntry (s : State) (e : EntryRef) (f : TranslationEntry → TranslationEntry) (r : RegNum) :
    (s.modifyEntry e f).getX r = s.getX r :=
  State.getX_congr (by simp) r

@[simp] theorem State.getX_setHiLo (s : State) (h l : Word) (r : RegNum) : (s.setHiLo h l).getX r = s.getX r := rfl

@[simp] theorem State.getX_mem (s : State) (m : List Host.Cell) (r : RegNum) : ({ s with mem := m } : State).getX r = s.getX r := rfl

end Sys2Proof.Machine
end

