-- ==== Sys2Proof/Laws/Translate.lean ====
section
/-! SUPPORT. What the registry of spaces, the translation entries and the translator can do: one lemma per operation. -/
namespace Sys2Proof.Machine

theorem Spaces.get_modify (l : List (Nat × AddressSpace)) (id j : Nat) (f : AddressSpace → AddressSpace) :
    Spaces.get (Spaces.modify l id f) j = if j = id then (Spaces.get l j).map f else Spaces.get l j := by
  induction l with
  | nil => simp [Spaces.get, Spaces.modify]
  | cons p rest ih =>
    obtain ⟨k, S⟩ := p
    simp only [Spaces.modify, List.map_cons, Spaces.get] at ih ⊢
    by_cases hk : k = id
    · subst hk
      by_cases hj : k = j
      · subst hj; simp
      · have hj' : j ≠ k := Ne.symm hj
        simp only [if_true, hj, hj', if_false] at ih ⊢
        exact ih
    · by_cases hj : k = j
      · subst hj; simp [hk]
      · simp only [hk, if_false, hj]
        exact ih

theorem Spaces.get_insert (l : List (Nat × AddressSpace)) (id j : Nat) (S : AddressSpace) :
    Spaces.get (Spaces.insert l id S) j = if j = id then some S else Spaces.get l j := by
  induction l with
  | nil => by_cases h : j = id <;> simp [Spaces.get, Spaces.insert, h, Ne.symm]
  | cons p rest ih =>
    obtain ⟨k, T⟩ := p
    rw [Spaces.insert]
    split
    · rename_i hlt
      by_cases hj : k = j
      · have : j ≠ id := by omega
        simp [Spaces.get, hj, this]
      · simp [Spaces.get, hj, ih]
    · split
      · rename_i _ heq
        subst heq
        by_cases hj : k = j
        · simp [Spaces.get, hj]
        · simp [Spaces.get, hj, Ne.symm hj]
      · by_cases hj : id = j
        · simp [Spaces.get, hj]
        · have : j ≠ id := Ne.symm hj
          simp [Spaces.get, hj, this]

theorem Spaces.get_erase (l : List (Nat × AddressSpace)) (id j : Nat) :
    Spaces.get (Spaces.erase l id) j = if j = id then none else Spaces.get l j := by
  induction l with
  | nil => simp [Spaces.get, Spaces.erase]
  | cons p rest ih =>
    obtain ⟨k, S⟩ := p
    simp only [Spaces.erase, List.filter_cons] at ih ⊢
    by_cases hk : k = id
    · subst hk
      by_cases hj : j = k
      · simpa [hj] using ih
      · simpa [hj, Spaces.get, Ne.symm hj] using ih
    · by_cases hj : k = j
      · subst hj; simp [Spaces.get, hk]
      · simp only [hk, ne_eq, not_false_eq_true, decide_true, if_true, Spaces.get, hj, if_false]
        exact ih

theorem Spaces.keys_modify (l : List (Nat × AddressSpace)) (id : Nat) (f : AddressSpace → AddressSpace) :
    (Spaces.modify l id f).map Prod.fst = l.map Prod.fst := by
  simp only [Spaces.modify, List.map_map]
  apply List.map_congr_left
  intro p _
  simp only [Function.comp]
  split <;> rfl

/-- Where identifiers rise, a listed space is the one its identifier finds. -/
theorem Spaces.get_of_mem {l : List (Nat × AddressSpace)} {p : Nat × AddressSpace} (h : l.Pairwise fun p q => p.1 < q.1)
    (hp : p ∈ l) : Spaces.get l p.1 = some p.2 := by
  induction l with
  | nil => cases hp
  | cons q rest ih =>
    obtain ⟨hq, hrest⟩ := List.pairwise_cons.mp h
    rcases List.mem_cons.mp hp with rfl | hp
    · simp [Spaces.get]
    · rw [Spaces.get, if_neg (Nat.ne_of_lt (hq p hp)), ih hrest hp]

/-- The space an entry change leaves at an identifier. -/
theorem State.space_modifyEntry (s : State) (r : EntryRef) (f : TranslationEntry → TranslationEntry) (j : Nat) :
    (s.modifyEntry r f).space j =
      match r with
      | .table id vpn =>
        if j = id then (s.space j).map fun S => { S with pageTable := S.pageTable.modify vpn f } else s.space j
      | .tlb _ => s.space j := by
  cases r with
  | table id vpn => exact Spaces.get_modify s.spaces id j fun S => { S with pageTable := S.pageTable.modify vpn f }
  | tlb i => rfl

/-- The page-table entries after one of them changed. -/
theorem State.pte_modifyEntry (s : State) (r : EntryRef) (f : TranslationEntry → TranslationEntry) (j v : Nat) :
    (s.modifyEntry r f).pte j v = if r = .table j v then (s.pte j v).map f else s.pte j v := by
  unfold State.pte
  rw [State.space_modifyEntry]
  cases r with
  | tlb i => simp
  | table id vpn =>
    by_cases hj : j = id
    · subst hj
      cases hS : s.space j with
      | none => simp
      | some S =>
        by_cases hv : vpn = v
        · subst hv; simp
        · simp [hv]
    · have hj' : ¬ id = j := Ne.symm hj
      simp [hj, hj']

/-- The TLB entries after an entry changed. -/
theorem State.tlb_modifyEntry (s : State) (r : EntryRef) (f : TranslationEntry → TranslationEntry) (i : Fin 4) :
    (s.modifyEntry r f).tlb[i] = if r = .tlb i then f s.tlb[i] else s.tlb[i] := by
  cases r with
  | table id vpn => simp [State.modifyEntry]
  | tlb j =>
    by_cases h : j = i
    · subst h; simp [State.modifyEntry]
    · have : ¬ (j : Nat) = (i : Nat) := fun e => h (Fin.ext e)
      simp [State.modifyEntry, h, this]

/-- The entry at a place after an entry changed. -/
theorem State.entryAt_modifyEntry (s : State) (r q : EntryRef) (f : TranslationEntry → TranslationEntry) :
    (s.modifyEntry r f).entryAt q = if r = q then (s.entryAt q).map f else s.entryAt q := by
  cases q with
  | table id vpn => exact State.pte_modifyEntry s r f id vpn
  | tlb i =>
    simp only [State.entryAt, State.tlb_modifyEntry]
    split <;> rfl

/-- Everything a lookup that hits says: the place holds the entry, it is valid, and it belongs to the active source. -/
theorem State.lookup_hit {s : State} {vpn : Nat} {r : EntryRef} {e : TranslationEntry} (h : s.lookup vpn = .hit r e) :
    s.entryAt r = some e ∧ e.valid = true ∧
    ((s.cfg.useTlb = true ∧ ∃ i, r = .tlb i ∧ s.tlbFind vpn = some i ∧ e.virtualPage = vpn) ∨
     (s.cfg.useTlb = false ∧ ∃ id, r = .table id vpn ∧ s.activeTable = some id ∧ vpn < s.pageTableSize)) := by
  unfold State.lookup at h
  split at h
  · rename_i hu
    unfold State.lookupTlb at h
    split at h
    · rename_i i hi
      injection h with h1 h2
      subst h1 h2
      have hp := List.find?_some hi
      simp only [Bool.and_eq_true, beq_iff_eq] at hp
      exact ⟨rfl, hp.1, .inl ⟨hu, i, rfl, hi, hp.2⟩⟩
    · cases h
  · rename_i hu
    unfold State.lookupTable at h
    split at h
    · cases h
    · rename_i id S hS
      split at h
      · cases h
      · rename_i hlt
        split at h
        · cases h
        · rename_i e' he
          split at h
          · rename_i hv
            injection h with h1 h2
            subst h1 h2
            unfold State.activePageTable at hS
            split at hS
            · rename_i id' hid
              cases hsp : s.space id' with
              | none => simp [hsp] at hS
              | some T =>
                simp only [hsp, Option.map_some, Option.some.injEq, Prod.mk.injEq] at hS
                obtain ⟨rfl, rfl⟩ := hS
                refine ⟨?_, hv, .inr ⟨by simpa using hu, id', rfl, hid, by omega⟩⟩
                simp [State.entryAt, State.pte, hsp, he]
            · cases hS
          · cases h

/-- A lookup that hits found its entry in the TLB or in an installed page table. -/
theorem State.noTableInstalled_of_hit {s : State} {vpn : Nat} {r : EntryRef} {e : TranslationEntry} (h : s.lookup vpn = .hit r e) :
    s.noTableInstalled = false := by
  unfold State.noTableInstalled
  unfold State.lookup at h
  split at h
  · rename_i hu; simp [hu]
  · unfold State.lookupTable at h
    split at h
    · cases h
    · rename_i ha; simp [ha]

/-- Everything a successful translation says (R44). -/
theorem State.translate_ok {s : State} {va : Word} {size : AccessSize} {w : Bool} {p : Nat} {t : State}
    (h : s.translate va size w = .ok p t) :
    size.aligned va = true ∧ ∃ r e, s.lookup (s.vpnOf va) = .hit r e ∧ (w && e.readOnly) = false ∧
      e.physicalPage < s.cfg.numPhysPages ∧ p = e.physicalPage * s.cfg.pageSize + s.offsetOf va ∧ t = s.touch r w := by
  unfold State.translate at h
  split at h
  · rename_i ha
    split at h
    · cases h
    · cases h
    · rename_i r e hl
      split at h
      · cases h
      · rename_i hw
        split at h
        · cases h
        · rename_i hp
          injection h with h1 h2
          exact ⟨ha, r, e, hl, by simpa using hw, by omega, h1.symm, h2.symm⟩
  · cases h

/-- A translation that succeeds had a source. -/
theorem State.noTableInstalled_of_ok {s : State} {va : Word} {size : AccessSize} {w : Bool} {p : Nat} {t : State}
    (h : s.translate va size w = .ok p t) : s.noTableInstalled = false := by
  obtain ⟨-, r, e, hl, -⟩ := State.translate_ok h
  exact State.noTableInstalled_of_hit hl

/-- An aligned access lies inside one frame of PhysicalMemory (R54). -/
theorem State.translate_range {s : State} {va : Word} {size : AccessSize} {w : Bool} {p : Nat} {t : State}
    (h : s.translate va size w = .ok p t) :
    p / s.cfg.pageSize < s.cfg.numPhysPages ∧ (p + size.bytes - 1) / s.cfg.pageSize = p / s.cfg.pageSize ∧
      p + size.bytes ≤ s.cfg.numPhysPages * s.cfg.pageSize := by
  obtain ⟨ha, r, e, -, -, hf, rfl, -⟩ := State.translate_ok h
  have hpos := s.cfg.pageSize_pos
  have hmul := s.cfg.pageSize_mul
  have hoff : s.offsetOf va < s.cfg.pageSize := Nat.mod_lt _ hpos
  have hal : s.offsetOf va % size.bytes = 0 := by
    have h4 : size.bytes ∣ s.cfg.pageSize := by
      have : size.bytes ∣ 4 := by cases size <;> simp [AccessSize.bytes]
      exact this.trans (Nat.dvd_of_mod_eq_zero hmul)
    simp only [AccessSize.aligned, beq_iff_eq] at ha
    rw [State.offsetOf, Nat.mod_mod_of_dvd _ h4]
    exact ha
  have hend : s.offsetOf va + size.bytes ≤ s.cfg.pageSize := by
    have h4 : s.cfg.pageSize % size.bytes = 0 := by
      cases size <;> simp only [AccessSize.bytes] <;> omega
    cases size <;> simp only [AccessSize.bytes] at hal h4 ⊢ <;> omega
  have hb : 1 ≤ size.bytes := by cases size <;> simp [AccessSize.bytes]
  have hq (k : Nat) (hk : k < s.cfg.pageSize) : (e.physicalPage * s.cfg.pageSize + k) / s.cfg.pageSize = e.physicalPage := by
    rw [Nat.mul_comm, Nat.mul_add_div hpos, Nat.div_eq_of_lt hk, Nat.add_zero]
  refine ⟨by rw [hq _ hoff]; exact hf, ?_, ?_⟩
  · rw [hq _ hoff, show e.physicalPage * s.cfg.pageSize + s.offsetOf va + size.bytes - 1 =
      e.physicalPage * s.cfg.pageSize + (s.offsetOf va + size.bytes - 1) by omega, hq _ (by omega)]
  · calc e.physicalPage * s.cfg.pageSize + s.offsetOf va + size.bytes
        ≤ e.physicalPage * s.cfg.pageSize + s.cfg.pageSize := by omega
      _ = (e.physicalPage + 1) * s.cfg.pageSize := by ring
      _ ≤ s.cfg.numPhysPages * s.cfg.pageSize := Nat.mul_le_mul_right _ hf

/-- A translation changes the bits of one entry only (R51). -/
theorem State.translate_mem {s : State} {va : Word} {size : AccessSize} {w : Bool} {p : Nat} {t : State}
    (h : s.translate va size w = .ok p t) : t.mem = s.mem := by
  obtain ⟨-, r, e, -, -, -, -, rfl⟩ := State.translate_ok h
  simp

/-- A successful read: the translation's, and the value at the address it gives (R53). -/
theorem State.memRead_ok {s : State} {va : Word} {size : AccessSize} {v : Word} {t : State} :
    s.memRead va size = .ok v t ↔ ∃ p, s.translate va size false = .ok p t ∧ v = Memory.readValue s.mem p size := by
  unfold State.memRead
  cases hu : s.translate va size false with
  | ok p u => rw [← State.translate_mem hu]; simp; constructor <;> (rintro ⟨rfl, rfl⟩; simp)
  | exc e => simp
  | refused r => simp

theorem State.memRead_exc {s : State} {va : Word} {size : AccessSize} {e : ExcKind} :
    s.memRead va size = .exc e ↔ s.translate va size false = .exc e := by
  unfold State.memRead
  split <;> simp_all

theorem State.memRead_refused {s : State} {va : Word} {size : AccessSize} {r : Refusal} :
    s.memRead va size = .refused r ↔ s.translate va size false = .refused r := by
  unfold State.memRead
  split <;> simp_all

/-- A successful write: the translation's, and the value stored at the address it gives (R54). -/
theorem State.memWrite_ok {s : State} {va : Word} {size : AccessSize} {v : Word} {t : State} :
    s.memWrite va size v = .ok () t ↔
      ∃ p u, s.translate va size true = .ok p u ∧ t = { u with mem := Memory.writeValue s.mem p v size } := by
  unfold State.memWrite
  cases hu : s.translate va size true with
  | ok p u => rw [← State.translate_mem hu]; simp; constructor <;> (rintro rfl; rfl)
  | exc e => simp
  | refused r => simp

theorem State.memWrite_exc {s : State} {va : Word} {size : AccessSize} {v : Word} {e : ExcKind} :
    s.memWrite va size v = .exc e ↔ s.translate va size true = .exc e := by
  unfold State.memWrite
  split <;> simp_all

theorem State.memWrite_refused {s : State} {va : Word} {size : AccessSize} {v : Word} {r : Refusal} :
    s.memWrite va size v = .refused r ↔ s.translate va size true = .refused r := by
  unfold State.memWrite
  split <;> simp_all

end Sys2Proof.Machine
end

