-- ==== Sys2Proof/Laws/Ops.lean ====
section
/-! SUPPORT. What the shared operations of the instructions can do, one lemma per operation, and what one instruction can do. -/
namespace Sys2Proof.Machine

theorem SameMappings.refl (s : State) : SameMappings s s := ⟨fun _ => rfl, fun _ => rfl⟩

theorem SameMappings.trans {s t u : State} (h : SameMappings s t) (g : SameMappings t u) : SameMappings s u :=
  ⟨fun i => (g.tlb i).trans (h.tlb i), fun id => (g.spaces id).trans (h.spaces id)⟩

/-- A change of `use` and `dirty` bits keeps the mappings. -/
theorem SameMappings.modifyEntry (s : State) (r : EntryRef) (f : TranslationEntry → TranslationEntry)
    (hf : ∀ e, (f e).mapping = e.mapping) : SameMappings s (s.modifyEntry r f) := by
  constructor
  · intro i
    rw [State.tlb_modifyEntry]
    split
    · exact hf _
    · rfl
  · intro id
    rw [State.space_modifyEntry]
    cases r with
    | tlb i => rfl
    | table j v =>
      simp only
      split
      · rw [Option.map_map]
        congr 1
        funext S
        simp only [Function.comp, AddressSpace.mapping, AddressSpace.mk.injEq, and_self, and_true]
        apply List.ext_getElem?
        intro k
        simp only [List.getElem?_map, List.getElem?_modify]
        cases S.pageTable[k]? with
        | none => simp
        | some e => by_cases hk : v = k <;> simp [hk, hf]
      · rfl

theorem SameHiLo.refl (s : State) : SameHiLo s s := ⟨rfl, rfl⟩

theorem SameMemory.refl (s : State) : SameMemory s s := fun _ => rfl

theorem SameEntries.refl (s : State) : SameEntries s s := ⟨rfl, rfl⟩

theorem SameHostState.refl (s : State) : SameHostState s s := ⟨rfl, rfl, rfl, rfl, rfl, rfl⟩

/-- A step that ended normally from a state `u` that agrees with `s` on the PCs, the pending load and `BAD_VADDR`. -/
theorem State.completes_finish {s u : State} (p v : Word) (q : RegNum) (hl : u.load = s.load) (hv : u.loadValue = s.loadValue)
    (hp : u.pc = s.pc) (hn : u.nextPc = s.nextPc) (hb : u.badVAddr = s.badVAddr) :
    Completes s (u.finish p q v) u.getX p q v where
  regs r := by rw [State.getX_finish, hl, hv]
  prevPc := by simp [hp]
  pc := by simp [hn]
  nextPc := by simp
  load := by simp
  loadValue := by simp
  badVAddr := by simp [hb]
  result := by simp

/-- Only the registers a step leaves below the pending load's matter. -/
theorem Completes.congr {s t : State} {f g : RegNum → Word} {p v : Word} {q : RegNum} (h : Completes s t f p q v)
    (hfg : ∀ r, r ≠ 0 → f r = g r) : Completes s t g p q v :=
  { h with
    regs := fun r => by
      rw [h.regs r]
      by_cases hr : r = 0
      · simp [hr]
      · simp [hr, hfg r hr] }

/-- Writing a result ends the step with that one change (R100). -/
theorem State.writeResult_writes (s : State) (rd : RegNum) (v : Word) : Writes rd v s (s.writeResult rd v) :=
  ⟨_, rfl,
    { step := by
        refine (State.completes_finish (s := s) _ _ _ ?_ ?_ ?_ ?_ ?_).congr fun r hr => ?_
        all_goals first | rw [State.getX_setX, if_neg hr] | rfl
      hiLo := ⟨rfl, rfl⟩
      memory := fun _ => rfl
      entries := ⟨rfl, rfl⟩
      hostState := ⟨rfl, rfl, rfl, rfl, rfl, rfl⟩ }⟩

/-- Taking an exception (R244, R245). -/
theorem State.raises_raise (s : State) (e : ExcKind) (a : Word) : Raises e a s (s.raise e a) where
  badVAddr := rfl
  result := rfl
  kept h := by
    refine ⟨fun r => ?_, by simp [h], by simp [h]⟩
    rw [State.getX_raise]
    by_cases hr : r = 0 <;> simp [h, hr]
  drained h := by
    refine ⟨fun r => ?_, by simp [h], by simp [h]⟩
    rw [State.getX_raise]
    simp [h]
  pc := rfl
  nextPc := rfl
  prevPc := rfl
  hiLo := ⟨rfl, rfl⟩
  memory _ := rfl
  entries := ⟨rfl, rfl⟩
  hostState := ⟨rfl, rfl, rfl, rfl, rfl, rfl⟩

/-- A step that only writes `HI` and `LO` (R140). -/
theorem State.completesHiLo_done (s : State) (hi lo : Word) : CompletesHiLo hi lo s (s.setHiLo hi lo).done where
  step := by
    refine State.completes_finish (s := s) _ _ _ ?_ ?_ ?_ ?_ ?_
    all_goals rfl
  hi := rfl
  lo := rfl
  memory _ := rfl
  entries := ⟨rfl, rfl⟩
  hostState := ⟨rfl, rfl, rfl, rfl, rfl, rfl⟩

/-- A transfer of control after a link write, or after none when `rd` is 0 (R170, R177). -/
theorem State.completesJump_finish (s : State) (rd : RegNum) (v p : Word) :
    CompletesJump (fun r => if r = rd ∧ r ≠ 0 then v else s.getX r) p s ((s.setX rd v).finish p 0 0) where
  step := by
    refine (State.completes_finish (s := s) _ _ _ ?_ ?_ ?_ ?_ ?_).congr fun r hr => ?_
    all_goals first | simp [State.getX_setX, hr] | rfl
  hiLo := ⟨rfl, rfl⟩
  memory _ := rfl
  entries := ⟨rfl, rfl⟩
  hostState := ⟨rfl, rfl, rfl, rfl, rfl, rfl⟩

/-- A transfer of control that links nothing (R170). -/
theorem State.completesJump_jumpTo (s : State) (p : Word) : CompletesJump s.getX p s (s.jumpTo p) where
  step := by
    refine State.completes_finish (s := s) _ _ _ ?_ ?_ ?_ ?_ ?_
    all_goals rfl
  hiLo := ⟨rfl, rfl⟩
  memory _ := rfl
  entries := ⟨rfl, rfl⟩
  hostState := ⟨rfl, rfl, rfl, rfl, rfl, rfl⟩

theorem SameHostState.trans {s t u : State} (h : SameHostState s t) (g : SameHostState t u) : SameHostState s u :=
  ⟨g.activeTable.trans h.activeTable, g.pageTableSize.trans h.pageTableSize, g.currentSpace.trans h.currentSpace,
    g.coremap.trans h.coremap, g.lastVictim.trans h.lastVictim, g.cfg.trans h.cfg⟩

/-! ## Data accesses -/

/-- What a change of an entry's bits leaves: the host's state. -/
theorem State.sameHostState_modifyEntry (s : State) (r : EntryRef) (f : TranslationEntry → TranslationEntry) :
    SameHostState s (s.modifyEntry r f) := by
  constructor <;> simp

/-- A read through `reading`, by the translation's outcome (R53, R55). -/
theorem State.reading_ok {s u : State} {va : Word} {size : AccessSize} {p : Nat} (k : Word → State → Result State)
    (h : s.translate va size false = .ok p u) : s.reading va size k = k (Memory.readValue s.mem p size) u := by
  rw [State.reading, State.memRead_ok.mpr ⟨p, h, rfl⟩]

theorem State.reading_exc {s : State} {va : Word} {size : AccessSize} {e : ExcKind} (k : Word → State → Result State)
    (h : s.translate va size false = .exc e) : s.reading va size k = .next (s.raise e va) := by
  rw [State.reading, State.memRead_exc.mpr h]

theorem State.reading_refused {s : State} {va : Word} {size : AccessSize} {r : Refusal} (k : Word → State → Result State)
    (h : s.translate va size false = .refused r) : s.reading va size k = .refused r := by
  rw [State.reading, State.memRead_refused.mpr h]

/-- A write through `storing`, by the translation's outcome (R54, R55). -/
theorem State.storing_ok {s u : State} {va v : Word} {size : AccessSize} {p : Nat} (h : s.translate va size true = .ok p u) :
    s.storing va size v = .next ({ u with mem := Memory.writeValue s.mem p v size } : State).done := by
  rw [State.storing, State.memWrite_ok.mpr ⟨p, u, h, rfl⟩]

theorem State.storing_exc {s : State} {va v : Word} {size : AccessSize} {e : ExcKind} (h : s.translate va size true = .exc e) :
    s.storing va size v = .next (s.raise e va) := by
  rw [State.storing, State.memWrite_exc.mpr h]

theorem State.storing_refused {s : State} {va v : Word} {size : AccessSize} {r : Refusal}
    (h : s.translate va size true = .refused r) : s.storing va size v = .refused r := by
  rw [State.storing, State.memWrite_refused.mpr h]

/-- A successful translation changes nothing but entries: the state after it, written out. -/
theorem State.translate_eq {s u : State} {va : Word} {size : AccessSize} {w : Bool} {p : Nat}
    (h : s.translate va size w = .ok p u) : u = { s with tlb := u.tlb, spaces := u.spaces } := by
  obtain ⟨-, r, e, -, -, -, -, rfl⟩ := State.translate_ok h
  cases r <;> rfl

/-- A translation changes `use` and `dirty` bits only. -/
theorem State.translate_same {s u : State} {va : Word} {size : AccessSize} {w : Bool} {p : Nat}
    (h : s.translate va size w = .ok p u) : SameMappings s u ∧ SameHostState s u := by
  obtain ⟨-, r, e, -, -, -, -, rfl⟩ := State.translate_ok h
  exact ⟨SameMappings.modifyEntry s r _ fun _ => rfl, State.sameHostState_modifyEntry s r _⟩

/-- A load that completes after a translation to `u` (R166). -/
theorem State.completesLoading {s u : State} (rt : RegNum) (v : Word) (h : u = { s with tlb := u.tlb, spaces := u.spaces }) :
    CompletesLoading rt v u s (u.loadDelayed rt v) where
  step := by
    rw [h]
    refine State.completes_finish (s := s) _ _ _ ?_ ?_ ?_ ?_ ?_
    all_goals rfl
  hiLo := by rw [h]; exact ⟨rfl, rfl⟩
  memory _ := by rw [h]; rfl
  entries := ⟨rfl, rfl⟩
  hostState := by rw [h]; exact ⟨rfl, rfl, rfl, rfl, rfl, rfl⟩

/-- A store that completes after a translation to `u` (R54). -/
theorem State.completesStoring {s u : State} (p : Nat) (v : Word) (size : AccessSize) (hwf : Memory.wf s.mem)
    (h : u = { s with tlb := u.tlb, spaces := u.spaces }) :
    CompletesStoring p size.bytes v u s ({ u with mem := Memory.writeValue s.mem p v size } : State).done where
  step := by
    rw [h]
    refine State.completes_finish (s := s) _ _ _ ?_ ?_ ?_ ?_ ?_
    all_goals rfl
  hiLo := by rw [h]; exact ⟨rfl, rfl⟩
  stored k hk := by
    show Memory.read (Memory.writeValue s.mem p v size) (p + k) = _
    rw [Memory.read_writeValue _ _ _ _ _ hwf, if_pos (by omega), show p + k - p = k by omega]
  memory a ha := by
    show Memory.read (Memory.writeValue s.mem p v size) a = _
    rw [Memory.read_writeValue _ _ _ _ _ hwf, if_neg (by omega)]
  entries := ⟨rfl, rfl⟩
  hostState := by rw [h]; exact ⟨rfl, rfl, rfl, rfl, rfl, rfl⟩

/-- `loadInto` when its read succeeds. -/
theorem State.loadInto_ok {s u : State} {rt rs : RegNum} {imm : BitVec 16} {size : AccessSize} {p : Nat} (f : Word → Word)
    (h : s.translate (s.ea rs imm) size false = .ok p u) :
    ∃ t, s.loadInto rt imm rs size f = .next t ∧ CompletesLoading rt (f (Memory.readValue s.mem p size)) u s t :=
  ⟨_, State.reading_ok _ h, State.completesLoading rt _ (State.translate_eq h)⟩

/-- `storing` when its write succeeds. -/
theorem State.storing_completes {s u : State} {va v : Word} {size : AccessSize} {p : Nat} (hwf : Memory.wf s.mem)
    (h : s.translate va size true = .ok p u) :
    ∃ t, s.storing va size v = .next t ∧ CompletesStoring p size.bytes v u s t :=
  ⟨_, State.storing_ok h, State.completesStoring p v size hwf (State.translate_eq h)⟩

/-! ## What an instruction can do -/

/-- The state after the data read of an instruction that made one, or the state itself. -/
def ReadFrom (i : Instr) (s u : State) : Prop :=
  u = s ∨ (accessesMemory i = true ∧ ∃ va size p, s.translate va size false = .ok p u)

/-- An exception an instruction raises at `u`, and why. -/
inductive Cause (i : Instr) (u : State) : ExcKind → Word → Prop where
  | overflow (a b c : RegNum) (h : i = .add a b c ∨ i = .sub a b c ∨ ∃ imm, i = .addi a b imm) : Cause i u .overflow 0
  | syscall (h : i = .syscall) : Cause i u .syscall 0
  | read {e : ExcKind} {va : Word} (size : AccessSize) (h : accessesMemory i = true) (he : u.translate va size false = .exc e) :
    Cause i u e va
  | write {e : ExcKind} {va : Word} (size : AccessSize) (h : storesMemory i = true) (he : u.translate va size true = .exc e) :
    Cause i u e va

/-- What an instruction that answers a next state did: it read data or not, then it raised, or it completed writing a general register,
`HI`, `LO` and the pending load and staging a PC, or it completed storing. -/
inductive Effect (i : Instr) (s t : State) : Prop where
  | raise (u : State) (hu : ReadFrom i s u) (hs : storesMemory i = false → u = s) (e : ExcKind) (a : Word) (hc : Cause i u e a)
    (ht : t = u.raise e a)
  | complete (u : State) (hu : ReadFrom i s u) (rd : RegNum) (v hi lo p : Word) (q : RegNum) (w : Word)
    (hhl : writesHiLo i = false → hi = s.hi ∧ lo = s.lo) (ht : t = ((u.setX rd v).setHiLo hi lo).finish p q w)
  | store (u : State) (hu : ReadFrom i s u) (hs : storesMemory i = true) (va v : Word) (size : AccessSize) (p : Nat) (w : State)
    (hw : u.translate va size true = .ok p w)
    (ht : t = ({ w with mem := Memory.writeValue u.mem p v size } : State).finish (u.nextPc + 4) 0 0)

theorem State.setX_zero (s : State) (v : Word) : s.setX 0 v = s := rfl

theorem State.setHiLo_self (s : State) : s.setHiLo s.hi s.lo = s := rfl

theorem Effect.result {i : Instr} {s t : State} {rd : RegNum} {v : Word} (h : s.writeResult rd v = .next t) : Effect i s t := by
  injection h with h
  exact .complete s (.inl rfl) rd v s.hi s.lo _ 0 0 (fun _ => ⟨rfl, rfl⟩) h.symm

theorem Effect.finish {i : Instr} {s t : State} {rd : RegNum} {v p : Word}
    (h : Host.Outcome.next ((s.setX rd v).finish p 0 0) = (.next t : Result State)) : Effect i s t := by
  injection h with h
  exact .complete s (.inl rfl) rd v s.hi s.lo _ 0 0 (fun _ => ⟨rfl, rfl⟩) h.symm

theorem Effect.branch {i : Instr} {s t : State} {rd : RegNum} {v : Word} {c : Bool} {imm : BitVec 16}
    (h : Host.Outcome.next ((s.setX rd v).branchIf c imm) = (.next t : Result State)) : Effect i s t := by
  rw [State.branchIf_eq] at h
  exact Effect.finish h

theorem Effect.hiLo {i : Instr} {s t : State} {hi lo : Word} (hi' : writesHiLo i = true)
    (h : Host.Outcome.next (s.setHiLo hi lo).done = (.next t : Result State)) : Effect i s t := by
  injection h with h
  exact .complete s (.inl rfl) 0 0 hi lo _ 0 0 (fun hf => by simp [hi'] at hf) h.symm

theorem Effect.overflowOr {i : Instr} {s t : State} {rd : RegNum} {c : Bool} {v : Word} (a b d : RegNum)
    (hi : i = .add a b d ∨ i = .sub a b d ∨ ∃ imm, i = .addi a b imm) (h : s.writeUnlessOverflow rd c v = .next t) :
    Effect i s t := by
  unfold State.writeUnlessOverflow at h
  split at h
  · injection h with h
    exact .raise s (.inl rfl) (fun _ => rfl) _ _ (.overflow a b d hi) h.symm
  · exact Effect.result h

theorem State.hi_of_translate {s u : State} {va : Word} {size : AccessSize} {w : Bool} {p : Nat}
    (h : s.translate va size w = .ok p u) : u.hi = s.hi ∧ u.lo = s.lo := by
  rw [State.translate_eq h]
  exact ⟨rfl, rfl⟩

theorem Effect.read {i : Instr} {s t : State} {va : Word} {size : AccessSize} {k : Word → State → Result State}
    (hi : accessesMemory i = true) (h : s.reading va size k = .next t)
    (hk : ∀ p u, s.translate va size false = .ok p u → k (Memory.readValue s.mem p size) u = .next t → Effect i s t) :
    Effect i s t := by
  cases hr : s.translate va size false with
  | ok p u => exact hk p u hr (by rwa [State.reading_ok k hr] at h)
  | exc e =>
    rw [State.reading_exc k hr] at h
    injection h with h
    exact .raise s (.inl rfl) (fun _ => rfl) e va (.read size hi hr) h.symm
  | refused r => rw [State.reading_refused k hr] at h; cases h

theorem Effect.loaded {i : Instr} {s u t : State} {va : Word} {size : AccessSize} {p : Nat} {rt : RegNum} {v : Word}
    (hi : accessesMemory i = true) (hr : s.translate va size false = .ok p u)
    (h : Host.Outcome.next (u.loadDelayed rt v) = (.next t : Result State)) : Effect i s t := by
  injection h with h
  obtain ⟨h1, h2⟩ := State.hi_of_translate hr
  refine .complete u (.inr ⟨hi, va, size, p, hr⟩) 0 0 u.hi u.lo (u.nextPc + 4) rt v (fun _ => ⟨h1, h2⟩) ?_
  rw [State.setX_zero, State.setHiLo_self, ← h]
  rfl

theorem Effect.stored {i : Instr} {s u t : State} {va v : Word} {size : AccessSize} (hu : ReadFrom i s u)
    (hs : storesMemory i = true) (h : u.storing va size v = .next t) : Effect i s t := by
  cases hr : u.translate va size true with
  | ok p w =>
    rw [State.storing_ok hr] at h
    injection h with h
    refine .store u hu hs va v size p w hr ?_
    rw [← h, State.done_eq]
    congr 1
    rw [State.translate_eq hr]
  | exc e =>
    rw [State.storing_exc hr] at h
    injection h with h
    exact .raise u hu (fun hf => by simp [hs] at hf) e va (.write size hs hr) h.symm
  | refused r => rw [State.storing_refused hr] at h; cases h

/-- Everything an instruction that answers a next state can do. -/
theorem exec_effect {i : Instr} {s t : State} (h : exec i s = .next t) : Effect i s t := by
  cases i
  case add a b c => exact Effect.overflowOr a b c (.inl rfl) h
  case sub a b c => exact Effect.overflowOr a b c (.inr (.inl rfl)) h
  case addi a b imm => exact Effect.overflowOr a b 0 (.inr (.inr ⟨imm, rfl⟩)) h
  case mult => exact Effect.hiLo rfl h
  case multu => exact Effect.hiLo rfl h
  case div a b =>
    simp only [exec, execDiv] at h
    split at h
    · exact Effect.hiLo rfl h
    · split at h
      · unfold State.divideOverflow at h
        split at h
        · exact Effect.hiLo rfl h
        · exact Effect.hiLo rfl h
        · cases h
      · exact Effect.hiLo rfl h
  case divu a b =>
    simp only [exec, execDivu] at h
    split at h <;> exact Effect.hiLo rfl h
  case mthi => exact Effect.hiLo rfl h
  case mtlo => exact Effect.hiLo rfl h
  case lb => exact Effect.read rfl h fun p u hr hk => Effect.loaded rfl hr hk
  case lbu => exact Effect.read rfl h fun p u hr hk => Effect.loaded rfl hr hk
  case lh => exact Effect.read rfl h fun p u hr hk => Effect.loaded rfl hr hk
  case lhu => exact Effect.read rfl h fun p u hr hk => Effect.loaded rfl hr hk
  case lw => exact Effect.read rfl h fun p u hr hk => Effect.loaded rfl hr hk
  case lwl => exact Effect.read rfl h fun p u hr hk => Effect.loaded rfl hr hk
  case lwr => exact Effect.read rfl h fun p u hr hk => Effect.loaded rfl hr hk
  case sb => exact Effect.stored (.inl rfl) rfl h
  case sh => exact Effect.stored (.inl rfl) rfl h
  case sw => exact Effect.stored (.inl rfl) rfl h
  case swl => exact Effect.read rfl h fun p u hr hk => Effect.stored (.inr ⟨rfl, _, _, p, hr⟩) rfl hk
  case swr => exact Effect.read rfl h fun p u hr hk => Effect.stored (.inr ⟨rfl, _, _, p, hr⟩) rfl hk
  case beq => exact Effect.branch (rd := 0) (v := 0) h
  case bne => exact Effect.branch (rd := 0) (v := 0) h
  case blez => exact Effect.branch (rd := 0) (v := 0) h
  case bgtz => exact Effect.branch (rd := 0) (v := 0) h
  case bltz => exact Effect.branch (rd := 0) (v := 0) h
  case bgez => exact Effect.branch (rd := 0) (v := 0) h
  case bltzal => exact Effect.branch (rd := 31) h
  case bgezal => exact Effect.branch (rd := 31) h
  case j => exact Effect.finish (rd := 0) (v := 0) h
  case jal => exact Effect.finish (rd := 31) h
  case jr => exact Effect.finish (rd := 0) (v := 0) h
  case jalr rd rs => exact Effect.finish (rd := rd) h
  case syscall => injection h with h; exact .raise s (.inl rfl) (fun _ => rfl) _ _ (.syscall rfl) h.symm
  all_goals exact Effect.result h

/-- A store that raises does so at the state before its write. -/
theorem State.storing_raises {s t : State} {va v : Word} {z : AccessSize} {x : Trap} (h : s.storing va z v = .next t)
    (ht : t.trap = some x) : t = s.raise x.kind x.badVAddr := by
  cases hr : s.translate va z true with
  | ok p u => rw [State.storing_ok hr] at h; injection h with h; subst h; simp at ht
  | exc e => rw [State.storing_exc hr] at h; injection h with h; subst h; simp at ht; subst ht; rfl
  | refused r => rw [State.storing_refused hr] at h; cases h

/-- SWL or SWR that raises does so at the state before its read when the read fails, else at the state after it (R160). -/
theorem State.storeMerged_raises {s t : State} {rt rs : RegNum} {imm : BitVec 16} {m : MergeTable → BitVec 2 → Word → Word → Word} {x : Trap}
    (h : s.storeMerged rt imm rs m = .next t) (ht : t.trap = some x) :
    (t = s.raise x.kind x.badVAddr ∧ ∀ q v, s.translate (alignedDown (s.ea rs imm)) .word false ≠ .ok q v) ∨
    ∃ q v, s.translate (alignedDown (s.ea rs imm)) .word false = .ok q v ∧ t = v.raise x.kind x.badVAddr := by
  unfold State.storeMerged at h
  cases hr : s.translate (alignedDown (s.ea rs imm)) .word false with
  | ok p u =>
    simp only [State.reading_ok _ hr] at h
    exact .inr ⟨p, u, rfl, State.storing_raises h ht⟩
  | exc e =>
    simp only [State.reading_exc _ hr] at h
    injection h with h; subst h; simp at ht; subst ht
    exact .inl ⟨rfl, fun _ _ hn => by cases hn⟩
  | refused r => simp only [State.reading_refused _ hr] at h; cases h

/-- Where an instruction raises: at the state it was given, but for SWL and SWR whose read succeeded. -/
theorem exec_raises {i : Instr} {s t : State} {x : Trap} (h : exec i s = .next t) (ht : t.trap = some x) :
    (t = s.raise x.kind x.badVAddr ∧ ∀ rt rs imm, i = .swl rt imm rs ∨ i = .swr rt imm rs →
      ∀ q v, s.translate (alignedDown (s.ea rs imm)) .word false ≠ .ok q v) ∨
    ∃ rt rs imm q v, (i = .swl rt imm rs ∨ i = .swr rt imm rs) ∧ s.translate (alignedDown (s.ea rs imm)) .word false = .ok q v ∧
      t = v.raise x.kind x.badVAddr := by
  have plain : t = s.raise x.kind x.badVAddr → storesMemory i = false ∨ (∀ rt rs imm, i ≠ .swl rt imm rs ∧ i ≠ .swr rt imm rs) →
      (t = s.raise x.kind x.badVAddr ∧ ∀ rt rs imm, i = .swl rt imm rs ∨ i = .swr rt imm rs →
        ∀ q v, s.translate (alignedDown (s.ea rs imm)) .word false ≠ .ok q v) := by
    intro h1 h2
    refine ⟨h1, fun rt rs imm hi => ?_⟩
    rcases h2 with h2 | h2
    · rcases hi with rfl | rfl <;> cases h2
    · exact absurd hi (by simpa using h2 rt rs imm)
  cases hs : storesMemory i with
  | false =>
    refine .inl (plain ?_ (.inl hs))
    cases exec_effect h with
    | raise u hu hu' e a hc h1 =>
      obtain rfl := hu' hs
      rw [h1] at ht
      simp at ht
      subst ht
      exact h1
    | complete u hu rd v hi lo p q w hhl h1 => rw [h1] at ht; simp at ht
    | store u hu hs' va v size p w hw h1 => simp [hs] at hs'
  | true =>
    cases i <;> first | (simp [storesMemory] at hs; done) | skip
    case swl rt imm rs =>
      rcases State.storeMerged_raises h ht with ⟨h1, h2⟩ | ⟨q, v, h1, h2⟩
      · exact .inl ⟨h1, fun _ _ _ hi => by simp at hi; obtain ⟨rfl, rfl, rfl⟩ := hi; exact h2⟩
      · exact .inr ⟨rt, rs, imm, q, v, .inl rfl, h1, h2⟩
    case swr rt imm rs =>
      rcases State.storeMerged_raises h ht with ⟨h1, h2⟩ | ⟨q, v, h1, h2⟩
      · exact .inl ⟨h1, fun _ _ _ hi => by simp at hi; obtain ⟨rfl, rfl, rfl⟩ := hi; exact h2⟩
      · exact .inr ⟨rt, rs, imm, q, v, .inr rfl, h1, h2⟩
    all_goals exact .inl (plain (State.storing_raises h ht) (.inr fun _ _ _ => by simp))
/-- No page table is installed exactly when translation cannot work (70_reset_and_hazards.md R282). -/
theorem State.noTableInstalled_iff (s : State) : s.noTableInstalled = true ↔ ¬ s.translationReady := by
  simp [State.noTableInstalled, State.translationReady]

/-- With no page table installed every step is refused (R282, U9). -/
theorem step_notReady {s : State} (h : ¬ s.translationReady) : step s = .refused .noPageTable := by
  simp [step, State.fetch, s.noTableInstalled_iff.mpr h]

/-- Where translation can work the fetch is a read at `PC` (20_memory.md R56). -/
theorem State.fetch_ready {s : State} (h : s.translationReady) : s.fetch = s.memRead s.pc .word := by
  have : s.noTableInstalled = false := by simpa [h] using s.noTableInstalled_iff
  simp [State.fetch, this]

/-- A fetch whose translation succeeds, in any state. -/
theorem State.fetch_ok {s u : State} {p : Nat} (h : s.translate s.pc .word false = .ok p u) :
    s.fetch = .ok (Memory.readValue s.mem p .word) u := by
  rw [State.fetch, State.noTableInstalled_of_ok h]
  exact State.memRead_ok.mpr ⟨p, h, rfl⟩

/-- A failing fetch raises what the translation of `PC` returned, with `PC` as the bad address (20_memory.md R55, R56). -/
theorem step_exc {s : State} {e : ExcKind} (hr : s.translationReady) (h : s.translate s.pc .word false = .exc e) :
    step s = .next (s.raise e s.pc) := by
  rw [step, State.fetch_ready hr, State.memRead_exc.mpr h]

/-- The next state of a step: of a failing fetch, of a word that is no instruction, or of the decoded instruction. -/
theorem step_next {s t : State} (h : step s = .next t) :
    (∃ e, s.translate s.pc .word false = .exc e ∧ t = s.raise e s.pc) ∨
    ∃ p u, s.translate s.pc .word false = .ok p u ∧
      ((∃ e, decode (Memory.readValue s.mem p .word) = .error e ∧ t = u.raise .illegalInstr 0) ∨
       ∃ i, decode (Memory.readValue s.mem p .word) = .ok i ∧ exec i u = .next t) := by
  have hready : s.translationReady := by
    by_contra hn
    rw [step_notReady hn] at h
    cases h
  cases hr : s.translate s.pc .word false with
  | exc e =>
    rw [step_exc hready hr] at h
    injection h with h
    exact .inl ⟨e, rfl, h.symm⟩
  | refused r => rw [step, State.fetch_ready hready, State.memRead_refused.mpr hr] at h; cases h
  | ok p u =>
    rw [step, State.fetch_ok hr] at h
    refine .inr ⟨p, u, rfl, ?_⟩
    simp only at h
    split at h
    · rename_i i hi; exact .inr ⟨i, hi, h⟩
    · rename_i e he; injection h with h; exact .inl ⟨e, he, h.symm⟩

end Sys2Proof.Machine
end

