-- ==== Sys2Proof/Laws/Invariant.lean ====
section
/-! SUPPORT. What keeps the invariant: changes of registers, of `use` and `dirty` bits, and stores inside PhysicalMemory. -/
namespace Sys2Proof.Machine

/-- The invariant does not look at the registers but for the storage of register 0. -/
theorem State.Inv.registers {s : State} (h : s.Inv) (t : State) (hx : t.x[0] = 0)
    (ht : t = { s with
      x := t.x, hi := t.hi, lo := t.lo, pc := t.pc, nextPc := t.nextPc, prevPc := t.prevPc, load := t.load,
      loadValue := t.loadValue, badVAddr := t.badVAddr, trap := t.trap }) : t.Inv := by
  rw [ht]
  exact { h with zero := hx }

/-- A write to memory inside PhysicalMemory. -/
theorem State.Inv.memoryWrite {s : State} (h : s.Inv) (m : List Host.Cell) (hwf : Memory.wf m)
    (hr : ∀ c ∈ m, c.1 < s.physSize) : ({ s with mem := m } : State).Inv :=
  { h with memory := hwf, memoryRange := hr }

/-- Register 0's storage is never written (R12). -/
theorem State.setX_storage_zero (s : State) (r : RegNum) (v : Word) : (s.setX r v).x[0] = s.x[0] := by
  by_cases hr : r = 0
  · simp [State.setX, hr]
  · have : (r : Nat) ≠ 0 := fun h => hr (Fin.ext h)
    simp [State.setX, hr, this]

theorem AddressSpace.Ok.modify {S : AddressSpace} (h : S.Ok) (v : Nat) (f : TranslationEntry → TranslationEntry)
    (hf : ∀ e, e.virtualPage = v → (f e).virtualPage = v) : AddressSpace.Ok { S with pageTable := S.pageTable.modify v f } where
  entries := by simpa using h.entries
  flags := h.flags
  index w e he := by
    simp only [List.getElem?_modify] at he
    obtain ⟨d, hd, rfl⟩ := Option.map_eq_some_iff.mp he
    have := h.index w d hd
    split
    · rename_i hv; subst hv; exact hf d this
    · exact this
  file := h.file
  swap := h.swap

/-- A change of an entry that keeps what the invariant says of it: of the `use` and `dirty` bits, for one. -/
theorem State.Inv.modifyEntry {s : State} (h : s.Inv) (r : EntryRef) (f : TranslationEntry → TranslationEntry)
    (hf : ∀ e, (f e).valid = e.valid ∧ (f e).virtualPage = e.virtualPage ∧ (f e).physicalPage = e.physicalPage) :
    (s.modifyEntry r f).Inv where
  memory := by simpa using h.memory
  memoryRange := by simpa [State.physSize] using h.memoryRange
  zero := by simpa using h.zero
  frames := by simpa using h.frames
  victim := by simpa using h.victim
  rising := by
    cases r with
    | tlb i => exact h.rising
    | table id vpn =>
      refine List.pairwise_map.mpr (h.rising.imp fun {p q} hpq => ?_)
      split <;> split <;> exact hpq
  spaces id S hS := by
    rw [State.space_modifyEntry] at hS
    cases r with
    | tlb i => exact h.spaces id S hS
    | table jd vpn =>
      simp only at hS
      split at hS
      · cases hT : s.space id with
        | none => simp [hT] at hS
        | some T =>
          simp only [hT, Option.map_some, Option.some.injEq] at hS
          subst hS
          exact (h.spaces id T hT).modify vpn f fun e he => by rw [(hf e).2.1, he]
      · exact h.spaces id S hS
  owned id v e he hv := by
    rw [State.pte_modifyEntry] at he
    have hc : (s.modifyEntry r f).claim = s.claim := by funext g; simp [State.claim]
    rw [hc]
    simp only [State.modifyEntry_cfg]
    split at he
    · cases hd : s.pte id v with
      | none => simp [hd] at he
      | some d =>
        simp only [hd, Option.map_some, Option.some.injEq] at he
        subst he
        rw [(hf d).1] at hv
        rw [(hf d).2.2]
        exact h.owned id v d hd hv
    · exact h.owned id v e he hv
  oneFrame f' g c hf' hg := by
    have hc : (s.modifyEntry r f).claim = s.claim := by funext g; simp [State.claim]
    rw [hc] at hf' hg
    exact h.oneFrame f' g c hf' hg
  claimed f' c hc' := by
    have hc : (s.modifyEntry r f).claim = s.claim := by funext g; simp [State.claim]
    rw [hc] at hc'
    rw [State.pte_modifyEntry]
    split
    · simpa using h.claimed f' c hc'
    · exact h.claimed f' c hc'
  table id hid := by
    rw [State.modifyEntry_activeTable] at hid
    obtain ⟨S, hS, hn⟩ := h.table id hid
    rw [State.space_modifyEntry, State.modifyEntry_pageTableSize]
    cases r with
    | tlb i => exact ⟨S, hS, hn⟩
    | table jd vpn =>
      simp only
      split
      · exact ⟨{ S with pageTable := S.pageTable.modify vpn f }, by simp [hS], hn⟩
      · exact ⟨S, hS, hn⟩
  tlbCopies hu i hv := by
    rw [State.modifyEntry_cfg] at hu
    simp only [State.tlb_modifyEntry] at hv ⊢
    have hval : s.tlb[i].valid = true := by
      split at hv
      · rwa [(hf _).1] at hv
      · exact hv
    obtain ⟨id, e, hc, he, hve, hpp⟩ := h.tlbCopies hu i hval
    have hvp : (if r = .tlb i then f s.tlb[i] else s.tlb[i]).virtualPage = s.tlb[i].virtualPage := by
      split
      · exact (hf _).2.1
      · rfl
    have hpp' : (if r = .tlb i then f s.tlb[i] else s.tlb[i]).physicalPage = s.tlb[i].physicalPage := by
      split
      · exact (hf _).2.2
      · rfl
    rw [hvp, hpp', State.modifyEntry_currentSpace]
    by_cases hr : r = .table id s.tlb[i].virtualPage
    · refine ⟨id, f e, hc, ?_, by rw [(hf e).1, hve], by rw [(hf e).2.2, hpp]⟩
      rw [State.pte_modifyEntry, if_pos hr, he]
      rfl
    · refine ⟨id, e, hc, ?_, hve, hpp⟩
      rw [State.pte_modifyEntry, if_neg hr, he]
  tlbDistinct hu i j hi hj hij := by
    rw [State.modifyEntry_cfg] at hu
    simp only [State.tlb_modifyEntry] at hi hj hij
    refine h.tlbDistinct hu i j ?_ ?_ ?_
    · split at hi
      · rwa [(hf _).1] at hi
      · exact hi
    · split at hj
      · rwa [(hf _).1] at hj
      · exact hj
    · split at hij <;> split at hij
      all_goals first | rwa [(hf _).2.1, (hf _).2.1] at hij | rwa [(hf _).2.1] at hij | exact hij

/-- A translation keeps the invariant. -/
theorem State.Inv.translate {s u : State} {va : Word} {size : AccessSize} {w : Bool} {p : Nat} (h : s.Inv)
    (ht : s.translate va size w = .ok p u) : u.Inv := by
  obtain ⟨-, r, e, -, -, -, -, rfl⟩ := State.translate_ok ht
  exact h.modifyEntry r _ fun _ => ⟨rfl, rfl, rfl⟩

/-- Taking an exception keeps the invariant. -/
theorem State.Inv.raise {s : State} (h : s.Inv) (e : ExcKind) (a : Word) : (s.raise e a).Inv := by
  refine h.registers _ ?_ rfl
  rw [State.raise_x]
  split
  · exact (State.setX_storage_zero s _ _).trans h.zero
  · exact h.zero

/-- The end of a step keeps the invariant. -/
theorem State.Inv.finish {s : State} (h : s.Inv) (p : Word) (q : RegNum) (v : Word) : (s.finish p q v).Inv :=
  h.registers _ ((State.setX_storage_zero s _ _).trans h.zero) rfl

/-- A store where a translation leads keeps the invariant. -/
theorem State.Inv.store {s u : State} {va : Word} {size : AccessSize} {w : Bool} {p : Nat} (h : s.Inv)
    (ht : s.translate va size w = .ok p u) (v : Word) :
    ({ u with mem := Memory.writeValue s.mem p v size } : State).Inv := by
  have hu := h.translate ht
  refine hu.memoryWrite _ (Memory.wf_writeValue _ _ _ _ h.memory) fun c hc => ?_
  have hphys : u.physSize = s.physSize := by rw [State.translate_eq ht]; rfl
  rw [hphys]
  rcases Memory.mem_writeValue _ _ _ _ _ hc with hc | hc
  · have := (State.translate_range ht).2.2
    simp only [State.physSize]
    omega
  · exact h.memoryRange c hc

/-- What one instruction does keeps the invariant. -/
theorem Effect.inv {i : Instr} {s t : State} (he : Effect i s t) (h : s.Inv) : t.Inv := by
  have hread {u : State} (hu : ReadFrom i s u) : u.Inv := by
    rcases hu with rfl | ⟨-, va, size, p, hp⟩
    · exact h
    · exact h.translate hp
  cases he with
  | raise u hu _ e a hc ht => rw [ht]; exact (hread hu).raise e a
  | complete u hu rd v hi lo p q w hhl ht =>
    rw [ht]
    refine State.Inv.finish ?_ p q w
    exact (hread hu).registers _ ((State.setX_storage_zero u rd v).trans (hread hu).zero) rfl
  | store u hu hs va v size p w hw ht => rw [ht]; exact ((hread hu).store hw v).finish _ _ _

end Sys2Proof.Machine
end

