-- ==== Sys2Proof/Laws/Coremap.lean ====
section
/-! SUPPORT. The operations of the coremap and of the address spaces: what each primitive changes and that it keeps the invariant. -/
namespace Sys2Proof.Machine

/-- An operation after another answered: both did. -/
theorem Result.andThen_next {α β : Type} {r : Result α} {k : α → Result β} {b : β} :
    r.andThen k = .next b ↔ ∃ a, r = .next a ∧ k a = .next b := by
  cases r <;> simp [Result.andThen]

@[simp] theorem Result.andThen_apply {α β : Type} (a : α) (k : α → Result β) : Result.andThen (.next a) k = k a := rfl

/-! ## What the primitives change -/

theorem State.claim_setClaim (s : State) (f g : Nat) (c : Option Claim) (hf : f < s.coremap.length) :
    (s.setClaim f c).claim g = if g = f then c else s.claim g := by
  unfold State.claim
  simp only [State.setClaim_coremap, List.getElem?_set]
  by_cases h : f = g
  · subst h; simp [hf]
  · simp [h, Ne.symm h]

/-- A claim is a place of the coremap. -/
theorem State.claim_some {s : State} {f : Nat} {c : Claim} : s.claim f = some c ↔ s.coremap[f]? = some (some c) := by
  unfold State.claim
  cases h : s.coremap[f]? with
  | none => simp
  | some d => simp

theorem State.lt_of_claim {s : State} {f : Nat} {c : Claim} (h : s.claim f = some c) : f < s.coremap.length := by
  have := State.claim_some.mp h
  exact (List.getElem?_eq_some_iff.mp this).1

theorem State.claim_congr {s t : State} (h : t.coremap = s.coremap) (f : Nat) : t.claim f = s.claim f := by
  simp [State.claim, h]

theorem State.pte_congr {s t : State} (h : t.spaces = s.spaces) (id v : Nat) : t.pte id v = s.pte id v := by
  simp [State.pte, State.space, h]

theorem State.space_congr {s t : State} (h : t.spaces = s.spaces) (id : Nat) : t.space id = s.space id := by
  simp [State.space, h]

theorem State.pte_of_space {s : State} {id : Nat} {S : AddressSpace} (h : s.space id = some S) (v : Nat) :
    s.pte id v = S.pageTable[v]? := by
  simp [State.pte, h]

theorem State.space_of_pte {s : State} {id v : Nat} {e : TranslationEntry} (h : s.pte id v = some e) :
    ∃ S, s.space id = some S ∧ S.pageTable[v]? = some e := by
  unfold State.pte at h
  cases hS : s.space id with
  | none => simp [hS] at h
  | some S => exact ⟨S, rfl, by simpa [hS] using h⟩

/-- The entry of a page is the page's (R216). -/
theorem State.Inv.index {s : State} (h : s.Inv) {id v : Nat} {e : TranslationEntry} (he : s.pte id v = some e) :
    e.virtualPage = v := by
  obtain ⟨S, hS, hv⟩ := State.space_of_pte he
  exact (h.spaces id S hS).index v e hv

/-- A page below `numPages` has an entry (R216). -/
theorem State.Inv.pte_isSome {s : State} (h : s.Inv) {id v : Nat} {S : AddressSpace} (hS : s.space id = some S)
    (hv : v < S.numPages) : ∃ e, s.pte id v = some e := by
  rw [State.pte_of_space hS]
  exact ⟨_, List.getElem?_eq_getElem (by rw [(h.spaces id S hS).entries]; exact hv)⟩

theorem State.Inv.lt_of_pte {s : State} (h : s.Inv) {id v : Nat} {e : TranslationEntry} (he : s.pte id v = some e) :
    ∃ S, s.space id = some S ∧ v < S.numPages := by
  obtain ⟨S, hS, hv⟩ := State.space_of_pte he
  refine ⟨S, hS, ?_⟩
  rw [← (h.spaces id S hS).entries]
  exact (List.getElem?_eq_some_iff.mp hv).1

/-- The page-table entries after one was written. -/
theorem State.pte_setPte (s : State) (id v j w : Nat) (e : TranslationEntry) :
    (s.setPte id v e).pte j w = if id = j ∧ v = w then (s.pte j w).map fun _ => e else s.pte j w := by
  rw [State.setPte, State.pte_modifyEntry]
  simp only [EntryRef.table.injEq]

/-- What `tlbFind` found: a valid entry with the vpn. -/
theorem State.tlbFind_some {s : State} {v : Nat} {i : Fin 4} (h : s.tlbFind v = some i) :
    s.tlb[i].valid = true ∧ s.tlb[i].virtualPage = v := by
  have := List.find?_some h
  simpa using this

theorem mem_tlbOrder (i : Fin 4) : i ∈ tlbOrder := by revert i; decide

theorem State.tlbFind_none {s : State} {v : Nat} (h : s.tlbFind v = none) (i : Fin 4) :
    ¬ (s.tlb[i].valid = true ∧ s.tlb[i].virtualPage = v) := by
  have := List.find?_eq_none.mp h i (mem_tlbOrder i)
  simpa using this

/-! ## The primitives keep the invariant -/

/-- Changing a page-table entry: it stays the page's, if valid its frame is the pair's, and a live TLB copy agrees with it. -/
theorem State.Inv.modifyTable {s : State} (h : s.Inv) (id v : Nat) (f : TranslationEntry → TranslationEntry)
    (hv : ∀ e, e.virtualPage = v → (f e).virtualPage = v)
    (ho : ∀ e, s.pte id v = some e → (f e).valid = true →
      (f e).physicalPage < s.cfg.numPhysPages ∧ s.claim (f e).physicalPage = some { owner := id, vpn := v })
    (ht : s.cfg.useTlb = true → s.currentSpace = some id → ∀ i : Fin 4, s.tlb[i].valid = true → s.tlb[i].virtualPage = v →
      ∀ e, s.pte id v = some e → (f e).valid = true ∧ (f e).physicalPage = s.tlb[i].physicalPage) :
    (s.modifyEntry (.table id v) f).Inv := by
  have hp (j w : Nat) := State.pte_modifyEntry s (.table id v) f j w
  simp only [EntryRef.table.injEq] at hp
  exact
    { memory := h.memory
      memoryRange := h.memoryRange
      zero := h.zero
      frames := h.frames
      victim := h.victim
      rising := by
        refine List.pairwise_map.mpr (h.rising.imp fun {p q} hpq => ?_)
        split <;> split <;> exact hpq
      spaces := fun j S hS => by
        rw [State.space_modifyEntry] at hS
        simp only at hS
        split at hS
        · obtain ⟨T, hT, rfl⟩ := Option.map_eq_some_iff.mp hS
          exact (h.spaces j T hT).modify v _ hv
        · exact h.spaces j S hS
      owned := fun j w d hd hval => by
        rw [hp] at hd
        split at hd
        · rename_i hjw
          obtain ⟨rfl, rfl⟩ := hjw
          obtain ⟨e, he, rfl⟩ := Option.map_eq_some_iff.mp hd
          exact ho e he hval
        · exact h.owned j w d hd hval
      oneFrame := h.oneFrame
      claimed := fun g c hc => by
        rw [hp]
        split
        · simpa using h.claimed g c hc
        · exact h.claimed g c hc
      table := fun j hj => by
        obtain ⟨S, hS, hn⟩ := h.table j hj
        rw [State.space_modifyEntry]
        simp only
        split
        · exact ⟨{ S with pageTable := S.pageTable.modify v f }, by rw [hS]; rfl, hn⟩
        · exact ⟨S, hS, hn⟩
      tlbCopies := fun hu i hi => by
        obtain ⟨j, d, hc, hd, hdv, hpp⟩ := h.tlbCopies hu i hi
        by_cases hjw : id = j ∧ v = s.tlb[i].virtualPage
        · obtain ⟨rfl, hw⟩ := hjw
          obtain ⟨h1, h2⟩ := ht hu hc i hi hw.symm d (hw ▸ hd)
          exact ⟨id, f d, hc, (hp id s.tlb[i].virtualPage).trans (by rw [if_pos ⟨rfl, hw⟩, hd]; rfl), h1, h2⟩
        · exact ⟨j, d, hc, (hp j s.tlb[i].virtualPage).trans (by rw [if_neg hjw, hd]), hdv, hpp⟩
      tlbDistinct := h.tlbDistinct }

/-- Writing a page-table entry. -/
theorem State.Inv.setPte {s : State} (h : s.Inv) (id v : Nat) (e : TranslationEntry) (hv : e.virtualPage = v)
    (ho : e.valid = true → e.physicalPage < s.cfg.numPhysPages ∧ s.claim e.physicalPage = some { owner := id, vpn := v })
    (ht : s.cfg.useTlb = true → s.currentSpace = some id → ∀ i : Fin 4, s.tlb[i].valid = true → s.tlb[i].virtualPage = v →
      e.valid = true ∧ e.physicalPage = s.tlb[i].physicalPage) : (s.setPte id v e).Inv :=
  h.modifyTable id v _ (fun _ _ => hv) (fun _ _ => ho) fun hu hc i hi hp _ _ => ht hu hc i hi hp

/-- Writing a TLB entry: if valid it copies a valid entry of the current space and no other entry has its vpn. -/
theorem State.Inv.writeTlb {s : State} (h : s.Inv) (i : Fin 4) (e : TranslationEntry)
    (hc : s.cfg.useTlb = true → e.valid = true → ∃ id d, s.currentSpace = some id ∧ s.pte id e.virtualPage = some d ∧
      d.valid = true ∧ d.physicalPage = e.physicalPage)
    (hd : s.cfg.useTlb = true → e.valid = true → ∀ j : Fin 4, j ≠ i → s.tlb[j].valid = true →
      s.tlb[j].virtualPage ≠ e.virtualPage) : (s.modifyEntry (.tlb i) fun _ => e).Inv where
  memory := h.memory
  memoryRange := h.memoryRange
  zero := h.zero
  frames := h.frames
  victim := h.victim
  rising := h.rising
  spaces := h.spaces
  owned := h.owned
  oneFrame := h.oneFrame
  claimed := h.claimed
  table := h.table
  tlbCopies hu j hj := by
    rw [State.tlb_modifyEntry] at hj ⊢
    split at hj
    · rename_i hij
      rw [if_pos hij]
      exact hc hu hj
    · rename_i hij
      rw [if_neg hij]
      exact h.tlbCopies hu j hj
  tlbDistinct hu j k hj hk hjk := by
    simp only [State.tlb_modifyEntry, EntryRef.tlb.injEq] at hj hk hjk
    by_cases h1 : i = j <;> by_cases h2 : i = k
    · exact h1.symm.trans h2
    · simp only [h1, if_true, if_neg (h1 ▸ h2)] at hj hk hjk
      exact absurd hjk.symm (hd hu hj k (Ne.symm h2) hk)
    · simp only [h2, if_true, if_neg (h2 ▸ h1)] at hj hk hjk
      exact absurd hjk (hd hu hk j (Ne.symm h1) hj)
    · simp only [if_neg h1, if_neg h2] at hj hk hjk
      exact h.tlbDistinct hu j k hj hk hjk

/-- Invalidating a TLB entry. -/
theorem State.Inv.invalidateTlb {s : State} (h : s.Inv) (i : Fin 4) : (s.invalidateTlb i).Inv :=
  h.writeTlb i { s.tlb[i] with valid := false } (fun _ hv => by simp at hv) fun _ hv => by simp at hv

/-- Claiming a frame for a pair that holds none, when no valid entry leads to the frame. -/
theorem State.Inv.setClaim {s : State} (h : s.Inv) (f : Nat) (c : Claim) (hpte : (s.pte c.owner c.vpn).isSome = true)
    (hnone : ∀ g, s.claim g ≠ some c) (hfree : ∀ d e, s.claim f = some d → s.pte d.owner d.vpn = some e → e.valid = false)
    (hf : f < s.cfg.numPhysPages) : (s.setClaim f (some c)).Inv := by
  have hlen : f < s.coremap.length := by rw [h.frames]; exact hf
  have hcl (g : Nat) := State.claim_setClaim s f g (some c) hlen
  exact
    { memory := h.memory
      memoryRange := h.memoryRange
      zero := h.zero
      frames := by simpa using h.frames
      victim := h.victim
      rising := h.rising
      spaces := h.spaces
      owned := fun id v e he hv => by
        obtain ⟨h1, h2⟩ := h.owned id v e he hv
        refine ⟨h1, ?_⟩
        rw [hcl, if_neg, h2]
        intro hg
        rw [hg] at h2
        exact absurd hv (by rw [hfree _ e h2 he]; simp)
      oneFrame := fun g k d hg hk => by
        rw [hcl] at hg hk
        split at hg <;> split at hk
        · rename_i h1 h2; rw [h1, h2]
        · injection hg with hg; subst hg; exact absurd hk (hnone k)
        · injection hk with hk; subst hk; exact absurd hg (hnone g)
        · exact h.oneFrame g k d hg hk
      claimed := fun g d hg => by
        rw [hcl] at hg
        split at hg
        · injection hg with hg; subst hg; exact hpte
        · exact h.claimed g d hg
      table := h.table
      tlbCopies := h.tlbCopies
      tlbDistinct := h.tlbDistinct }

/-- The remembered victim is a frame. -/
theorem State.Inv.lastVictim {s : State} (h : s.Inv) (f : Nat) (hf : f < s.cfg.numPhysPages) :
    ({ s with lastVictim := f } : State).Inv :=
  { h with victim := hf }

/-- Filling a frame that exists with the bytes of a page. -/
theorem State.Inv.fillFrame {s : State} (h : s.Inv) (f : Nat) (hf : f < s.cfg.numPhysPages) (bytes : List Byte)
    (hb : bytes.length = s.cfg.pageSize) : (s.fillFrame f bytes).Inv := by
  refine h.memoryWrite _ (Memory.wf_writeBytes bytes s.mem _ h.memory) fun c hc => ?_
  rcases Memory.mem_writeBytes _ _ _ _ hc with ⟨_, hc⟩ | hc
  · have : (f + 1) * s.cfg.pageSize ≤ s.cfg.numPhysPages * s.cfg.pageSize := Nat.mul_le_mul_right _ hf
    simp only [State.physSize]
    rw [hb] at hc
    have h2 : (f + 1) * s.cfg.pageSize = f * s.cfg.pageSize + s.cfg.pageSize := Nat.succ_mul _ _
    omega
  · exact h.memoryRange c hc

/-! ## The clock -/

/-- The frames a scan examines exist. -/
theorem scanOrder_lt {start n f : Nat} (hn : 0 < n) (h : f ∈ scanOrder start n) : f < n := by
  unfold scanOrder at h
  obtain ⟨k, _, rfl⟩ := List.mem_map.mp h
  exact Nat.mod_lt _ hn

/-- Every frame is examined. -/
theorem mem_scanOrder {start n f : Nat} (h : f < n) : f ∈ scanOrder start n := by
  unfold scanOrder
  refine List.mem_map.mpr ⟨(f + n - start % n) % n, List.mem_range.mpr (Nat.mod_lt _ (by omega)), ?_⟩
  have h1 : start % n < n := Nat.mod_lt _ (by omega)
  rw [← Nat.mod_add_mod, Nat.add_mod_mod, show start % n + (f + n - start % n) = f + n by omega, Nat.add_mod_right,
    Nat.mod_eq_of_lt h]

theorem State.scanPass1_next {s : State} {fs : List Nat} {r : Option Nat} {t : State} (h : s.scanPass1 fs = .next (r, t)) :
    (s.Inv → t.Inv) ∧ t = { s with tlb := t.tlb, spaces := t.spaces } ∧ SameMappings s t ∧ ∀ f, r = some f → f ∈ fs := by
  induction fs generalizing s with
  | nil =>
    injection h with h; injection h with h1 h2; subst h1 h2
    exact ⟨id, rfl, .refl _, fun _ h => by cases h⟩
  | cons g fs ih =>
    unfold State.scanPass1 at h
    split at h
    · cases h
    · rename_i q e _
      split at h
      · obtain ⟨h1, h2, h3, h4⟩ := ih h
        refine ⟨fun hi => h1 (hi.modifyEntry q _ fun _ => ⟨rfl, rfl, rfl⟩), ?_, ?_, fun f hf => .tail _ (h4 f hf)⟩
        · rw [h2]; cases q <;> rfl
        · exact (SameMappings.modifyEntry s q (fun d => { d with use := false }) fun _ => rfl).trans h3
      · split at h
        · obtain ⟨h1, h2, h3, h4⟩ := ih h
          exact ⟨h1, h2, h3, fun f hf => .tail _ (h4 f hf)⟩
        · injection h with h; injection h with h1 h2; subst h1 h2
          exact ⟨id, rfl, .refl _, fun f hf => by injection hf with hf; subst hf; exact .head _⟩

theorem State.scanPass2_next {s : State} {fs : List Nat} {f : Nat} (h : s.scanPass2 fs = .next (some f)) : f ∈ fs := by
  induction fs with
  | nil => cases h
  | cons g fs ih =>
    unfold State.scanPass2 at h
    split at h
    · cases h
    · split at h
      · exact .tail _ (ih h)
      · injection h with h; injection h with h; subst h; exact .head _

theorem State.scanStart_lt (s : State) : s.scanStart < s.cfg.numPhysPages := Nat.mod_lt _ s.cfg.numPhysPages_pos

/-- What `SelectVictim` can do: it names a frame that exists, remembers it, and changes nothing else but `use` bits (R206, R207). -/
theorem State.selectVictim_next {s t : State} {f : Nat} (h : s.selectVictim = .next (f, t)) :
    f < s.cfg.numPhysPages ∧ (s.Inv → t.Inv) ∧ t = { s with lastVictim := f, tlb := t.tlb, spaces := t.spaces } ∧
      SameMappings s t := by
  unfold State.selectVictim at h
  obtain ⟨⟨r, u⟩, h1, h2⟩ := Result.andThen_next.mp h
  obtain ⟨g1, g2, g3, g4⟩ := State.scanPass1_next h1
  have hcfg : u.cfg = s.cfg := by rw [g2]
  have hend {f : Nat} (hf : f < s.cfg.numPhysPages) :
      (s.Inv → ({ u with lastVictim := f } : State).Inv) ∧
      ({ u with lastVictim := f } : State) = { s with lastVictim := f, tlb := u.tlb, spaces := u.spaces } ∧
      SameMappings s { u with lastVictim := f } :=
    ⟨fun hi => (g1 hi).lastVictim f (by rw [hcfg]; exact hf), by rw [g2], ⟨g3.tlb, g3.spaces⟩⟩
  cases r with
  | some g =>
    injection h2 with h2; injection h2 with h3 h4; subst h3 h4
    have hf := scanOrder_lt s.cfg.numPhysPages_pos (g4 g rfl)
    exact ⟨hf, hend hf⟩
  | none =>
    obtain ⟨q, h3, h4⟩ := Result.andThen_next.mp h2
    cases q with
    | some g =>
      injection h4 with h4; injection h4 with h5 h6; subst h5 h6
      have hf := scanOrder_lt s.cfg.numPhysPages_pos (State.scanPass2_next h3)
      exact ⟨hf, hend hf⟩
    | none =>
      injection h4 with h4; injection h4 with h5 h6; subst h5 h6
      exact ⟨s.scanStart_lt, hend s.scanStart_lt⟩

end Sys2Proof.Machine
end

