-- ==== Sys2Proof/Laws/AddressSpace.lean ====
section
/-! SUPPORT. Folding back, eviction, `Find`, loading, construction, destruction, context switch and the resolution of a page fault:
what each can do when it answers, and that it keeps the invariant. -/
namespace Sys2Proof.Machine

/-! ## Folding back and eviction -/

/-- Flushing a valid TLB entry: its page's entry in the current space becomes the copy, which becomes invalid (R209, R210). -/
theorem State.flushTlb_next {s t : State} {i : Fin 4} (hv : s.tlb[i].valid = true) (h : s.flushTlb i = .next t) :
    ∃ id e, s.currentSpace = some id ∧ s.pte id s.tlb[i].virtualPage = some e ∧
      t = (s.setPte id s.tlb[i].virtualPage s.tlb[i]).invalidateTlb i := by
  unfold State.flushTlb at h
  rw [if_pos hv] at h
  obtain ⟨u, h1, h2⟩ := Result.andThen_next.mp h
  unfold State.foldBack at h1
  rw [if_pos hv] at h1
  split at h1
  · cases h1
  · rename_i id hid
    split at h1
    · cases h1
    · rename_i e he
      injection h1 with h1
      injection h2 with h2
      exact ⟨id, e, hid, he, by rw [← h2, ← h1]⟩

/-- An invalid TLB entry is left alone. -/
theorem State.flushTlb_of_invalid {s : State} {i : Fin 4} (hv : s.tlb[i].valid = false) : s.flushTlb i = .next s := by
  unfold State.flushTlb
  rw [if_neg (by rw [hv]; decide)]

/-- With the invariant a flush always answers (R202). -/
theorem State.Inv.flushTlb_answers {s : State} (h : s.Inv) (hu : s.cfg.useTlb = true) (i : Fin 4) :
    ∃ t, s.flushTlb i = .next t := by
  cases hv : s.tlb[i].valid with
  | false => exact ⟨s, State.flushTlb_of_invalid hv⟩
  | true =>
    obtain ⟨id, e, hc, he, -, -⟩ := h.tlbCopies hu i hv
    refine ⟨(s.setPte id s.tlb[i].virtualPage s.tlb[i]).invalidateTlb i, ?_⟩
    unfold State.flushTlb State.foldBack
    rw [if_pos hv, if_pos hv, hc]
    simp only
    rw [he]
    rfl

/-- A flush keeps the invariant. -/
theorem State.Inv.flushTlb {s t : State} {i : Fin 4} (h : s.Inv) (hu : s.cfg.useTlb = true) (ht : s.flushTlb i = .next t) :
    t.Inv := by
  cases hv : s.tlb[i].valid with
  | false =>
    rw [State.flushTlb_of_invalid hv] at ht
    injection ht with ht
    exact ht ▸ h
  | true =>
    obtain ⟨id, e, hc, he, rfl⟩ := State.flushTlb_next hv ht
    refine State.Inv.invalidateTlb ?_ i
    obtain ⟨jd, d, hj, hd, hdv, hp⟩ := h.tlbCopies hu i hv
    rw [hc] at hj
    injection hj with hj
    subst hj
    refine h.setPte id _ _ rfl (fun _ => ?_) fun _ _ j hjv hjp => ?_
    · rw [← hp]
      exact h.owned id _ d hd hdv
    · rw [h.tlbDistinct hu j i hjv hv hjp]
      exact ⟨hv, rfl⟩

/-- What a flush leaves: the state but the TLB and the page tables. -/
theorem State.flushTlb_eq {s t : State} {i : Fin 4} (h : s.flushTlb i = .next t) :
    t = { s with tlb := t.tlb, spaces := t.spaces } := by
  cases hv : s.tlb[i].valid with
  | false =>
    rw [State.flushTlb_of_invalid hv] at h
    injection h with h
    rw [← h]
  | true =>
    obtain ⟨id, e, hc, he, rfl⟩ := State.flushTlb_next hv h
    rfl

/-- The TLB after a flush. -/
theorem State.flushTlb_tlb {s t : State} {i : Fin 4} (h : s.flushTlb i = .next t) (j : Fin 4) :
    t.tlb[j] = if i = j then { s.tlb[j] with valid := false } else s.tlb[j] := by
  cases hv : s.tlb[i].valid with
  | false =>
    rw [State.flushTlb_of_invalid hv] at h
    injection h with h
    subst h
    split
    · rename_i hij
      subst hij
      rw [← hv]
    · rfl
  | true =>
    obtain ⟨id, e, hc, he, rfl⟩ := State.flushTlb_next hv h
    rw [State.invalidateTlb, State.tlb_modifyEntry]
    simp only [EntryRef.tlb.injEq]
    rfl

/-- The page-table entries after a flush. -/
theorem State.flushTlb_pte {s t : State} {i : Fin 4} (h : s.flushTlb i = .next t) (j w : Nat) :
    t.pte j w =
      if s.tlb[i].valid = true ∧ s.currentSpace = some j ∧ s.tlb[i].virtualPage = w then some s.tlb[i] else s.pte j w := by
  cases hv : s.tlb[i].valid with
  | false =>
    rw [State.flushTlb_of_invalid hv] at h
    injection h with h
    rw [← h]
    simp
  | true =>
    obtain ⟨id, e, hc, he, rfl⟩ := State.flushTlb_next hv h
    rw [State.invalidateTlb, State.pte_modifyEntry, if_neg (by simp), State.pte_setPte, hc]
    simp only [true_and, Option.some.injEq]
    by_cases hk : id = j ∧ s.tlb[i].virtualPage = w
    · rw [if_pos hk, if_pos hk]
      obtain ⟨rfl, rfl⟩ := hk
      rw [he]
      rfl
    · rw [if_neg hk, if_neg hk]

/-- What the spaces keep over a flush: everything but their page tables. -/
theorem State.flushTlb_space {s t : State} {i : Fin 4} (h : s.flushTlb i = .next t) (j : Nat) :
    (t.space j).map (fun S => { S with pageTable := [] }) = (s.space j).map fun S => { S with pageTable := [] } := by
  cases hv : s.tlb[i].valid with
  | false =>
    rw [State.flushTlb_of_invalid hv] at h
    injection h with h
    rw [← h]
  | true =>
    obtain ⟨id, e, hc, he, rfl⟩ := State.flushTlb_next hv h
    rw [State.invalidateTlb, State.space_modifyEntry, State.setPte, State.space_modifyEntry]
    simp only
    split
    · rw [Option.map_map]; rfl
    · rfl

/-- A flush changes no space but the current one. -/
theorem State.flushTlb_otherSpace {s t : State} {i : Fin 4} (h : s.flushTlb i = .next t) {id j : Nat} (hc : s.currentSpace = some id)
    (hj : j ≠ id) : t.space j = s.space j := by
  cases hv : s.tlb[i].valid with
  | false =>
    rw [State.flushTlb_of_invalid hv] at h
    injection h with h
    rw [← h]
  | true =>
    obtain ⟨id', e, hc', he, rfl⟩ := State.flushTlb_next hv h
    rw [hc] at hc'
    injection hc' with hc'
    subst hc'
    rw [State.invalidateTlb, State.space_modifyEntry, State.setPte, State.space_modifyEntry]
    simp only [if_neg hj]

/-- What `SaveToSwap` can do (R221). -/
theorem State.saveToSwap_next {s t : State} {id v : Nat} (h : s.saveToSwap id v = .next t) :
    ∃ S e store, s.space id = some S ∧ s.pte id v = some e ∧ S.swap = some store ∧ e.physicalPage < s.cfg.numPhysPages ∧
      t = { s with spaces := Spaces.modify s.spaces id fun T =>
        { T with
          swap := some (Memory.writeBytes store (v * s.cfg.pageSize) (s.frameBytes e.physicalPage))
          inSwap := T.inSwap.set v true } } := by
  unfold State.saveToSwap at h
  split at h
  · cases h
  · cases h
  · rename_i S e hS he
    split at h
    · cases h
    · rename_i store hst
      split at h
      · cases h
      · rename_i hp
        injection h with h
        exact ⟨S, e, store, hS, he, hst, by omega, h.symm⟩

/-- The page-table entries are the same after `SaveToSwap`. -/
theorem State.saveToSwap_pte {s t : State} {id v : Nat} (h : s.saveToSwap id v = .next t) (j w : Nat) :
    t.pte j w = s.pte j w := by
  obtain ⟨S, e, store, hS, he, hst, hp, rfl⟩ := State.saveToSwap_next h
  simp only [State.pte, State.space, Spaces.get_modify]
  by_cases hj : j = id
  · simp only [hj, if_true]
    cases Spaces.get s.spaces id <;> rfl
  · simp only [hj, if_false]

theorem State.saveToSwap_space {s t : State} {id v : Nat} (h : s.saveToSwap id v = .next t) :
    ∃ S e store, s.space id = some S ∧ s.pte id v = some e ∧ S.swap = some store ∧ ∀ j, t.space j =
      if j = id then some { S with
        swap := some (Memory.writeBytes store (v * s.cfg.pageSize) (s.frameBytes e.physicalPage))
        inSwap := S.inSwap.set v true }
      else s.space j := by
  obtain ⟨S, e, store, hS, he, hst, hp, rfl⟩ := State.saveToSwap_next h
  refine ⟨S, e, store, hS, he, hst, fun j => ?_⟩
  simp only [State.space, Spaces.get_modify]
  by_cases hj : j = id
  · rw [if_pos hj, if_pos hj, hj]
    have : Spaces.get s.spaces id = some S := hS
    rw [this]
    rfl
  · rw [if_neg hj, if_neg hj]

theorem State.saveToSwap_eq {s t : State} {id v : Nat} (h : s.saveToSwap id v = .next t) : t = { s with spaces := t.spaces } := by
  obtain ⟨S, e, store, hS, he, hst, hp, rfl⟩ := State.saveToSwap_next h
  rfl

/-- `SaveToSwap` keeps the invariant. -/
theorem State.Inv.saveToSwap {s t : State} {id v : Nat} (h : s.Inv) (ht : s.saveToSwap id v = .next t) : t.Inv := by
  have hpte := State.saveToSwap_pte ht
  obtain ⟨S, e, store, hS, he, hst, hsp⟩ := State.saveToSwap_space ht
  have hr : t.spaces.map Prod.fst = s.spaces.map Prod.fst := by
    obtain ⟨_, _, _, -, -, -, -, hte⟩ := State.saveToSwap_next ht
    rw [hte]
    dsimp only
    rw [Spaces.keys_modify]
  have hrise : t.spaces.Pairwise fun p q => p.1 < q.1 := by
    rw [← List.pairwise_map (f := Prod.fst) (R := (· < ·)), hr, List.pairwise_map]
    exact h.rising
  have heq := State.saveToSwap_eq ht
  have hok := h.spaces id S hS
  have hspaces : ∀ j T, t.space j = some T → T.Ok := by
    intro j T hT
    rw [hsp] at hT
    split at hT
    · injection hT with hT
      subst hT
      exact
        { entries := hok.entries
          flags := by simpa using hok.flags
          index := hok.index
          file := hok.file
          swap := fun m hm => by
            injection hm with hm
            subst hm
            exact Memory.wf_writeBytes _ _ _ (hok.swap store hst) }
    · exact h.spaces j T hT
  have htable : ∀ j, s.activeTable = some j → ∃ T, t.space j = some T ∧ s.pageTableSize = T.numPages := by
    intro j hj
    obtain ⟨T, hT, hn⟩ := h.table j hj
    rw [hsp]
    split
    · rename_i hji
      subst hji
      rw [hS] at hT
      injection hT with hT
      subst hT
      exact ⟨_, rfl, hn⟩
    · exact ⟨T, hT, hn⟩
  clear ht
  generalize t.spaces = ss at heq
  subst heq
  exact
    { h with
      rising := hrise
      spaces := hspaces
      owned := fun j w d hd hv => h.owned j w d ((hpte j w).symm.trans hd) hv
      claimed := fun f c hc => by rw [hpte]; exact h.claimed f c hc
      table := htable
      tlbCopies := fun hu i hi => by
        obtain ⟨j, d, hc, hd, hv⟩ := h.tlbCopies hu i hi
        exact ⟨j, d, hc, (hpte _ _).trans hd, hv⟩ }

/-- What `Evict` can do (R209): fold the live copy back, write the page to swap if dirty, mark its entry invalid. -/
theorem State.evict_next {s t : State} {f : Nat} {c : Claim} (hc : s.claim f = some c) (h : s.evict f = .next t) :
    ∃ u e w, ((s.tlbResident c = none ∧ u = s) ∨ ∃ i, s.tlbResident c = some i ∧ s.flushTlb i = .next u) ∧
      u.pte c.owner c.vpn = some e ∧
      ((e.dirty = false ∧ w = u) ∨ (e.dirty = true ∧ u.saveToSwap c.owner c.vpn = .next w)) ∧
      t = w.modifyEntry (.table c.owner c.vpn) fun d => { d with valid := false } := by
  unfold State.evict at h
  rw [hc] at h
  obtain ⟨u, h1, h2⟩ := Result.andThen_next.mp h
  split at h2
  · cases h2
  · rename_i e he
    obtain ⟨w, h3, h4⟩ := Result.andThen_next.mp h2
    injection h4 with h4
    refine ⟨u, e, w, ?_, he, ?_, h4.symm⟩
    · unfold State.foldResident at h1
      split at h1
      · rename_i i hi; exact .inr ⟨i, hi, h1⟩
      · rename_i hn
        injection h1 with h1
        exact .inl ⟨hn, h1.symm⟩
    · split at h3
      · rename_i hd; exact .inr ⟨hd, h3⟩
      · rename_i hd
        injection h3 with h3
        exact .inl ⟨by simpa using hd, h3.symm⟩

theorem State.tlbResident_some {s : State} {c : Claim} {i : Fin 4} (h : s.tlbResident c = some i) :
    s.cfg.useTlb = true ∧ s.currentSpace = some c.owner ∧ s.tlb[i].valid = true ∧ s.tlb[i].virtualPage = c.vpn := by
  unfold State.tlbResident at h
  split at h
  · rename_i hc
    simp only [Bool.and_eq_true, beq_iff_eq] at hc
    exact ⟨hc.1, hc.2, State.tlbFind_some h⟩
  · cases h

theorem State.tlbResident_none {s : State} {c : Claim} (h : s.tlbResident c = none) (hu : s.cfg.useTlb = true)
    (hc : s.currentSpace = some c.owner) : s.tlbFind c.vpn = none := by
  unfold State.tlbResident at h
  rwa [if_pos (by simp [hu, hc])] at h

/-- No live copy of the page is left once the frame's mapping was flushed (R208, R209). -/
theorem State.Inv.no_copy {s u : State} {c : Claim} (h : s.Inv)
    (hu : (s.tlbResident c = none ∧ u = s) ∨ ∃ i, s.tlbResident c = some i ∧ s.flushTlb i = .next u)
    (ht : s.cfg.useTlb = true) (hc : s.currentSpace = some c.owner) (j : Fin 4) :
    ¬ (u.tlb[j].valid = true ∧ u.tlb[j].virtualPage = c.vpn) := by
  rcases hu with ⟨hn, rfl⟩ | ⟨i, hi, hf⟩
  · exact State.tlbFind_none (State.tlbResident_none hn ht hc) j
  · obtain ⟨-, -, h3, h4⟩ := State.tlbResident_some hi
    rw [State.flushTlb_tlb hf]
    by_cases hij : i = j
    · simp [hij]
    · simp only [hij, if_false]
      intro ⟨h5, h6⟩
      exact hij (h.tlbDistinct ht i j h3 h5 (h4.trans h6.symm))

/-- Eviction keeps the invariant, changes the TLB and the spaces only, and leaves the page's entry invalid. -/
theorem State.Inv.evict {s t : State} {f : Nat} {c : Claim} (h : s.Inv) (hc : s.claim f = some c) (ht : s.evict f = .next t) :
    t.Inv ∧ t = { s with tlb := t.tlb, spaces := t.spaces } ∧ ∃ d, t.pte c.owner c.vpn = some d ∧ d.valid = false := by
  obtain ⟨u, e, w, hu, he, hw, rfl⟩ := State.evict_next hc ht
  have hui : u.Inv := by
    rcases hu with ⟨-, rfl⟩ | ⟨i, hi, hf⟩
    · exact h
    · exact h.flushTlb (State.tlbResident_some hi).1 hf
  have hue : u = { s with tlb := u.tlb, spaces := u.spaces } := by
    rcases hu with ⟨-, rfl⟩ | ⟨i, -, hf⟩
    · rfl
    · exact State.flushTlb_eq hf
  have hwi : w.Inv := by
    rcases hw with ⟨-, rfl⟩ | ⟨-, hs⟩
    · exact hui
    · exact hui.saveToSwap hs
  have hwe : w = { u with spaces := w.spaces } := by
    rcases hw with ⟨-, rfl⟩ | ⟨-, hs⟩
    · rfl
    · exact State.saveToSwap_eq hs
  have hwp : w.pte c.owner c.vpn = some e := by
    rcases hw with ⟨-, rfl⟩ | ⟨-, hs⟩
    · exact he
    · rw [State.saveToSwap_pte hs, he]
  refine ⟨?_, ?_, ?_⟩
  · refine hwi.modifyTable _ _ _ (fun _ hv => hv) (fun _ _ hv => by simp at hv) fun hu' hc' j hj1 hj2 _ _ => ?_
    exfalso
    have hcfg : w.cfg = s.cfg := by rw [hwe, hue]
    have hcur : w.currentSpace = s.currentSpace := by rw [hwe, hue]
    have htlb : w.tlb = u.tlb := by rw [hwe]
    rw [hcfg] at hu'
    rw [hcur] at hc'
    rw [htlb] at hj1 hj2
    exact h.no_copy hu hu' hc' j ⟨hj1, hj2⟩
  · rw [State.modifyEntry]
    simp only
    rw [hwe, hue]
  · exact ⟨{ e with valid := false }, by rw [State.pte_modifyEntry, if_pos rfl, hwp]; rfl, rfl⟩

/-- Eviction answers, unless the page is dirty and its owner has no swap store, where it is refused (R209, U7). -/
theorem State.Inv.evict_answers {s : State} {f : Nat} {c : Claim} {r : EntryRef} {e : TranslationEntry} {S : AddressSpace} (h : s.Inv)
    (hc : s.claim f = some c) (hfe : s.frameEntry f = some (r, e)) (hS : s.space c.owner = some S) :
    (e.dirty = true → S.swap = none → s.evict f = .refused (.noSwapStore c.owner)) ∧
    ((e.dirty = true → e.valid = true ∧ S.swap ≠ none) → ∃ t, s.evict f = .next t) := by
  have hfold : ∃ w, s.foldResident c = .next w ∧ w.Inv ∧ w.pte c.owner c.vpn = some e ∧
      ∃ T, w.space c.owner = some T ∧ T.swap = S.swap := by
    unfold State.frameEntry at hfe
    rw [hc] at hfe
    unfold State.foldResident
    cases hr : s.tlbResident c with
    | none =>
      simp only [hr, Option.map_eq_some_iff, Prod.mk.injEq] at hfe
      obtain ⟨d, hd, -, rfl⟩ := hfe
      exact ⟨s, rfl, h, hd, S, hS, rfl⟩
    | some i =>
      simp only [hr, Option.some.injEq, Prod.mk.injEq] at hfe
      obtain ⟨h1, h2, h3, h4⟩ := State.tlbResident_some hr
      obtain ⟨w, hw⟩ := h.flushTlb_answers h1 i
      refine ⟨w, hw, h.flushTlb h1 hw, ?_, ?_⟩
      · rw [State.flushTlb_pte hw, if_pos ⟨h3, h2, h4⟩, hfe.2]
      · have hsp := State.flushTlb_space hw c.owner
        rw [hS] at hsp
        obtain ⟨T, hT, hTe⟩ := Option.map_eq_some_iff.mp hsp
        have hswap := congrArg AddressSpace.swap hTe
        exact ⟨T, hT, hswap⟩
  obtain ⟨w, hw, hwi, he, T, hT, hsw⟩ := hfold
  unfold State.evict
  simp only [hc, hw, Result.andThen_apply, he]
  refine ⟨fun hd hn => ?_, fun hok => ?_⟩
  · rw [if_pos hd]
    unfold State.saveToSwap
    simp only [hT, he, hsw, hn]
    rfl
  · by_cases hd : e.dirty = true
    · obtain ⟨hv, hn⟩ := hok hd
      obtain ⟨store, hst⟩ := Option.ne_none_iff_exists'.mp hn
      have hp : ¬ w.cfg.numPhysPages ≤ e.physicalPage := Nat.not_le.mpr (hwi.owned _ _ _ he hv).1
      rw [if_pos hd]
      unfold State.saveToSwap
      simp only [hT, he, hsw, hst, if_neg hp]
      exact ⟨_, rfl⟩
    · rw [if_neg hd]
      exact ⟨_, rfl⟩

/-! ## Find -/

/-- The frame `freeFrame` names is free, and it is the lowest free one (R204). -/
theorem State.freeFrame_some {s : State} {f : Nat} (h : s.freeFrame = some f) :
    f < s.coremap.length ∧ s.claim f = none ∧ ∀ g, g < f → s.claim g ≠ none := by
  unfold State.freeFrame at h
  obtain ⟨hlt, hf, hmin⟩ := List.findIdx?_eq_some_iff_getElem.mp h
  refine ⟨hlt, ?_, fun g hg => ?_⟩
  · unfold State.claim
    rw [List.getElem?_eq_getElem hlt]
    simpa using hf
  · unfold State.claim
    rw [List.getElem?_eq_getElem (Nat.lt_trans hg hlt)]
    have := hmin g hg
    intro hn
    simp only at hn
    rw [hn] at this
    simp at this

theorem State.freeFrame_none {s : State} (h : s.freeFrame = none) (f : Nat) (hf : f < s.coremap.length) :
    ∃ c, s.claim f = some c := by
  unfold State.freeFrame at h
  rw [List.findIdx?_eq_none_iff] at h
  have := h s.coremap[f] (List.getElem_mem hf)
  unfold State.claim
  rw [List.getElem?_eq_getElem hf]
  cases hc : s.coremap[f] with
  | none => rw [hc] at this; simp at this
  | some c => exact ⟨c, rfl⟩

/-- A pair that claims a frame stands in the coremap. -/
theorem State.claim_ne_of_not_mem {s : State} {c : Claim} (h : some c ∉ s.coremap) (f : Nat) : s.claim f ≠ some c := by
  intro hc
  exact h (List.mem_of_getElem? (State.claim_some.mp hc))

/-- What `Find` can do (R203): the lowest free frame, or the clock's victim evicted; the pair held no frame and then claims this
one. -/
theorem State.find_next {s t : State} {id v f : Nat} (h : s.find id v = .next (f, t)) :
    ∃ S, s.space id = some S ∧ v < S.numPages ∧ some { owner := id, vpn := v } ∉ s.coremap ∧
      ((s.freeFrame = some f ∧ t = s.setClaim f (some { owner := id, vpn := v })) ∨
       ∃ u w, s.freeFrame = none ∧ s.selectVictim = .next (f, u) ∧ u.evict f = .next w ∧
         t = w.setClaim f (some { owner := id, vpn := v })) := by
  unfold State.find at h
  split at h
  · cases h
  · rename_i S hS
    split at h
    · cases h
    · rename_i hv
      split at h
      · cases h
      · rename_i hm
        refine ⟨S, hS, by omega, hm, ?_⟩
        split at h
        · rename_i g hg
          injection h with h
          injection h with h1 h2
          subst h1
          exact .inl ⟨hg, h2.symm⟩
        · rename_i hn
          obtain ⟨⟨g, u⟩, h1, h2⟩ := Result.andThen_next.mp h
          obtain ⟨w, h3, h4⟩ := Result.andThen_next.mp h2
          injection h4 with h4
          injection h4 with h5 h6
          subst h5
          exact .inr ⟨u, w, hn, h1, h3, h6.symm⟩

/-- What stays over the operations that may evict: all but memory, the TLB, the spaces and the coremap. -/
structure Kept (s t : State) : Prop where
  eq : t = { s with mem := t.mem, tlb := t.tlb, spaces := t.spaces, coremap := t.coremap, lastVictim := t.lastVictim }

theorem Kept.refl (s : State) : Kept s s := ⟨rfl⟩

theorem Kept.trans {s t u : State} (h : Kept s t) (g : Kept t u) : Kept s u := ⟨by rw [g.eq, h.eq]⟩

theorem Kept.cfg {s t : State} (h : Kept s t) : t.cfg = s.cfg := by rw [h.eq]

theorem Kept.currentSpace {s t : State} (h : Kept s t) : t.currentSpace = s.currentSpace := by rw [h.eq]

theorem Kept.activeTable {s t : State} (h : Kept s t) : t.activeTable = s.activeTable := by rw [h.eq]

theorem Kept.pageTableSize {s t : State} (h : Kept s t) : t.pageTableSize = s.pageTableSize := by rw [h.eq]

theorem Kept.pcs {s t : State} (h : Kept s t) : t.pc = s.pc ∧ t.nextPc = s.nextPc := by rw [h.eq]; exact ⟨rfl, rfl⟩

/-- The parts of a space no operation of the coremap changes. -/
def AddressSpace.image (S : AddressSpace) : AddressSpace := { S with pageTable := [], swap := none, inSwap := [] }

/-- Every space keeps its image and its number of pages. -/
def SameImages (s t : State) : Prop :=
  ∀ j, (t.space j).map AddressSpace.image = (s.space j).map AddressSpace.image

theorem SameImages.refl (s : State) : SameImages s s := fun _ => rfl

theorem SameImages.trans {s t u : State} (h : SameImages s t) (g : SameImages t u) : SameImages s u := fun j => (g j).trans (h j)

theorem SameImages.space {s t : State} (h : SameImages s t) {j : Nat} {S : AddressSpace} (hS : s.space j = some S) :
    ∃ T, t.space j = some T ∧ T.image = S.image := by
  have := h j
  rw [hS] at this
  obtain ⟨T, hT, he⟩ := Option.map_eq_some_iff.mp this
  exact ⟨T, hT, he⟩

theorem SameImages.modifyEntry (s : State) (r : EntryRef) (f : TranslationEntry → TranslationEntry) :
    SameImages s (s.modifyEntry r f) := by
  intro j
  rw [State.space_modifyEntry]
  cases r with
  | tlb i => rfl
  | table id v =>
    simp only
    split
    · rw [Option.map_map]; rfl
    · rfl

theorem SameImages.of_mappings {s t : State} (h : SameMappings s t) : SameImages s t := by
  intro j
  have := congrArg (Option.map AddressSpace.image) (h.spaces j)
  rw [Option.map_map, Option.map_map] at this
  exact this

theorem SameImages.congr {s t : State} (h : t.spaces = s.spaces) : SameImages s t := fun j => by rw [State.space_congr h]

theorem State.flushTlb_images {s t : State} {i : Fin 4} (h : s.flushTlb i = .next t) : SameImages s t := by
  cases hv : s.tlb[i].valid with
  | false =>
    rw [State.flushTlb_of_invalid hv] at h
    injection h with h
    exact h ▸ .refl s
  | true =>
    obtain ⟨id, e, hc, he, rfl⟩ := State.flushTlb_next hv h
    exact (SameImages.modifyEntry s _ _).trans (SameImages.modifyEntry _ _ _)

theorem State.saveToSwap_images {s t : State} {id v : Nat} (h : s.saveToSwap id v = .next t) : SameImages s t := by
  obtain ⟨S, e, store, hS, he, hst, hsp⟩ := State.saveToSwap_space h
  intro j
  rw [hsp]
  split
  · rename_i hj
    rw [hj, hS]
    rfl
  · rfl

theorem State.evict_images {s t : State} {f : Nat} {c : Claim} (hc : s.claim f = some c) (h : s.evict f = .next t) :
    SameImages s t := by
  obtain ⟨u, e, w, hu, he, hw, rfl⟩ := State.evict_next hc h
  have h1 : SameImages s u := by
    rcases hu with ⟨-, rfl⟩ | ⟨i, -, hf⟩
    · exact .refl _
    · exact State.flushTlb_images hf
  have h2 : SameImages u w := by
    rcases hw with ⟨-, rfl⟩ | ⟨-, hs⟩
    · exact .refl _
    · exact State.saveToSwap_images hs
  exact (h1.trans h2).trans (SameImages.modifyEntry w _ _)

/-- `Find` keeps the invariant; the frame it answers exists, the pair claims it, and every other claim is as before. -/
theorem State.Inv.find {s t : State} {id v f : Nat} (h : s.Inv) (ht : s.find id v = .next (f, t)) :
    t.Inv ∧ f < s.cfg.numPhysPages ∧ t.claim f = some { owner := id, vpn := v } ∧ (∀ g, g ≠ f → t.claim g = s.claim g) ∧
      (∃ e, t.pte id v = some e) ∧ Kept s t ∧ SameImages s t := by
  obtain ⟨S, hS, hv, hm, ⟨hf, rfl⟩ | ⟨u, w, hn, hu, hw, rfl⟩⟩ := State.find_next ht
  · obtain ⟨hlt, hfree, -⟩ := State.freeFrame_some hf
    have hfn : f < s.cfg.numPhysPages := by rw [← h.frames]; exact hlt
    obtain ⟨e, he⟩ := h.pte_isSome hS hv
    refine ⟨h.setClaim f _ (by simp only; rw [he]; rfl) (State.claim_ne_of_not_mem hm) (fun d e hd _ => ?_) hfn, hfn, ?_,
      fun g hg => ?_, ⟨e, he⟩, ⟨rfl⟩, .congr rfl⟩
    · rw [hfree] at hd; cases hd
    · rw [State.claim_setClaim _ _ _ _ hlt, if_pos rfl]
    · rw [State.claim_setClaim _ _ _ _ hlt, if_neg hg]
  · obtain ⟨hfn, hui, hue, hum⟩ := State.selectVictim_next hu
    have hui := hui h
    have huc : ∀ g, u.claim g = s.claim g := State.claim_congr (by rw [hue])
    obtain ⟨c, hc⟩ := State.freeFrame_none hn f (by rw [h.frames]; exact hfn)
    have hcu : u.claim f = some c := (huc f).trans hc
    obtain ⟨hwi, hwe, d, hd, hdv⟩ := hui.evict hcu hw
    have hwc : ∀ g, w.claim g = s.claim g := fun g => (State.claim_congr (by rw [hwe]) g).trans (huc g)
    have hwn : f < w.cfg.numPhysPages := by rw [hwe, hue]; exact hfn
    have hwl : f < w.coremap.length := by rw [hwi.frames]; exact hwn
    have him : SameImages s w := (SameImages.of_mappings hum).trans (State.evict_images hcu hw)
    obtain ⟨T, hT, hTi⟩ := him.space hS
    have hvT : v < T.numPages := by
      have := congrArg AddressSpace.numPages hTi
      simp only [AddressSpace.image] at this
      rw [this]
      exact hv
    obtain ⟨e, he⟩ := hwi.pte_isSome hT hvT
    refine ⟨hwi.setClaim f _ (by simp only; rw [he]; rfl) (fun g hg => ?_) (fun d' e' hd' he' => ?_) hwn, hfn, ?_, fun g hg => ?_,
      ⟨e, he⟩, ⟨?_⟩, ?_⟩
    · rw [hwc] at hg
      exact State.claim_ne_of_not_mem hm g hg
    · rw [hwc, hc] at hd'
      injection hd' with hd'
      subst hd'
      rw [hd] at he'
      injection he' with he'
      exact he' ▸ hdv
    · rw [State.claim_setClaim _ _ _ _ hwl, if_pos rfl]
    · rw [State.claim_setClaim _ _ _ _ hwl, if_neg hg, hwc]
    · rw [State.setClaim, hwe, hue]
    · exact him.trans (.congr rfl)

end Sys2Proof.Machine
end

