-- ==== Sys2Proof/Laws/Clock.lean ====
section
/-! SUPPORT. The two passes of the clock (50_frame_allocator.md R206, R207) by lists. -/
namespace Sys2Proof.Machine

/-- Under the invariant a claimed frame has its entry (R205). -/
theorem State.Inv.frameEntry_claimed {s : State} {f : Nat} {c : Claim} (h : s.Inv) (hc : s.claim f = some c) : ∃ r e, s.frameEntry f = some (r, e) ∧ s.entryAt r = some e := by
  unfold State.frameEntry
  rw [hc]
  simp only
  cases hr : s.tlbResident c with
  | some i => exact ⟨_, _, rfl, rfl⟩
  | none =>
    obtain ⟨e, he⟩ := Option.isSome_iff_exists.mp (h.claimed f c hc)
    exact ⟨.table c.owner c.vpn, e, by rw [he]; rfl, he⟩

/-- Clearing a `use` bit hides no TLB entry. -/
theorem State.tlbFind_clearUse {s : State} (r : EntryRef) (v : Nat) : (s.modifyEntry r fun d => { d with use := false }).tlbFind v = s.tlbFind v := by
  unfold State.tlbFind
  congr 1
  funext i
  simp only [State.tlb_modifyEntry]
  split <;> rfl

/-- Two frames do not share an entry. -/
theorem State.Inv.frameEntry_inj {s : State} {f g : Nat} {r : EntryRef} {d e : TranslationEntry} (h : s.Inv) (hf : s.frameEntry f = some (r, d)) (hg : s.frameEntry g = some (r, e)) : f = g := by
  unfold State.frameEntry at hf hg
  cases hcf : s.claim f with
  | none => rw [hcf] at hf; cases hf
  | some c =>
    cases hcg : s.claim g with
    | none => rw [hcg] at hg; cases hg
    | some b =>
      rw [hcf] at hf; rw [hcg] at hg
      simp only at hf hg
      cases hrc : s.tlbResident c with
      | some i =>
        rw [hrc] at hf
        simp only [Option.some.injEq, Prod.mk.injEq] at hf
        cases hrb : s.tlbResident b with
        | some j =>
          rw [hrb] at hg
          simp only [Option.some.injEq, Prod.mk.injEq] at hg
          rw [← hf.1] at hg
          have hij : j = i := EntryRef.tlb.inj hg.1
          subst hij
          obtain ⟨h1, h2, h3, h4⟩ := State.tlbResident_some hrc
          obtain ⟨g1, g2, g3, g4⟩ := State.tlbResident_some hrb
          have : c = b := by
            cases c; cases b; simp_all
          subst this
          exact h.oneFrame _ _ _ hcf hcg
        | none =>
          rw [hrb] at hg
          simp only [Option.map_eq_some_iff, Prod.mk.injEq] at hg
          obtain ⟨a, -, h1, -⟩ := hg
          rw [← hf.1] at h1; cases h1
      | none =>
        rw [hrc] at hf
        simp only [Option.map_eq_some_iff, Prod.mk.injEq] at hf
        obtain ⟨a, -, h1, -⟩ := hf
        cases hrb : s.tlbResident b with
        | some j =>
          rw [hrb] at hg
          simp only [Option.some.injEq, Prod.mk.injEq] at hg
          rw [← hg.1] at h1; cases h1
        | none =>
          rw [hrb] at hg
          simp only [Option.map_eq_some_iff, Prod.mk.injEq] at hg
          obtain ⟨a', -, h2, -⟩ := hg
          rw [← h2] at h1
          injection h1 with h5 h6
          have : c = b := by cases c; cases b; simp_all
          subst this
          exact h.oneFrame _ _ _ hcf hcg

/-- Clearing the `use` bit of a frame's entry changes that frame's entry only. -/
theorem State.Inv.frameEntry_clearUse {s : State} {f g : Nat} {r : EntryRef} {d : TranslationEntry} (h : s.Inv) (hf : s.frameEntry f = some (r, d)) :
   (s.modifyEntry r fun d => { d with use := false }).frameEntry g = if g = f then some (r, { d with use := false }) else s.frameEntry g := by
  have key : (s.modifyEntry r fun d => { d with use := false }).frameEntry g = (s.frameEntry g).map fun p => if p.1 = r then (p.1, { p.2 with use := false }) else p := by
    unfold State.frameEntry
    have hcl : (s.modifyEntry r fun d => { d with use := false }).claim g = s.claim g := State.claim_congr (by simp) g
    rw [hcl]
    cases hc : s.claim g with
    | none => rfl
    | some c =>
      simp only
      have hres : (s.modifyEntry r fun d => { d with use := false }).tlbResident c = s.tlbResident c := by
        unfold State.tlbResident; rw [State.tlbFind_clearUse]; simp
      rw [hres]
      cases hr : s.tlbResident c with
      | some i =>
        simp only [Option.map_some]
        rw [State.tlb_modifyEntry]
        by_cases hri : r = .tlb i
        · simp [hri]
        · simp [hri, Ne.symm hri]
      | none =>
        simp only
        rw [State.pte_modifyEntry]
        by_cases hri : r = .table c.owner c.vpn
        · simp only [hri, if_true, Option.map_map]; congr 1; funext e; simp
        · simp only [hri, if_false, Option.map_map]; congr 1; funext e; simp [Ne.symm hri]
  rw [key]
  by_cases hgf : g = f
  · subst hgf; simp [hf]
  · rw [if_neg hgf]
    cases hg : s.frameEntry g with
    | none => rfl
    | some p =>
      simp only [Option.map_some]
      rw [if_neg]
      intro hp
      obtain ⟨q, e⟩ := p
      subst hp
      exact hgf (State.Inv.frameEntry_inj h hg hf)

/-- Pass 1 answers the first unused clean frame, has cleared the `use` bits before it and changed no other place (R206). -/
theorem State.Inv.scanPass1_spec (fs : List Nat) {s : State} (h : s.Inv) (hn : fs.Nodup) (hc : ∀ f ∈ fs, s.claim f ≠ none) :
   ∃ t, s.scanPass1 fs = .next (fs.find? s.unusedClean, t) ∧
    (∀ f ∈ fs.takeWhile (fun g => !s.unusedClean g), ∃ r e, s.frameEntry f = some (r, e) ∧ t.frameEntry f = some (r, { e with use := false })) ∧
    (∀ f, f ∉ fs.takeWhile (fun g => !s.unusedClean g) → t.frameEntry f = s.frameEntry f) ∧
    (∀ q, (∀ f ∈ fs.takeWhile (fun g => !s.unusedClean g), ∀ e, s.frameEntry f ≠ some (q, e)) → t.entryAt q = s.entryAt q) := by
  induction fs generalizing s with
  | nil => exact ⟨s, rfl, by simp, by simp, fun _ _ => rfl⟩
  | cons f fs ih =>
    obtain ⟨hnf, hn⟩ := List.nodup_cons.mp hn
    obtain ⟨c, hcf⟩ := Option.ne_none_iff_exists'.mp (hc f (by simp))
    obtain ⟨r, e, hfe, -⟩ := State.Inv.frameEntry_claimed h hcf
    unfold State.scanPass1
    rw [hfe]
    simp only
    by_cases hu : e.use
    · rw [if_pos hu]
      have huc : s.unusedClean f = false := by simp [State.unusedClean, hfe, hu]
      have hi : (s.modifyEntry r fun d => { d with use := false }).Inv := h.modifyEntry r _ fun _ => ⟨rfl, rfl, rfl⟩
      have hsame : ∀ g ∈ fs, (s.modifyEntry r fun d => { d with use := false }).unusedClean g = s.unusedClean g := by
        intro g hg
        unfold State.unusedClean
        rw [State.Inv.frameEntry_clearUse h hfe, if_neg (by rintro rfl; exact hnf hg)]
      obtain ⟨t, h1, h2, h3, h4⟩ := ih hi hn (fun g hg => by
        rw [State.claim_congr (s := s) (by simp)]; exact hc g (by simp [hg]))
      have hfind : fs.find? (s.modifyEntry r fun d => { d with use := false }).unusedClean = fs.find? s.unusedClean :=
        List.find?_congr fun g hg => hsame g hg
      have htw : fs.takeWhile (fun g => !(s.modifyEntry r fun d => { d with use := false }).unusedClean g) = fs.takeWhile (fun g => !s.unusedClean g) := by
        have aux : ∀ l : List Nat, (∀ g ∈ l, (s.modifyEntry r fun d => { d with use := false }).unusedClean g = s.unusedClean g) → l.takeWhile (fun g => !(s.modifyEntry r fun d => { d with use := false }).unusedClean g) = l.takeWhile (fun g => !s.unusedClean g) := by
          intro l hl
          induction l with
          | nil => rfl
          | cons g gs ih2 => rw [List.takeWhile_cons, List.takeWhile_cons, hl g (by simp), ih2 (fun k hk => hl k (by simp [hk]))]
        exact aux fs hsame
      refine ⟨t, ?_, ?_, ?_, ?_⟩
      · rw [h1, hfind, List.find?_cons, huc]
      · rw [List.takeWhile_cons, huc]
        intro g hg
        simp only [Bool.not_false, if_true, List.mem_cons] at hg
        rcases hg with rfl | hg
        · refine ⟨r, e, hfe, ?_⟩
          rw [h3 g, State.Inv.frameEntry_clearUse h hfe, if_pos rfl]
          rw [htw]; intro hg; exact hnf (List.takeWhile_prefix _ |>.subset hg)
        · obtain ⟨r', e', h5, h6⟩ := h2 g (by rw [htw]; exact hg)
          rw [State.Inv.frameEntry_clearUse h hfe, if_neg (by rintro rfl; exact hnf (List.takeWhile_prefix _ |>.subset hg))] at h5
          exact ⟨r', e', h5, h6⟩
      · intro g hg
        rw [List.takeWhile_cons, huc] at hg
        simp only [Bool.not_false, if_true, List.mem_cons, not_or] at hg
        rw [h3 g (by rw [htw]; exact hg.2), State.Inv.frameEntry_clearUse h hfe, if_neg hg.1]
      · intro q hq
        rw [List.takeWhile_cons, huc] at hq
        simp only [Bool.not_false, if_true, List.mem_cons, forall_eq_or_imp] at hq
        have hrq : r ≠ q := by rintro rfl; exact hq.1 e hfe
        rw [h4 q, State.entryAt_modifyEntry, if_neg hrq]
        intro g hg d
        rw [htw] at hg
        rw [State.Inv.frameEntry_clearUse h hfe, if_neg (by rintro rfl; exact hnf (List.takeWhile_prefix _ |>.subset hg))]
        exact hq.2 g hg d
    · rw [if_neg hu]
      by_cases hd : e.dirty
      · rw [if_pos hd]
        have huc : s.unusedClean f = false := by simp [State.unusedClean, hfe, hd]
        obtain ⟨t, h1, h2, h3, h4⟩ := ih h hn (fun g hg => hc g (by simp [hg]))
        refine ⟨t, ?_, ?_, ?_, ?_⟩
        · rw [h1, List.find?_cons, huc]
        · rw [List.takeWhile_cons, huc]
          intro g hg
          simp only [Bool.not_false, if_true, List.mem_cons] at hg
          rcases hg with rfl | hg
          · refine ⟨r, e, hfe, ?_⟩
            rw [h3 g (fun hg => hnf (List.takeWhile_prefix _ |>.subset hg)), hfe]
            have : e.use = false := by simpa using hu
            rw [← this]
          · exact h2 g hg
        · intro g hg
          rw [List.takeWhile_cons, huc] at hg
          simp only [Bool.not_false, if_true, List.mem_cons, not_or] at hg
          exact h3 g hg.2
        · intro q hq
          rw [List.takeWhile_cons, huc] at hq
          simp only [Bool.not_false, if_true, List.mem_cons, forall_eq_or_imp] at hq
          exact h4 q hq.2
      · rw [if_neg hd]
        have huc : s.unusedClean f = true := by simp [State.unusedClean, hfe, hd, hu]
        refine ⟨s, by rw [List.find?_cons, huc], ?_, fun _ _ => rfl, fun _ _ => rfl⟩
        rw [List.takeWhile_cons, huc]; simp

/-- Pass 2 answers the first clean frame (R207). -/
theorem State.Inv.scanPass2_spec (fs : List Nat) {s : State} (h : s.Inv) (hc : ∀ f ∈ fs, s.claim f ≠ none) : s.scanPass2 fs = .next (fs.find? s.cleanFrame) := by
  induction fs with
  | nil => rfl
  | cons f fs ih =>
    obtain ⟨c, hcf⟩ := Option.ne_none_iff_exists'.mp (hc f (by simp))
    obtain ⟨r, e, hfe, -⟩ := State.Inv.frameEntry_claimed h hcf
    unfold State.scanPass2
    rw [hfe, List.find?_cons]
    have hcl : s.cleanFrame f = !e.dirty := by simp [State.cleanFrame, hfe]
    rw [hcl]
    simp only
    by_cases hd : e.dirty
    · rw [if_pos hd]; simp only [hd, Bool.not_true]; exact ih fun g hg => hc g (by simp [hg])
    · rw [if_neg hd]; simp [hd]

/-- A pass examines no frame twice (R206). -/
theorem nodup_scanOrder {start n : Nat} : (scanOrder start n).Nodup := by
  unfold scanOrder
  refine List.Nodup.map_on ?_ List.nodup_range
  intro a ha b hb hab
  rw [List.mem_range] at ha hb
  have : (start + a) ≡ (start + b) [MOD n] := hab
  have := Nat.ModEq.add_left_cancel' start this
  rwa [Nat.ModEq, Nat.mod_eq_of_lt ha, Nat.mod_eq_of_lt hb] at this

end Sys2Proof.Machine
end

