-- ==== Sys2Proof/Laws/InvCheck.lean ====
section
/-! SUPPORT. The invariant as a check that runs, so that a concrete state can be shown to meet it. -/
namespace Sys2Proof.Machine

/-- The rules of `AddressSpace.Ok`. -/
def AddressSpace.check (S : AddressSpace) : Bool :=
  S.pageTable.length == S.numPages && S.inSwap.length == S.numPages &&
  (List.range S.pageTable.length).all (fun v => (S.pageTable[v]?).all fun e => e.virtualPage == v) &&
  decide (Memory.wf S.file) && S.swap.all (fun m => decide (Memory.wf m))

/-- The valid entries of one space are owned. -/
def State.checkOwned (s : State) (id : Nat) (S : AddressSpace) : Bool :=
  (List.range S.pageTable.length).all fun v => (S.pageTable[v]?).all fun e =>
    !e.valid || (decide (e.physicalPage < s.cfg.numPhysPages) && s.claim e.physicalPage == some { owner := id, vpn := v })

/-- The claims name pages, and no pair two frames. -/
def State.checkClaims (s : State) : Bool :=
  (List.range s.coremap.length).all fun f => (s.claim f).all fun c =>
    (s.pte c.owner c.vpn).isSome && (List.range s.coremap.length).all fun g => g == f || s.claim g != some c

/-- The TLB's entries copy entries of the current space, and no two have one vpn. -/
def State.checkTlb (s : State) : Bool :=
  !s.cfg.useTlb || tlbOrder.all fun i => !s.tlb[i].valid ||
    (match s.currentSpace with
      | none => false
      | some id => (s.pte id s.tlb[i].virtualPage).any fun e => e.valid && e.physicalPage == s.tlb[i].physicalPage) &&
    tlbOrder.all fun j => i == j || !(s.tlb[j].valid && s.tlb[i].virtualPage == s.tlb[j].virtualPage)

/-- The whole invariant. -/
def State.check (s : State) : Bool :=
  decide (Memory.wf s.mem) && s.mem.all (fun c => decide (c.1 < s.physSize)) && s.x[0] == 0 &&
  s.coremap.length == s.cfg.numPhysPages && decide (s.lastVictim < s.cfg.numPhysPages) &&
  decide (s.spaces.Pairwise fun p q => p.1 < q.1) && s.spaces.all (fun p => p.2.check && s.checkOwned p.1 p.2) &&
  s.checkClaims && (s.activeTable.all fun id => (s.space id).any fun S => s.pageTableSize == S.numPages) && s.checkTlb

theorem Spaces.mem_of_get {l : List (Nat × AddressSpace)} {id : Nat} {S : AddressSpace} (h : Spaces.get l id = some S) :
    (id, S) ∈ l := by
  induction l with
  | nil => cases h
  | cons p rest ih =>
    obtain ⟨k, T⟩ := p
    rw [Spaces.get] at h
    split at h
    · rename_i hk
      injection h with h
      subst hk h
      exact List.mem_cons_self
    · exact List.mem_cons_of_mem _ (ih h)

theorem State.claim_lt {s : State} {f : Nat} {c : Claim} (h : s.claim f = some c) : f < s.coremap.length := by
  unfold State.claim at h
  by_contra hf
  rw [List.getElem?_eq_none (by omega)] at h
  cases h

theorem AddressSpace.ok_of_check {S : AddressSpace} (h : S.check = true) : S.Ok := by
  simp only [AddressSpace.check, Bool.and_eq_true, beq_iff_eq, List.all_eq_true, List.mem_range, decide_eq_true_eq] at h
  obtain ⟨⟨⟨⟨h1, h2⟩, h3⟩, h4⟩, h5⟩ := h
  refine ⟨h1, h2, fun v e he => ?_, h4, fun m hm => ?_⟩
  · have := h3 v (List.getElem?_eq_some_iff.mp he).1
    simpa [he] using this
  · exact of_decide_eq_true ((Option.all_eq_true _ _).mp h5 m hm)

/-- A state that passes the check meets the invariant. -/
theorem State.inv_of_check {s : State} (h : s.check = true) : s.Inv := by
  simp only [State.check, Bool.and_eq_true, beq_iff_eq, List.all_eq_true, decide_eq_true_eq] at h
  obtain ⟨⟨⟨⟨⟨⟨⟨⟨⟨h1, h2⟩, h3⟩, h4⟩, h5⟩, h6⟩, h7⟩, h8⟩, h9⟩, h10⟩ := h
  have hspace {id S} (hS : s.space id = some S) := h7 _ (Spaces.mem_of_get hS)
  simp only [State.checkClaims, List.all_eq_true, List.mem_range, Option.all_eq_true, Bool.and_eq_true, Bool.or_eq_true,
    beq_iff_eq, bne_iff_ne] at h8
  refine ⟨h1, h2, h3, h4, h5, h6, fun id S hS => AddressSpace.ok_of_check (hspace hS).1, fun id v e he hv => ?_, fun f g c hf hg => ?_,
    fun f c hf => (h8 f (State.claim_lt hf) c hf).1, fun id hid => ?_, fun hu i hi => ?_, fun hu i j hi hj hij => ?_⟩
  · obtain ⟨S, hS, hSe⟩ : ∃ S, s.space id = some S ∧ S.pageTable[v]? = some e := by
      unfold State.pte at he
      cases hS : s.space id with
      | none => simp [hS] at he
      | some S => exact ⟨S, rfl, by simpa [hS] using he⟩
    have := (hspace hS).2
    simp only [State.checkOwned, List.all_eq_true, List.mem_range] at this
    have := this v (List.getElem?_eq_some_iff.mp hSe).1
    simpa [hSe, hv] using this
  · rcases (h8 g (State.claim_lt hg) c hg).2 f (State.claim_lt hf) with h | h
    · exact h
    · exact absurd hf h
  · rw [hid] at h9
    simpa [Option.any_eq_true] using h9
  · simp only [State.checkTlb, hu, Bool.not_true, Bool.false_or, List.all_eq_true] at h10
    have := h10 i (mem_tlbOrder i)
    simp only [hi, Bool.not_true, Bool.false_or, Bool.and_eq_true] at this
    cases hc : s.currentSpace with
    | none => simp [hc] at this
    | some id =>
      obtain ⟨e, he, h⟩ := (Option.any_eq_true _ _).mp (by simpa [hc] using this.1)
      simp only [Bool.and_eq_true, beq_iff_eq] at h
      exact ⟨id, e, rfl, he, h⟩
  · simp only [State.checkTlb, hu, Bool.not_true, Bool.false_or, List.all_eq_true] at h10
    have := h10 i (mem_tlbOrder i)
    simp only [hi, Bool.not_true, Bool.false_or, Bool.and_eq_true, List.all_eq_true] at this
    have := this.2 j (mem_tlbOrder j)
    simp only [hj, hij, Bool.true_and, beq_self_eq_true, Bool.not_true, Bool.or_false, beq_iff_eq] at this
    exact this

end Sys2Proof.Machine
end

