-- ==== Sys2Proof/Laws/Loading.lean ====
section
/-! SUPPORT. Loading pages, construction, destruction, context switch and page-fault resolution: what each can do when it answers, and
that it keeps the invariant. -/
namespace Sys2Proof.Machine

theorem AddressSpace.length_imagePage (S : AddressSpace) (n v : Nat) : (S.imagePage n v).length = n := by
  simp [AddressSpace.imagePage]

/-- Marking a page resident in the frame its pair claims keeps the invariant (R220, R225). -/
theorem State.Inv.setLoaded {s : State} (h : s.Inv) {id v f : Nat} (hf : f < s.cfg.numPhysPages)
    (hc : s.claim f = some { owner := id, vpn := v }) : (s.setPte id v (.loaded v f)).Inv := by
  refine h.setPte id v _ rfl (fun _ => ⟨hf, hc⟩) fun hu hcur i hi hp => ⟨rfl, ?_⟩
  obtain ⟨j, e, hj, he, hev, hep⟩ := h.tlbCopies hu i hi
  rw [hcur] at hj
  injection hj with hj
  subst hj
  rw [hp] at he
  exact (h.oneFrame f e.physicalPage _ hc (h.owned id v e he hev).2).trans hep

/-- What `LoadSegment` can do (R220). -/
theorem State.loadSegment_next {s t : State} {id va : Nat} (h : s.loadSegment id va = .next t) :
    ∃ S f u, s.space id = some S ∧ s.find id (va / s.cfg.pageSize) = .next (f, u) ∧
      t = (u.fillFrame f (S.imagePage s.cfg.pageSize (va / s.cfg.pageSize))).setPte id (va / s.cfg.pageSize)
        (.loaded (va / s.cfg.pageSize) f) := by
  unfold State.loadSegment at h
  split at h
  · cases h
  · rename_i S hS
    obtain ⟨⟨f, u⟩, h1, h2⟩ := Result.andThen_next.mp h
    injection h2 with h2
    exact ⟨S, f, u, hS, h1, h2.symm⟩

/-- `LoadSegment` keeps the invariant. -/
theorem State.Inv.loadSegment {s t : State} {id va : Nat} (h : s.Inv) (ht : s.loadSegment id va = .next t) :
    t.Inv ∧ Kept s t ∧ SameImages s t := by
  obtain ⟨S, f, u, hS, hfu, rfl⟩ := State.loadSegment_next ht
  obtain ⟨hui, hf, hc, -, -, hk, him⟩ := h.find hfu
  have hfn : f < u.cfg.numPhysPages := by rw [hk.cfg]; exact hf
  have h1 := hui.fillFrame f hfn (S.imagePage s.cfg.pageSize (va / s.cfg.pageSize))
    (by rw [AddressSpace.length_imagePage, hk.cfg])
  refine ⟨h1.setLoaded hfn hc, ⟨?_⟩, ?_⟩
  · rw [State.setPte, State.modifyEntry, State.fillFrame]
    simp only
    rw [hk.eq]
  · exact (him.trans (.congr rfl)).trans (SameImages.modifyEntry _ _ _)

theorem State.Inv.loadPages {s t : State} {id : Nat} {vs : List Nat} (h : s.Inv) (ht : s.loadPages id vs = .next t) :
    t.Inv ∧ Kept s t ∧ SameImages s t := by
  induction vs generalizing s with
  | nil =>
    injection ht with ht
    exact ht ▸ ⟨h, .refl s, .refl s⟩
  | cons v vs ih =>
    obtain ⟨u, h1, h2⟩ := Result.andThen_next.mp ht
    obtain ⟨hu, hk, hi⟩ := h.loadSegment h1
    obtain ⟨ht, hk2, hi2⟩ := ih hu h2
    exact ⟨ht, hk.trans hk2, hi.trans hi2⟩

/-- What `LoadFromSwap` can do (R221). -/
theorem State.loadFromSwap_next {s t : State} {id v f : Nat} (h : s.loadFromSwap id v f = .next t) :
    ∃ S store, s.space id = some S ∧ S.swap = some store ∧ f < s.cfg.numPhysPages ∧
      t = s.fillFrame f (Memory.readBytes store (v * s.cfg.pageSize) s.cfg.pageSize) := by
  unfold State.loadFromSwap at h
  split at h
  · cases h
  · rename_i S hS
    split at h
    · cases h
    · rename_i store hst
      split at h
      · cases h
      · rename_i hf
        injection h with h
        exact ⟨S, store, hS, hst, by omega, h.symm⟩

theorem State.Inv.loadFromSwap {s t : State} {id v f : Nat} (h : s.Inv) (ht : s.loadFromSwap id v f = .next t) : t.Inv := by
  obtain ⟨S, store, -, -, hf, rfl⟩ := State.loadFromSwap_next ht
  exact h.fillFrame f hf _ (Memory.length_readBytes _ _ _)

/-- Making a page resident keeps the invariant and leaves its entry valid (R225). -/
theorem State.Inv.pageIn {s t : State} {id v : Nat} (h : s.Inv) (ht : s.pageIn id v = .next t) :
    t.Inv ∧ Kept s t ∧ SameImages s t ∧ ∃ f, f < s.cfg.numPhysPages ∧ t.pte id v = some (.loaded v f) := by
  have hval {u : State} {f : Nat} (he : ∃ e, u.pte id v = some e) :
      (u.setPte id v (.loaded v f)).pte id v = some (.loaded v f) := by
    obtain ⟨e, he⟩ := he
    rw [State.pte_setPte, if_pos ⟨rfl, rfl⟩, he]
    rfl
  unfold State.pageIn at ht
  split at ht
  · cases ht
  · rename_i S hS
    split at ht
    · obtain ⟨⟨f, u⟩, h1, h2⟩ := Result.andThen_next.mp ht
      obtain ⟨w, h3, h4⟩ := Result.andThen_next.mp h2
      injection h4 with h4
      subst h4
      obtain ⟨hui, hf, hc, -, he, hk, him⟩ := h.find h1
      have hwi := hui.loadFromSwap h3
      obtain ⟨T, store, -, -, hfn, rfl⟩ := State.loadFromSwap_next h3
      refine ⟨hwi.setLoaded hfn hc, ⟨?_⟩, (him.trans (.congr rfl)).trans (SameImages.modifyEntry _ _ _), f, hf, hval he⟩
      rw [State.setPte, State.modifyEntry, State.fillFrame]
      simp only
      rw [hk.eq]
    · have hvd : v * s.cfg.pageSize / s.cfg.pageSize = v := Nat.mul_div_cancel _ s.cfg.pageSize_pos
      obtain ⟨hti, hk, him⟩ := h.loadSegment ht
      obtain ⟨S', f, u, hS', hfu, rfl⟩ := State.loadSegment_next ht
      rw [hvd] at hfu hti hk him ⊢
      obtain ⟨-, hf, -, -, he, -, -⟩ := h.find hfu
      exact ⟨hti, hk, him, f, hf, hval he⟩

/-! ## Construction and destruction -/

theorem AddressSpace.fresh_ok (img : ProgramImage) (n : Nat) (p : LoadPolicy) (h : Memory.wf img.file) :
    (AddressSpace.fresh img n p).Ok where
  entries := by simp [AddressSpace.fresh]
  flags := by simp [AddressSpace.fresh]
  index v e he := by
    simp only [AddressSpace.fresh, List.getElem?_map] at he
    obtain ⟨w, hw, rfl⟩ := Option.map_eq_some_iff.mp he
    have := List.getElem?_eq_some_iff.mp hw
    obtain ⟨_, h2⟩ := this
    simp only [List.getElem_range] at h2
    rw [← h2]
    rfl
  file := h
  swap m hm := by
    cases p with
    | eager => simp [AddressSpace.fresh] at hm
    | demandNoSwap => simp [AddressSpace.fresh] at hm
    | demandSwap =>
      simp only [AddressSpace.fresh, Option.some.injEq] at hm
      subst hm
      exact ⟨List.Pairwise.nil, by simp⟩

/-- A page not loaded yet is invalid (R219). -/
theorem AddressSpace.fresh_absent (img : ProgramImage) (n : Nat) (p : LoadPolicy) (v : Nat) (e : TranslationEntry)
    (h : (AddressSpace.fresh img n p).pageTable[v]? = some e) : e.valid = false := by
  simp only [AddressSpace.fresh, List.getElem?_map] at h
  obtain ⟨w, -, rfl⟩ := Option.map_eq_some_iff.mp h
  rfl

theorem Spaces.mem_insert {l : List (Nat × AddressSpace)} {id : Nat} {S : AddressSpace} {p : Nat × AddressSpace}
    (h : p ∈ Spaces.insert l id S) : p = (id, S) ∨ p ∈ l := by
  induction l with
  | nil => simpa [Spaces.insert] using h
  | cons q rest ih =>
    obtain ⟨k, T⟩ := q
    rw [Spaces.insert] at h
    split at h
    · rcases List.mem_cons.mp h with rfl | h
      · simp
      · rcases ih h with h | h <;> simp [h]
    · split at h
      · rcases List.mem_cons.mp h with rfl | h <;> simp [*]
      · rcases List.mem_cons.mp h with rfl | h
        · simp
        · exact .inr h

theorem Spaces.rising_insert {l : List (Nat × AddressSpace)} (id : Nat) (S : AddressSpace)
    (h : l.Pairwise fun p q => p.1 < q.1) : (Spaces.insert l id S).Pairwise fun p q => p.1 < q.1 := by
  induction l with
  | nil => simp [Spaces.insert]
  | cons q rest ih =>
    obtain ⟨k, T⟩ := q
    obtain ⟨hk, hr⟩ := List.pairwise_cons.mp h
    rw [Spaces.insert]
    split
    · rename_i hlt
      refine List.pairwise_cons.mpr ⟨fun p hp => ?_, ih hr⟩
      rcases Spaces.mem_insert hp with rfl | hp
      · exact hlt
      · exact hk p hp
    · split
      · rename_i _ heq
        subst heq
        exact List.pairwise_cons.mpr ⟨hk, hr⟩
      · rename_i h1 h2
        refine List.pairwise_cons.mpr ⟨fun p hp => ?_, h⟩
        have hlt : id < k := by omega
        rcases List.mem_cons.mp hp with rfl | hp
        · exact hlt
        · exact Nat.lt_trans hlt (hk p hp)

/-- Adding a space with no page loaded under a new identifier keeps the invariant. -/
theorem State.Inv.insertSpace {s : State} (h : s.Inv) {id : Nat} (hid : s.space id = none) {S : AddressSpace} (hS : S.Ok)
    (hv : ∀ (v : Nat) (e : TranslationEntry), S.pageTable[v]? = some e → e.valid = false) :
    ({ s with spaces := Spaces.insert s.spaces id S } : State).Inv := by
  have hsp (j : Nat) : ({ s with spaces := Spaces.insert s.spaces id S } : State).space j = if j = id then some S else s.space j :=
    Spaces.get_insert _ _ _ _
  have hne {j : Nat} {T : AddressSpace} (hj : s.space j = some T) : j ≠ id := by
    rintro rfl
    rw [hid] at hj
    cases hj
  have hpte (j w : Nat) : ({ s with spaces := Spaces.insert s.spaces id S } : State).pte j w =
      if j = id then S.pageTable[w]? else s.pte j w := by
    unfold State.pte
    rw [hsp]
    by_cases hj : j = id <;> simp [hj]
  have hpne {j w : Nat} {e : TranslationEntry} (hj : s.pte j w = some e) : j ≠ id := by
    obtain ⟨T, hT, -⟩ := State.space_of_pte hj
    exact hne hT
  exact
    { h with
      rising := Spaces.rising_insert id S h.rising
      spaces := fun j T hT => by
        rw [hsp] at hT
        split at hT
        · injection hT with hT
          exact hT ▸ hS
        · exact h.spaces j T hT
      owned := fun j w e he hev => by
        rw [hpte] at he
        split at he
        · rw [hv w e he] at hev
          cases hev
        · exact h.owned j w e he hev
      claimed := fun f c hc => by
        have h1 := h.claimed f c hc
        obtain ⟨e, he⟩ := Option.isSome_iff_exists.mp h1
        rw [hpte, if_neg (hpne he)]
        exact h1
      table := fun j hj => by
        obtain ⟨T, hT, hn⟩ := h.table j hj
        exact ⟨T, by rw [hsp, if_neg (hne hT)]; exact hT, hn⟩
      tlbCopies := fun hu i hi => by
        obtain ⟨j, e, hc, he, hev⟩ := h.tlbCopies hu i hi
        exact ⟨j, e, hc, by rw [hpte, if_neg (hpne he)]; exact he, hev⟩ }

/-- Construction keeps the invariant (R216, R218, R219). -/
theorem State.Inv.constructSpace {s t : State} {id n : Nat} {img : ProgramImage} {p : LoadPolicy} (h : s.Inv)
    (hf : Memory.wf img.file) (ht : s.constructSpace id img n p = .next t) :
    t.Inv ∧ Kept s t ∧ ∃ S, t.space id = some S ∧ S.numPages = n := by
  unfold State.constructSpace at ht
  split at ht
  · cases ht
  · rename_i hid
    have hi := h.insertSpace hid (AddressSpace.fresh_ok img n p hf) (AddressSpace.fresh_absent img n p)
    have hsp : ({ s with spaces := Spaces.insert s.spaces id (.fresh img n p) } : State).space id = some (.fresh img n p) := by
      simp [State.space, Spaces.get_insert]
    cases p with
    | eager =>
      obtain ⟨h1, h2, h3⟩ := hi.loadPages ht
      obtain ⟨T, hT, hTi⟩ := h3.space hsp
      exact ⟨h1, Kept.trans ⟨rfl⟩ h2, T, hT, congrArg AddressSpace.numPages hTi⟩
    | demandNoSwap => injection ht with ht; subst ht; exact ⟨hi, ⟨rfl⟩, _, hsp, rfl⟩
    | demandSwap => injection ht with ht; subst ht; exact ⟨hi, ⟨rfl⟩, _, hsp, rfl⟩

/-- What destruction leaves of the claims (R212). -/
theorem State.destroySpace_claim {s t : State} {id : Nat} (h : s.destroySpace id = .next t) (f : Nat) :
    t.claim f = match s.claim f with
      | some c => if c.owner = id then none else some c
      | none => none := by
  unfold State.destroySpace at h
  split at h
  · cases h
  · injection h with h
    rw [← h]
    unfold State.claim
    simp only [List.getElem?_map]
    cases hc : s.coremap[f]? with
    | none => rfl
    | some d =>
      cases d with
      | none => rfl
      | some c =>
        by_cases ho : c.owner = id <;> simp [ho]

theorem Spaces.rising_erase {l : List (Nat × AddressSpace)} (id : Nat) (h : l.Pairwise fun p q => p.1 < q.1) :
    (Spaces.erase l id).Pairwise fun p q => p.1 < q.1 := List.Pairwise.filter _ h

/-- Destruction keeps the invariant. -/
theorem State.Inv.destroySpace {s t : State} {id : Nat} (h : s.Inv) (ht : s.destroySpace id = .next t) : t.Inv := by
  have hcl := State.destroySpace_claim ht
  unfold State.destroySpace at ht
  split at ht
  · cases ht
  · injection ht with ht
    have hsp (j : Nat) : t.space j = if j = id then none else s.space j := by
      rw [← ht]
      exact Spaces.get_erase _ _ _
    have hpte (j w : Nat) : t.pte j w = if j = id then none else s.pte j w := by
      unfold State.pte
      rw [hsp]
      by_cases hj : j = id <;> simp [hj]
    have hsome {f : Nat} {c : Claim} (hc : t.claim f = some c) : s.claim f = some c ∧ c.owner ≠ id := by
      rw [hcl] at hc
      cases hd : s.claim f with
      | none => rw [hd] at hc; cases hc
      | some d =>
        rw [hd] at hc
        simp only at hc
        split at hc
        · cases hc
        · rename_i ho
          injection hc with hc
          exact ⟨by rw [← hc], by rw [← hc]; exact ho⟩
    have hcfg : t.cfg = s.cfg := by rw [← ht]
    exact
      { memory := by rw [← ht]; exact h.memory
        memoryRange := by rw [← ht]; exact h.memoryRange
        zero := by rw [← ht]; exact h.zero
        frames := by rw [← ht]; simpa using h.frames
        victim := by rw [← ht]; exact h.victim
        rising := by rw [← ht]; exact Spaces.rising_erase id h.rising
        spaces := fun j S hS => by
          rw [hsp] at hS
          split at hS
          · cases hS
          · exact h.spaces j S hS
        owned := fun j w e he hv => by
          rw [hpte] at he
          split at he
          · cases he
          · rename_i hj
            obtain ⟨h1, h2⟩ := h.owned j w e he hv
            rw [hcfg, hcl, h2]
            exact ⟨h1, if_neg hj⟩
        oneFrame := fun f g c hf hg => h.oneFrame f g c (hsome hf).1 (hsome hg).1
        claimed := fun f c hc => by
          obtain ⟨h1, h2⟩ := hsome hc
          rw [hpte, if_neg h2]
          exact h.claimed f c h1
        table := fun j hj => by
          have hact : s.activeTable = some j ∧ j ≠ id ∧ t.pageTableSize = s.pageTableSize := by
            rw [← ht] at hj ⊢
            simp only at hj ⊢
            split at hj
            · cases hj
            · rename_i ha
              refine ⟨hj, ?_, ?_⟩
              · rintro rfl
                exact ha (by simp [hj])
              · rw [if_neg ha]
          obtain ⟨S, hS, hn⟩ := h.table j hact.1
          exact ⟨S, by rw [hsp, if_neg hact.2.1]; exact hS, by rw [hact.2.2]; exact hn⟩
        tlbCopies := fun hu i hi => by
          rw [hcfg] at hu
          have hcur : s.currentSpace ≠ some id := by
            intro hc
            rw [← ht] at hi
            simp [hc, hu] at hi
          have htlb : t.tlb = s.tlb := by
            rw [← ht]
            simp [hcur]
          rw [htlb] at hi ⊢
          obtain ⟨j, e, hc, he, hv⟩ := h.tlbCopies hu i hi
          have hj : j ≠ id := fun hj => hcur (hj ▸ hc)
          refine ⟨j, e, ?_, by rw [hpte, if_neg hj]; exact he, hv⟩
          rw [← ht]
          simp [hc, hj]
        tlbDistinct := fun hu i j hi hj hij => by
          rw [hcfg] at hu
          have hval (k : Fin 4) : t.tlb[k].valid = true → t.tlb = s.tlb := by
            intro hk
            rw [← ht] at hk ⊢
            simp only at hk ⊢
            split
            · rename_i hc
              rw [if_pos hc] at hk
              simp at hk
            · rfl
          have htlb := hval i hi
          rw [htlb] at hi hj hij
          exact h.tlbDistinct hu i j hi hj hij }

/-! ## Context switch and fault resolution -/

theorem State.Inv.flushAll {s t : State} {is : List (Fin 4)} (h : s.Inv) (hu : s.cfg.useTlb = true)
    (ht : s.flushAll is = .next t) : t.Inv ∧ t.cfg = s.cfg := by
  induction is generalizing s with
  | nil => injection ht with ht; exact ht ▸ ⟨h, rfl⟩
  | cons i is ih =>
    obtain ⟨u, h1, h2⟩ := Result.andThen_next.mp ht
    have hc : u.cfg = s.cfg := by rw [State.flushTlb_eq h1]
    obtain ⟨h3, h4⟩ := ih (h.flushTlb hu h1) (by rw [hc]; exact hu) h2
    exact ⟨h3, h4.trans hc⟩

/-- `SaveState` keeps the invariant. -/
theorem State.Inv.saveState {s t : State} (h : s.Inv) (ht : s.saveState = .next t) : t.Inv := by
  unfold State.saveState at ht
  split at ht
  · rename_i hu; exact (h.flushAll hu ht).1
  · injection ht with ht; exact ht ▸ h

/-- `RestoreState` keeps the invariant. -/
theorem State.Inv.restoreState {s t : State} {id : Nat} (h : s.Inv) (ht : s.restoreState id = .next t) : t.Inv := by
  unfold State.restoreState at ht
  split at ht
  · cases ht
  · rename_i S hS
    split at ht
    · rename_i hu
      split at ht
      · cases ht
      · rename_i hv
        injection ht with ht
        subst ht
        refine { h with tlbCopies := fun hu i hi => ?_ }
        obtain ⟨j, e, hc, he, hev⟩ := h.tlbCopies hu i hi
        have hany : s.tlbHasValid = true := List.any_eq_true.mpr ⟨i, mem_tlbOrder i, hi⟩
        rw [hany] at hv
        simp only [Bool.true_and, bne_iff_ne, ne_eq, Decidable.not_not] at hv
        rw [hc] at hv
        injection hv with hv
        subst hv
        exact ⟨j, e, rfl, he, hev⟩
    · rename_i hu
      injection ht with ht
      subst ht
      exact
        { h with
          table := fun j hj => by
            injection hj with hj
            exact hj ▸ ⟨S, hS, rfl⟩
          tlbCopies := fun hu' => absurd hu' hu
          tlbDistinct := fun hu' => absurd hu' hu }

/-- What `RefillTLB` can do (R227). -/
theorem State.refillTlb_next {s t : State} {slot : Fin 4} {v : Nat} (h : s.refillTlb slot v = .next t) :
    ∃ id u e, s.currentSpace = some id ∧ s.flushTlb slot = .next u ∧ u.pte id v = some e ∧ e.valid = true ∧
      u.tlbFind v = none ∧ t = u.modifyEntry (.tlb slot) fun _ => e := by
  unfold State.refillTlb at h
  split at h
  · cases h
  · rename_i id hc
    obtain ⟨u, h1, h2⟩ := Result.andThen_next.mp h
    split at h2
    · cases h2
    · rename_i e he
      split at h2
      · rename_i hv
        split at h2
        · cases h2
        · rename_i hn
          injection h2 with h2
          exact ⟨id, u, e, hc, h1, he, hv, by simpa using hn, h2.symm⟩
      · cases h2

/-- `RefillTLB` keeps the invariant in TLB mode. -/
theorem State.Inv.refillTlb {s t : State} {slot : Fin 4} {v : Nat} (h : s.Inv) (hu : s.cfg.useTlb = true)
    (ht : s.refillTlb slot v = .next t) : t.Inv := by
  obtain ⟨id, u, e, hc, hf, he, hv, hn, rfl⟩ := State.refillTlb_next ht
  have hui := h.flushTlb hu hf
  have hidx := hui.index he
  refine hui.writeTlb slot e (fun _ _ => ⟨id, e, ?_, hidx ▸ he, hv, rfl⟩) fun _ _ j _ hj hjv => ?_
  · rw [State.flushTlb_eq hf]
    exact hc
  · exact State.tlbFind_none hn j ⟨hj, hjv.trans hidx⟩

/-- What `OnPageFault` can do (R225). -/
theorem State.onPageFault_next {s t : State} {va : Word} {slot : Fin 4} {c : Continuation}
    (h : s.onPageFault va slot = .next (c, t)) :
    ∃ id S, s.currentSpace = some id ∧ s.space id = some S ∧
      ((S.numPages ≤ s.vpnOf va ∧ c = .terminate ∧ t = s) ∨
       (s.vpnOf va < S.numPages ∧ c = .retry ∧ ∃ u,
          (((∃ e, s.pte id (s.vpnOf va) = some e ∧ e.valid = true) ∧ u = s) ∨ s.pageIn id (s.vpnOf va) = .next u) ∧
          ((u.cfg.useTlb = true ∧ u.refillTlb slot (s.vpnOf va) = .next t) ∨ (u.cfg.useTlb = false ∧ t = u)))) := by
  unfold State.onPageFault at h
  split at h
  · cases h
  · rename_i id hc
    split at h
    · cases h
    · rename_i S hS
      refine ⟨id, S, hc, hS, ?_⟩
      simp only at h
      split at h
      · rename_i hv
        injection h with h
        injection h with h1 h2
        exact .inl ⟨hv, h1.symm, h2.symm⟩
      · rename_i hv
        obtain ⟨u, h1, h2⟩ := Result.andThen_next.mp h
        obtain ⟨w, h3, h4⟩ := Result.andThen_next.mp h2
        injection h4 with h4
        injection h4 with h5 h6
        subst h6
        refine .inr ⟨by omega, h5.symm, u, ?_, ?_⟩
        · split at h1
          · rename_i ha
            injection h1 with h1
            refine .inl ⟨?_, h1.symm⟩
            cases hp : s.pte id (s.vpnOf va) with
            | none => rw [hp] at ha; simp at ha
            | some e => rw [hp] at ha; exact ⟨e, rfl, by simpa using ha⟩
          · exact .inr h1
        · split at h3
          · rename_i hu; exact .inl ⟨hu, h3⟩
          · rename_i hu
            injection h3 with h3
            exact .inr ⟨by simpa using hu, h3.symm⟩

/-- The resolution of a page fault keeps the invariant. -/
theorem State.Inv.onPageFault {s t : State} {va : Word} {slot : Fin 4} {c : Continuation} (h : s.Inv)
    (ht : s.onPageFault va slot = .next (c, t)) : t.Inv := by
  obtain ⟨id, S, hc, hS, ⟨-, -, rfl⟩ | ⟨hv, -, u, hu, hw⟩⟩ := State.onPageFault_next ht
  · exact h
  · have hui : u.Inv := by
      rcases hu with ⟨-, rfl⟩ | hu
      · exact h
      · exact (h.pageIn hu).1
    rcases hw with ⟨hm, hw⟩ | ⟨-, rfl⟩
    · exact hui.refillTlb hm hw
    · exact hui

end Sys2Proof.Machine
end

