-- ==== Sys2Proof/Laws/Lookup.lean ====
section
/-! SUPPORT. The translator's outcomes: which exceptions a translation can return and why (20_memory.md R45 to R52), that its bit updates
commute and repeat without effect, and where it cannot be refused. -/
namespace Sys2Proof.Machine

/-- Changes of entries by commuting functions commute. -/
theorem State.modifyEntry_comm (s : State) (r q : EntryRef) (f g : TranslationEntry → TranslationEntry) (h : ∀ e, f (g e) = g (f e)) :
    (s.modifyEntry q g).modifyEntry r f = (s.modifyEntry r f).modifyEntry q g := by
  have hl (l : List TranslationEntry) (v w : Nat) : (l.modify w g).modify v f = (l.modify v f).modify w g := by
    apply List.ext_getElem?; intro n
    simp only [List.getElem?_modify]
    by_cases h1 : v = n <;> by_cases h2 : w = n <;> cases l[n]? <;> simp [h1, h2, h]
  cases r with
  | tlb i =>
    cases q with
    | tlb j =>
      simp only [State.modifyEntry]
      congr 1
      apply Vector.ext; intro k hk
      by_cases h1 : i.val = k <;> by_cases h2 : j.val = k <;> simp [Vector.getElem_set, h1, h2, h, eq_comm]
    | table id v => rfl
  | table id v =>
    cases q with
    | tlb j => rfl
    | table id' v' =>
      simp only [State.modifyEntry, Spaces.modify, List.map_map]
      congr 1
      apply List.map_congr_left
      rintro ⟨k, S⟩ _
      simp only [Function.comp]
      by_cases h1 : k = id
      · subst h1
        by_cases h2 : k = id'
        · subst h2; simp only [if_true, hl]
        · simp only [if_true, if_neg h2]
      · by_cases h2 : k = id'
        · subst h2; simp only [if_true, if_neg h1]
        · simp only [if_neg h1, if_neg h2]

/-- Repeating an idempotent change of an entry changes nothing. -/
theorem State.modifyEntry_idem (s : State) (r : EntryRef) (f : TranslationEntry → TranslationEntry) (h : ∀ e, f (f e) = f e) :
    (s.modifyEntry r f).modifyEntry r f = s.modifyEntry r f := by
  have hl (l : List TranslationEntry) (v : Nat) : (l.modify v f).modify v f = l.modify v f := by
    apply List.ext_getElem?; intro n
    simp only [List.getElem?_modify]
    by_cases h1 : v = n <;> cases l[n]? <;> simp [h1, h]
  cases r with
  | tlb i => simp [State.modifyEntry, h]
  | table id v =>
    simp only [State.modifyEntry, Spaces.modify, List.map_map]
    congr 1
    apply List.map_congr_left
    intro p _
    simp only [Function.comp]
    by_cases h1 : p.1 = id <;> simp [h1, hl]

/-- What a lookup finds after an access through some entry. -/
theorem State.lookup_touch (s : State) (r : EntryRef) (w : Bool) (v : Nat) :
    (s.touch r w).lookup v = match s.lookup v with
      | .hit q e => .hit q (if r = q then { e with use := true, dirty := e.dirty || w } else e)
      | .miss e => .miss e
      | .refused x => .refused x := by
  unfold State.lookup
  rw [State.touch_cfg]
  split
  · unfold State.lookupTlb
    have : (s.touch r w).tlbFind v = s.tlbFind v := by
      unfold State.tlbFind
      congr 1; funext j
      simp only [State.touch, State.tlb_modifyEntry]
      split <;> rfl
    rw [this]
    cases s.tlbFind v with
    | none => rfl
    | some i => simp only [State.touch, State.tlb_modifyEntry]
  · unfold State.lookupTable State.activePageTable
    rw [State.touch_activeTable, State.touch_pageTableSize, State.touch_cfg]
    cases s.activeTable with
    | none => rfl
    | some id =>
      simp only
      have hs : (s.touch r w).space id = (s.space id).map fun S => match r with | .table j u => if j = id then { S with pageTable := S.pageTable.modify u fun e => { e with use := true, dirty := e.dirty || w } } else S | .tlb _ => S := by
        rw [State.touch, State.space_modifyEntry]
        cases r with
        | tlb i => simp
        | table j u => by_cases h : id = j <;> simp [h, eq_comm]
      rw [hs]
      cases s.space id with
      | none => rfl
      | some S =>
        simp only [Option.map_some]
        split
        · rfl
        · cases r with
          | tlb i => simp only; split <;> [rfl; (split <;> simp)]
          | table j u =>
            by_cases hj : j = id
            · subst hj
              simp only [if_true, List.getElem?_modify]
              cases S.pageTable[v]? with
              | none => rfl
              | some e =>
                by_cases hu : u = v
                · subst hu; simp only [if_true, Functor.map, Option.map_some]; split <;> simp_all
                · simp only [if_neg hu, Functor.map, Option.map_some]; split <;> simp_all
            · simp only [if_neg hj]
              split <;> [rfl; (split <;> simp [hj])]

/-- A read translation after an access through some entry. -/
theorem State.translate_touch (s : State) (r : EntryRef) (w : Bool) (va : Word) (z : AccessSize) :
    (s.touch r w).translate va z false = match s.translate va z false with
      | .ok p u => .ok p (u.touch r w)
      | .exc e => .exc e
      | .refused x => .refused x := by
  unfold State.translate
  rw [show (s.touch r w).vpnOf va = s.vpnOf va by simp [State.vpnOf], State.lookup_touch, show (s.touch r w).offsetOf va = s.offsetOf va by simp [State.offsetOf], State.touch_cfg]
  split
  · cases s.lookup (s.vpnOf va) with
    | refused x => rfl
    | miss e => rfl
    | hit q e =>
      simp only [Bool.false_and]
      have : (if r = q then { e with use := true, dirty := e.dirty || w } else e).physicalPage = e.physicalPage := by split <;> rfl
      rw [this]
      split
      · contradiction
      · split
        · rfl
        · simp only [State.touch]
          rw [State.modifyEntry_comm]
          intro e
          simp
  · rfl

/-- A read translation repeated changes nothing more. -/
theorem State.translate_again {s u : State} {va : Word} {z : AccessSize} {p : Nat} (h : s.translate va z false = .ok p u) : u.translate va z false = .ok p u := by
  obtain ⟨-, r, e, -, -, -, -, rfl⟩ := State.translate_ok h
  rw [State.translate_touch, h]
  simp only
  unfold State.touch
  rw [State.modifyEntry_idem]
  intro e; simp

/-- What the places hold after a read through one of them (R51). -/
theorem State.entryAt_touch (s : State) (r q : EntryRef) :
    (s.touch r false).entryAt q = if r = q then (s.entryAt q).map (fun e => { e with use := true }) else s.entryAt q := by
  rw [State.touch, State.entryAt_modifyEntry]; simp

/-- A translation changes `use` and `dirty` bits only (R51). -/
theorem State.translate_mappings {s u : State} {va : Word} {z : AccessSize} {w : Bool} {p : Nat} (h : s.translate va z w = .ok p u) :
    SameMappings s u := by
  obtain ⟨-, r, e, -, -, -, -, rfl⟩ := State.translate_ok h
  exact SameMappings.modifyEntry s r _ fun _ => rfl

/-- The exceptions a lookup can return (R47, R48). -/
theorem State.lookup_miss {s : State} {v : Nat} {e : ExcKind} (h : s.lookup v = .miss e) : e = .pageFault ∨ (s.cfg.oorVpn = .addressError ∧ e = .addressError) := by
  unfold State.lookup at h
  split at h
  · unfold State.lookupTlb at h
    split at h
    · cases h
    · injection h with h; exact .inl h.symm
  · unfold State.lookupTable at h
    split at h
    · cases h
    · split at h
      · injection h with h; subst h
        cases hc : s.cfg.oorVpn <;> simp [OorVpn.exception]
      · split at h
        · cases h
        · split at h
          · cases h
          · injection h with h; exact .inl h.symm

/-- The exceptions a translation can return, and why (R44). -/
theorem State.translate_exc {s : State} {va : Word} {z : AccessSize} {w : Bool} {e : ExcKind} (h : s.translate va z w = .exc e) :
   (e = .addressError ∧ z.aligned va = false) ∨ (e = .addressError ∧ s.cfg.oorVpn = .addressError) ∨ e = .pageFault ∨ (e = .readOnly ∧ w = true) ∨ e = .busError := by
  unfold State.translate at h
  split at h
  · split at h
    · cases h
    · rename_i hm; injection h with h; subst h; rcases State.lookup_miss hm with h | h
      · exact .inr (.inr (.inl h))
      · exact .inr (.inl ⟨h.2, h.1⟩)
    · split at h
      · rename_i hw; injection h with h; simp at hw; exact .inr (.inr (.inr (.inl ⟨h.symm, hw.1⟩)))
      · split at h
        · injection h with h; exact .inr (.inr (.inr (.inr h.symm)))
        · cases h
  · rename_i ha; injection h with h; exact .inl ⟨h.symm, by simpa using ha⟩

/-- Alignment is the first check (R45). -/
theorem State.translate_misaligned {s : State} {va : Word} {z : AccessSize} {w : Bool} (h : va.toNat % z.bytes ≠ 0) : s.translate va z w = .exc .addressError := by
  unfold State.translate AccessSize.aligned
  simp [h]

/-- The aligned-down address passes the alignment check (R154). -/
theorem alignedDown_aligned (ea : Word) : AccessSize.word.aligned (alignedDown ea) = true := by
  unfold AccessSize.aligned AccessSize.bytes alignedDown
  have h1 : (ea &&& 0xFFFFFFFC#32) % 4#32 = 0 := by
    ext i hi
    have : ∀ x : BitVec 32, x % 4#32 = x &&& 3#32 := by intro x; apply BitVec.eq_of_toNat_eq; simp [BitVec.toNat_umod]; exact (Nat.and_two_pow_sub_one_eq_mod x.toNat 2).symm
    rw [this]; interval_cases i <;> simp
  have := congrArg BitVec.toNat h1
  simp only [BitVec.toNat_umod] at this
  simpa using this

/-- Under the invariant the frame of an entry found exists (R50). -/
theorem State.Inv.hit_frame {s : State} (h : s.Inv) {v : Nat} {r : EntryRef} {e : TranslationEntry} (hl : s.lookup v = .hit r e) : e.physicalPage < s.cfg.numPhysPages := by
  obtain ⟨he, hv, ⟨hu, i, rfl, -, -⟩ | ⟨hu, id, rfl, -, -⟩⟩ := State.lookup_hit hl
  · simp only [State.entryAt, Option.some.injEq] at he
    subst he
    obtain ⟨id, d, -, hd, hdv, hp⟩ := h.tlbCopies hu i hv
    rw [← hp]; exact (h.owned _ _ _ hd hdv).1
  · exact (h.owned _ _ _ he hv).1

/-- Entries agree but for their bits where the mappings do. -/
theorem SameMappings.entryAt {s u : State} (h : SameMappings s u) {r : EntryRef} {e : TranslationEntry} (he : u.entryAt r = some e) :
   ∃ d, s.entryAt r = some d ∧ d.mapping = e.mapping := by
  cases r with
  | tlb i => simp [State.entryAt] at he; subst he; exact ⟨_, rfl, (h.tlb i).symm⟩
  | table id v =>
    have := h.spaces id
    simp only [State.entryAt, State.pte] at he ⊢
    cases hu : u.space id with
    | none => simp [hu] at he
    | some U =>
      rw [hu] at this
      cases hs : s.space id with
      | none => rw [hs] at this; simp at this
      | some S =>
        rw [hs] at this
        simp only [Option.map_some, Option.some.injEq, AddressSpace.mapping, AddressSpace.mk.injEq] at this
        simp only [hu] at he
        have h2 := congrArg (·[v]?) this.1
        simp only [List.getElem?_map, he, Option.map_some] at h2
        cases hd : S.pageTable[v]? with
        | none => simp [hd] at h2
        | some d => simp [hd] at h2; exact ⟨d, by simp [hd], h2.symm⟩

/-- Under the invariant, with a table installed or in TLB mode, no lookup is refused (R282). -/
theorem State.Inv.lookup_ne_refused {s : State} (h : s.Inv) (hr : s.translationReady) (v : Nat) (r : Refusal) : s.lookup v ≠ .refused r := by
  intro hl
  unfold State.lookup at hl
  split at hl
  · unfold State.lookupTlb at hl; split at hl <;> cases hl
  · rename_i hu
    rcases hr with hr | hr
    · exact hu hr
    · cases ha : s.activeTable with
      | none => exact hr (by simp [State.activePageTable, ha])
      | some id =>
        obtain ⟨S, hS, hn⟩ := h.table id ha
        have hok := h.spaces id S hS
        unfold State.lookupTable State.activePageTable at hl
        simp only [ha, hS, Option.map_some] at hl
        split at hl
        · cases hl
        · rename_i hlt
          rw [List.getElem?_eq_getElem (by rw [hok.entries]; omega)] at hl
          simp only at hl
          split at hl <;> cases hl

/-- Nor is a translation. -/
theorem State.Inv.translate_ne_refused {s : State} (h : s.Inv) (hr : s.translationReady) (va : Word) (z : AccessSize) (w : Bool) (r : Refusal) : s.translate va z w ≠ .refused r := by
  intro ht
  unfold State.translate at ht
  split at ht
  · split at ht
    · rename_i hl; exact h.lookup_ne_refused hr _ _ hl
    · cases ht
    · split at ht
      · cases ht
      · split at ht <;> cases ht
  · cases ht

end Sys2Proof.Machine
end

