-- ==== Sys2Proof/Laws/Operands.lean ====
section
/-! SUPPORT. Arithmetic facts about decoding by rows, the operand forms (30_encoding.md R86), the overflow conditions and the merge
tables (43_loads_stores.md R165). -/
namespace Sys2Proof.Machine

/-- A field the mask fixes has the pattern's value. -/
theorem field_of_mask {w m p : Word} (lo len : Nat) (h : w &&& m = p) (hm : m.extractLsb' lo len = BitVec.allOnes len) :
    w.extractLsb' lo len = p.extractLsb' lo len := by
  rw [← h, BitVec.extractLsb'_and, hm, BitVec.and_allOnes]

/-- A SPECIAL row decodes by its funct field (R84). -/
theorem decodes_special {p : Word} {f : Fields → Instr} (hop : p.extractLsb' 26 6 = 0)
    (hf : ∀ g : Fields, g.funct = p.extractLsb' 0 6 → specialTable g = .ok (f g)) : DecodesRow 0xFC00003F p f := by
  intro w h
  have h1 := field_of_mask 26 6 h (by decide)
  have h2 := field_of_mask 0 6 h (by decide)
  rw [hop] at h1
  simp only [decode, fieldsOf, h1]
  exact hf _ h2

/-- A row of the primary table decodes by its opcode (R83). -/
theorem decodes_primary {p : Word} {f : Fields → Instr} (hop : 1 < (p.extractLsb' 26 6).toNat)
    (hf : ∀ g : Fields, g.opcode = p.extractLsb' 26 6 → primaryTable g = .ok (f g)) : DecodesRow 0xFC000000 p f := by
  intro w h
  have h1 := field_of_mask 26 6 h (by decide)
  have h2 := hf (fieldsOf w) h1
  unfold decode
  have : (fieldsOf w).opcode = p.extractLsb' 26 6 := h1
  rw [← this] at hop
  simp only
  split
  · omega
  · omega
  · exact h2

/-- A REGIMM row decodes by its rt field (R85). -/
theorem decodes_regimm {p : Word} {f : Fields → Instr} (hop : p.extractLsb' 26 6 = 1)
    (hf : ∀ g : Fields, g.rt = (p.extractLsb' 16 5).toFin → regimmTable g = .ok (f g)) : DecodesRow 0xFC1F0000 p f := by
  intro w h
  have h1 := field_of_mask 26 6 h (by decide)
  have h2 := field_of_mask 16 5 h (by decide)
  rw [hop] at h1
  simp only [decode, fieldsOf, h1]
  exact hf _ (congrArg BitVec.toFin h2)

/-- The sign bit is the sign of the signed reading. -/
theorem sign_eq (a : Word) : sign a = decide (a.toInt < 0) := BitVec.msb_eq_toInt

theorem toInt_bounds (a : Word) : -2147483648 ≤ a.toInt ∧ a.toInt < 2147483648 := by
  have := BitVec.toInt_lt (x := a); have := BitVec.le_toInt (x := a); simp at *; omega

/-- The sign rule of R101 is the range condition on the exact sum. -/
theorem addOverflows_eq (a b : Word) :
    addOverflows a b = !decide (-2 ^ 31 ≤ a.toInt + b.toInt ∧ a.toInt + b.toInt ≤ 2 ^ 31 - 1) := by
  have ha := toInt_bounds a
  have hb := toInt_bounds b
  have h : (a + b).toInt = (a.toInt + b.toInt).bmod (2^32) := BitVec.toInt_add a b
  rw [Int.bmod_def] at h
  simp only [addOverflows, sign_eq]
  rw [Bool.eq_iff_iff]
  simp only [Bool.and_eq_true, beq_iff_eq, bne_iff_ne, ne_eq, decide_eq_decide, Bool.not_eq_true', decide_eq_false_iff_not]
  omega

/-- The sign rule of R103 is the range condition on the exact difference. -/
theorem subOverflows_eq (a b : Word) :
    subOverflows a b = !decide (-2 ^ 31 ≤ a.toInt - b.toInt ∧ a.toInt - b.toInt ≤ 2 ^ 31 - 1) := by
  have ha := toInt_bounds a
  have hb := toInt_bounds b
  have h : (a - b).toInt = (a.toInt - b.toInt).bmod (2^32) := BitVec.toInt_sub
  rw [Int.bmod_def] at h
  simp only [subOverflows, sign_eq]
  rw [Bool.eq_iff_iff]
  simp only [Bool.and_eq_true, bne_iff_ne, ne_eq, decide_eq_decide, Bool.not_eq_true', decide_eq_false_iff_not]
  omega

theorem ofInt_add_toInt (a b : Word) : BitVec.ofInt 32 (a.toInt + b.toInt) = a + b := by
  rw [BitVec.ofInt_add]; simp

theorem ofInt_sub_toInt (a b : Word) : BitVec.ofInt 32 (a.toInt - b.toInt) = a - b := by
  apply BitVec.eq_of_toInt_eq; rw [BitVec.toInt_sub, BitVec.toInt_ofInt]

theorem signedImm_toInt (imm : BitVec 16) : (signedImm imm).toInt = imm.toInt := by
  simp [signedImm, BitVec.toInt_signExtend_of_le]

/-- The aligned-down address by arithmetic (R154). -/
theorem alignedDown_eq (ea wa : Word) (h : wa.toNat = ea.toNat / 4 * 4) : alignedDown ea = wa := by
  apply BitVec.eq_of_toNat_eq
  rw [h]
  have : alignedDown ea = (ea >>> 2) <<< 2 := by
    unfold alignedDown
    ext i hi
    simp
    interval_cases i <;> simp
  rw [this]
  have := ea.isLt
  simp [BitVec.toNat_shiftLeft, Nat.shiftLeft_eq, Nat.shiftRight_eq_div_pow]
  omega

/-- The aligned-down address as a number (43_loads_stores.md R154). -/
theorem alignedDown_toNat (ea : Word) : (alignedDown ea).toNat = ea.toNat / 4 * 4 := by
  have h : (BitVec.ofNat 32 (ea.toNat / 4 * 4)).toNat = ea.toNat / 4 * 4 := by
    have := ea.isLt
    rw [BitVec.toNat_ofNat]
    omega
  rw [alignedDown_eq ea _ h, h]

/-- The byte case by arithmetic (R154). -/
theorem byteCase_eq (ea : Word) : byteCase ea = BitVec.ofNat 2 (ea.toNat % 4) := by
  apply BitVec.eq_of_toNat_eq; simp [byteCase]

theorem signedByte_read (b : Byte) : signedByte (wordOfBytes b 0 0 0) = b.signExtend 32 := by
  unfold signedByte
  congr 1
  apply BitVec.eq_of_toNat_eq
  have := b.isLt
  simp [wordOfBytes]; omega

theorem unsignedByte_read (b : Byte) : unsignedByte (wordOfBytes b 0 0 0) = b.setWidth 32 := by
  unfold unsignedByte
  congr 1
  apply BitVec.eq_of_toNat_eq
  have := b.isLt
  simp [wordOfBytes]; omega

theorem halfword_read (b c : Byte) (h : BitVec 16) (hh : h.toNat = b.toNat + 256 * c.toNat) : (wordOfBytes b c 0 0).extractLsb' 0 16 = h := by
  apply BitVec.eq_of_toNat_eq
  have := h.isLt
  simp [wordOfBytes]; omega

/-- The branch target by arithmetic (44_branches_jumps.md R170). -/
theorem branchDest_eq (s : State) (imm : BitVec 16) : s.branchDest imm = branchTarget s.nextPc imm := by
  unfold State.branchDest branchTarget
  apply BitVec.eq_of_toInt_eq
  have : signedImm imm <<< 2 = BitVec.ofInt 32 (4 * imm.toInt) := by
    apply BitVec.eq_of_toNat_eq
    rw [BitVec.toNat_shiftLeft, Nat.shiftLeft_eq, BitVec.toNat_ofInt]
    have h1 : (signedImm imm).toInt = imm.toInt := by simp [signedImm, BitVec.toInt_signExtend_of_le]
    rw [BitVec.toInt_eq_toNat_cond] at h1
    have := (signedImm imm).isLt
    split at h1 <;> omega
  rw [this, BitVec.ofInt_add]
  simp

/-- The jump target by arithmetic (R170). -/
theorem jumpDest_eq (s : State) (t : BitVec 26) : s.jumpDest t = jumpTarget s.nextPc t := by
  apply BitVec.eq_of_toNat_eq
  unfold State.jumpDest jumpTarget
  have h1 : (s.nextPc + 4) &&& 0xF0000000#32 = ((s.nextPc + 4) >>> 28) <<< 28 := by
    ext i hi
    simp
    interval_cases i <;> simp
  have h2 : t.setWidth 32 <<< 2 = BitVec.ofNat 32 (4 * t.toNat) := by
    apply BitVec.eq_of_toNat_eq; have := t.isLt; simp [BitVec.toNat_shiftLeft, Nat.shiftLeft_eq]; omega
  have hd : (s.nextPc + 4) &&& 0xF0000000#32 &&& (t.setWidth 32 <<< 2) = 0 := by
    ext i hi
    simp
    interval_cases i <;> simp
  rw [← BitVec.add_eq_or_of_and_eq_zero _ _ hd, h1, h2]
  have := t.isLt
  have := (s.nextPc + 4).isLt
  generalize s.nextPc + 4 = n at *
  rw [BitVec.toNat_add, BitVec.toNat_shiftLeft, Nat.shiftLeft_eq, BitVec.toNat_ushiftRight, Nat.shiftRight_eq_div_pow, BitVec.toNat_ofNat, BitVec.toNat_ofNat]
  omega

/-- SWL under ARCH_LE, byte by byte (R165). -/
theorem swlMerge_byte (b : BitVec 2) (w v : Word) (k : Nat) (hk : k < 4) :
    byteOf (swlMerge .archLE b w v) k = if k ≤ b.toNat then byteOf v (k + 3 - b.toNat) else byteOf w k := by
  have hb : b = 0 ∨ b = 1 ∨ b = 2 ∨ b = 3 := by revert b; decide
  have hk : k = 0 ∨ k = 1 ∨ k = 2 ∨ k = 3 := by omega
  rcases hb with rfl | rfl | rfl | rfl <;> rcases hk with rfl | rfl | rfl | rfl
  all_goals
    simp only [swlMerge, byteOf]
    apply BitVec.eq_of_getLsbD_eq
    intro i hi
    interval_cases i <;> simp

/-- SWR under ARCH_LE, byte by byte (R165). -/
theorem swrMerge_byte (b : BitVec 2) (w v : Word) (k : Nat) (hk : k < 4) :
    byteOf (swrMerge .archLE b w v) k = if b.toNat ≤ k then byteOf v (k - b.toNat) else byteOf w k := by
  have hb : b = 0 ∨ b = 1 ∨ b = 2 ∨ b = 3 := by revert b; decide
  have hk : k = 0 ∨ k = 1 ∨ k = 2 ∨ k = 3 := by omega
  rcases hb with rfl | rfl | rfl | rfl <;> rcases hk with rfl | rfl | rfl | rfl
  all_goals
    simp only [swrMerge, byteOf]
    apply BitVec.eq_of_getLsbD_eq
    intro i hi
    interval_cases i <;> simp

/-- LWL under ARCH_LE, byte by byte (R165). -/
theorem lwlMerge_byte (b : BitVec 2) (w v : Word) (k : Nat) (hk : k < 4) :
    byteOf (lwlMerge .archLE b v w) k = if 3 - b.toNat ≤ k then byteOf w (k + b.toNat - 3) else byteOf v k := by
  have hb : b = 0 ∨ b = 1 ∨ b = 2 ∨ b = 3 := by revert b; decide
  have hk : k = 0 ∨ k = 1 ∨ k = 2 ∨ k = 3 := by omega
  rcases hb with rfl | rfl | rfl | rfl <;> rcases hk with rfl | rfl | rfl | rfl
  all_goals
    simp only [lwlMerge, byteOf]
    apply BitVec.eq_of_getLsbD_eq
    intro i hi
    interval_cases i <;> simp

/-- LWR under ARCH_LE, byte by byte (R165). -/
theorem lwrMerge_byte (b : BitVec 2) (w v : Word) (k : Nat) (hk : k < 4) :
    byteOf (lwrMerge .archLE b v w) k = if k + b.toNat < 4 then byteOf w (k + b.toNat) else byteOf v k := by
  have hb : b = 0 ∨ b = 1 ∨ b = 2 ∨ b = 3 := by revert b; decide
  have hk : k = 0 ∨ k = 1 ∨ k = 2 ∨ k = 3 := by omega
  rcases hb with rfl | rfl | rfl | rfl <;> rcases hk with rfl | rfl | rfl | rfl
  all_goals
    simp only [lwrMerge, byteOf]
    apply BitVec.eq_of_getLsbD_eq
    intro i hi
    interval_cases i <;> simp

/-- Two words with the same bytes are equal. -/
theorem word_ext {a b : Word} (h : ∀ k, k < 4 → byteOf a k = byteOf b k) : a = b := by
  rw [← wordOfBytes_byteOf a, ← wordOfBytes_byteOf b, h 0 (by omega), h 1 (by omega), h 2 (by omega), h 3 (by omega)]

/-- Byte k of a word read from memory. -/
theorem byteOf_readValue (m : List Host.Cell) (p k : Nat) (hk : k < 4) : byteOf (Memory.readValue m p .word) k = Memory.read m (p + k) := by
  have := byteOf_wordOfBytes (Memory.read m p) (Memory.read m (p+1)) (Memory.read m (p+2)) (Memory.read m (p+3))
  have hk : k = 0 ∨ k = 1 ∨ k = 2 ∨ k = 3 := by omega
  simp only [Memory.readValue]
  rcases hk with rfl | rfl | rfl | rfl
  · simpa using this.1
  · simpa using this.2.1
  · simpa using this.2.2.1
  · simpa using this.2.2.2

theorem bytesOfWord_wordOfBytes (b0 b1 b2 b3 : Byte) : bytesOfWord (wordOfBytes b0 b1 b2 b3) = [b0,b1,b2,b3] := by
  have := byteOf_wordOfBytes b0 b1 b2 b3
  simp only [bytesOfWord]; simp [this.1, this.2.1, this.2.2.1, this.2.2.2]

end Sys2Proof.Machine
end

