-- ==== Sys2Proof/Laws/PerInstr.lean ====
section
/-! SUPPORT. For every instruction: its encoded word lies in its own row of the opcode table (30_encoding.md R82 to R85, R88), one lemma
a constructor. -/
open Sys2Proof Sys2Proof.Machine

/-- The instruction's word has its row's pattern under its row's mask, and the row is one of the table's. -/
def Sys2Proof.Laws.TableRow.Statement (i : Instr) : Prop :=
  encode i &&& (tableRow i).1 = (tableRow i).2 ∧ tableRow i ∈ opcodeTable

/-- An R-type word under the SPECIAL mask. -/
theorem Sys2Proof.Laws.rWord_and (rs rt rd : RegNum) (shamt funct : Nat) (h : funct < 64) :
    rWord rs rt rd shamt funct &&& 0xFC00003F#32 = BitVec.ofNat 32 funct := by
  have key : ∀ w : Word, w &&& 0xFC00003F#32 = (w >>> 26) <<< 26 ||| (w <<< 26) >>> 26 := by
    intro w
    ext i hi
    interval_cases i <;> simp
  obtain ⟨h1, h2, -⟩ := fieldsOf_rWord rs rt rd shamt funct h
  simp only [fieldsOf, field_toNat] at h1 h2
  have hlt := (rWord rs rt rd shamt funct).isLt
  have h3 : rWord rs rt rd shamt funct >>> 26 = 0#32 := BitVec.eq_of_toNat_eq (by
    rw [BitVec.toNat_ushiftRight, Nat.shiftRight_eq_div_pow, BitVec.toNat_ofNat]; omega)
  have h4 : (rWord rs rt rd shamt funct <<< 26) >>> 26 = BitVec.ofNat 32 funct := BitVec.eq_of_toNat_eq (by
    rw [BitVec.toNat_ushiftRight, BitVec.toNat_shiftLeft, Nat.shiftLeft_eq, Nat.shiftRight_eq_div_pow, BitVec.toNat_ofNat]; omega)
  rw [key, h3, h4]
  simp

/-- A word under the mask of a primary opcode. -/
theorem Sys2Proof.Laws.and_primary (w : Word) (op : Nat) (hw : (w.extractLsb' 26 6).toNat = op) :
    w &&& 0xFC000000#32 = BitVec.ofNat 32 (op * 2 ^ 26) := by
  have key : w &&& 0xFC000000#32 = (w >>> 26) <<< 26 := by
    ext i hi
    interval_cases i <;> simp
  rw [field_toNat] at hw
  have hlt := w.isLt
  rw [key]
  apply BitVec.eq_of_toNat_eq
  rw [BitVec.toNat_shiftLeft, BitVec.toNat_ushiftRight, Nat.shiftLeft_eq, Nat.shiftRight_eq_div_pow, BitVec.toNat_ofNat]
  omega

/-- An I-type word under the mask of a primary opcode. -/
theorem Sys2Proof.Laws.iWord_and (op : Nat) (rs rt : RegNum) (imm : BitVec 16) (h : op < 64) :
    iWord op rs rt imm &&& 0xFC000000#32 = BitVec.ofNat 32 (op * 2 ^ 26) := by
  exact Sys2Proof.Laws.and_primary _ op (fieldsOf_iWord op rs rt imm h).1

/-- An I-type word under the mask of a REGIMM row. -/
theorem Sys2Proof.Laws.iWord_and_regimm (rs rt : RegNum) (imm : BitVec 16) :
    iWord 1 rs rt imm &&& 0xFC1F0000#32 = BitVec.ofNat 32 (2 ^ 26 + rt.val * 2 ^ 16) := by
  have key : ∀ w : Word, w &&& 0xFC1F0000#32 = (w >>> 26) <<< 26 ||| ((w >>> 16) <<< 27) >>> 11 := by
    intro w
    ext i hi
    interval_cases i <;> simp
  obtain ⟨h1, -, h2, -⟩ := fieldsOf_iWord 1 rs rt imm (by decide)
  replace h2 := congrArg Fin.val h2
  simp only [fieldsOf, field_toNat, regField_val] at h1 h2
  have hlt := (iWord 1 rs rt imm).isLt
  have h3 : iWord 1 rs rt imm >>> 26 = 1#32 := BitVec.eq_of_toNat_eq (by
    rw [BitVec.toNat_ushiftRight, Nat.shiftRight_eq_div_pow, BitVec.toNat_ofNat]; omega)
  have h4 : ((iWord 1 rs rt imm >>> 16) <<< 27) >>> 11 = BitVec.ofNat 32 (rt.val * 2 ^ 16) := BitVec.eq_of_toNat_eq (by
    rw [BitVec.toNat_ushiftRight, BitVec.toNat_shiftLeft, BitVec.toNat_ushiftRight, Nat.shiftLeft_eq,
      Nat.shiftRight_eq_div_pow, Nat.shiftRight_eq_div_pow, BitVec.toNat_ofNat]
    omega)
  have h5 : ∀ f : RegNum, 1#32 <<< 26 ||| BitVec.ofNat 32 (f.val * 2 ^ 16) = BitVec.ofNat 32 (2 ^ 26 + f.val * 2 ^ 16) := by decide
  rw [key, h3, h4]
  exact h5 rt

/-- A J-type word under the mask of a primary opcode. -/
theorem Sys2Proof.Laws.jWord_and (op : Nat) (target : BitVec 26) (h : op < 64) :
    jWord op target &&& 0xFC000000#32 = BitVec.ofNat 32 (op * 2 ^ 26) := by
  exact Sys2Proof.Laws.and_primary _ op (fieldsOf_jWord op target h).1

theorem Sys2Proof.Laws.TableRow.add (rd rs rt : RegNum) : Sys2Proof.Laws.TableRow.Statement (.add rd rs rt) :=
  ⟨Sys2Proof.Laws.rWord_and _ _ _ _ _ (by decide), by simp [tableRow, opcodeTable]⟩

theorem Sys2Proof.Laws.TableRow.addu (rd rs rt : RegNum) : Sys2Proof.Laws.TableRow.Statement (.addu rd rs rt) :=
  ⟨Sys2Proof.Laws.rWord_and _ _ _ _ _ (by decide), by simp [tableRow, opcodeTable]⟩

theorem Sys2Proof.Laws.TableRow.sub (rd rs rt : RegNum) : Sys2Proof.Laws.TableRow.Statement (.sub rd rs rt) :=
  ⟨Sys2Proof.Laws.rWord_and _ _ _ _ _ (by decide), by simp [tableRow, opcodeTable]⟩

theorem Sys2Proof.Laws.TableRow.subu (rd rs rt : RegNum) : Sys2Proof.Laws.TableRow.Statement (.subu rd rs rt) :=
  ⟨Sys2Proof.Laws.rWord_and _ _ _ _ _ (by decide), by simp [tableRow, opcodeTable]⟩

theorem Sys2Proof.Laws.TableRow.and (rd rs rt : RegNum) : Sys2Proof.Laws.TableRow.Statement (.and rd rs rt) :=
  ⟨Sys2Proof.Laws.rWord_and _ _ _ _ _ (by decide), by simp [tableRow, opcodeTable]⟩

theorem Sys2Proof.Laws.TableRow.or (rd rs rt : RegNum) : Sys2Proof.Laws.TableRow.Statement (.or rd rs rt) :=
  ⟨Sys2Proof.Laws.rWord_and _ _ _ _ _ (by decide), by simp [tableRow, opcodeTable]⟩

theorem Sys2Proof.Laws.TableRow.xor (rd rs rt : RegNum) : Sys2Proof.Laws.TableRow.Statement (.xor rd rs rt) :=
  ⟨Sys2Proof.Laws.rWord_and _ _ _ _ _ (by decide), by simp [tableRow, opcodeTable]⟩

theorem Sys2Proof.Laws.TableRow.nor (rd rs rt : RegNum) : Sys2Proof.Laws.TableRow.Statement (.nor rd rs rt) :=
  ⟨Sys2Proof.Laws.rWord_and _ _ _ _ _ (by decide), by simp [tableRow, opcodeTable]⟩

theorem Sys2Proof.Laws.TableRow.slt (rd rs rt : RegNum) : Sys2Proof.Laws.TableRow.Statement (.slt rd rs rt) :=
  ⟨Sys2Proof.Laws.rWord_and _ _ _ _ _ (by decide), by simp [tableRow, opcodeTable]⟩

theorem Sys2Proof.Laws.TableRow.sltu (rd rs rt : RegNum) : Sys2Proof.Laws.TableRow.Statement (.sltu rd rs rt) :=
  ⟨Sys2Proof.Laws.rWord_and _ _ _ _ _ (by decide), by simp [tableRow, opcodeTable]⟩

theorem Sys2Proof.Laws.TableRow.addi (rt rs : RegNum) (imm : BitVec 16) : Sys2Proof.Laws.TableRow.Statement (.addi rt rs imm) :=
  ⟨Sys2Proof.Laws.iWord_and 8 _ _ _ (by decide), by simp [tableRow, opcodeTable]⟩

theorem Sys2Proof.Laws.TableRow.addiu (rt rs : RegNum) (imm : BitVec 16) : Sys2Proof.Laws.TableRow.Statement (.addiu rt rs imm) :=
  ⟨Sys2Proof.Laws.iWord_and 9 _ _ _ (by decide), by simp [tableRow, opcodeTable]⟩

theorem Sys2Proof.Laws.TableRow.slti (rt rs : RegNum) (imm : BitVec 16) : Sys2Proof.Laws.TableRow.Statement (.slti rt rs imm) :=
  ⟨Sys2Proof.Laws.iWord_and 10 _ _ _ (by decide), by simp [tableRow, opcodeTable]⟩

theorem Sys2Proof.Laws.TableRow.sltiu (rt rs : RegNum) (imm : BitVec 16) : Sys2Proof.Laws.TableRow.Statement (.sltiu rt rs imm) :=
  ⟨Sys2Proof.Laws.iWord_and 11 _ _ _ (by decide), by simp [tableRow, opcodeTable]⟩

theorem Sys2Proof.Laws.TableRow.andi (rt rs : RegNum) (imm : BitVec 16) : Sys2Proof.Laws.TableRow.Statement (.andi rt rs imm) :=
  ⟨Sys2Proof.Laws.iWord_and 12 _ _ _ (by decide), by simp [tableRow, opcodeTable]⟩

theorem Sys2Proof.Laws.TableRow.ori (rt rs : RegNum) (imm : BitVec 16) : Sys2Proof.Laws.TableRow.Statement (.ori rt rs imm) :=
  ⟨Sys2Proof.Laws.iWord_and 13 _ _ _ (by decide), by simp [tableRow, opcodeTable]⟩

theorem Sys2Proof.Laws.TableRow.xori (rt rs : RegNum) (imm : BitVec 16) : Sys2Proof.Laws.TableRow.Statement (.xori rt rs imm) :=
  ⟨Sys2Proof.Laws.iWord_and 14 _ _ _ (by decide), by simp [tableRow, opcodeTable]⟩

theorem Sys2Proof.Laws.TableRow.lui (rt : RegNum) (imm : BitVec 16) : Sys2Proof.Laws.TableRow.Statement (.lui rt imm) :=
  ⟨Sys2Proof.Laws.iWord_and 15 _ _ _ (by decide), by simp [tableRow, opcodeTable]⟩

theorem Sys2Proof.Laws.TableRow.sll (rd rt : RegNum) (shamt : Nat) : Sys2Proof.Laws.TableRow.Statement (.sll rd rt shamt) :=
  ⟨Sys2Proof.Laws.rWord_and _ _ _ _ _ (by decide), by simp [tableRow, opcodeTable]⟩

theorem Sys2Proof.Laws.TableRow.srl (rd rt : RegNum) (shamt : Nat) : Sys2Proof.Laws.TableRow.Statement (.srl rd rt shamt) :=
  ⟨Sys2Proof.Laws.rWord_and _ _ _ _ _ (by decide), by simp [tableRow, opcodeTable]⟩

theorem Sys2Proof.Laws.TableRow.sra (rd rt : RegNum) (shamt : Nat) : Sys2Proof.Laws.TableRow.Statement (.sra rd rt shamt) :=
  ⟨Sys2Proof.Laws.rWord_and _ _ _ _ _ (by decide), by simp [tableRow, opcodeTable]⟩

theorem Sys2Proof.Laws.TableRow.sllv (rd rt rs : RegNum) : Sys2Proof.Laws.TableRow.Statement (.sllv rd rt rs) :=
  ⟨Sys2Proof.Laws.rWord_and _ _ _ _ _ (by decide), by simp [tableRow, opcodeTable]⟩

theorem Sys2Proof.Laws.TableRow.srlv (rd rt rs : RegNum) : Sys2Proof.Laws.TableRow.Statement (.srlv rd rt rs) :=
  ⟨Sys2Proof.Laws.rWord_and _ _ _ _ _ (by decide), by simp [tableRow, opcodeTable]⟩

theorem Sys2Proof.Laws.TableRow.srav (rd rt rs : RegNum) : Sys2Proof.Laws.TableRow.Statement (.srav rd rt rs) :=
  ⟨Sys2Proof.Laws.rWord_and _ _ _ _ _ (by decide), by simp [tableRow, opcodeTable]⟩

theorem Sys2Proof.Laws.TableRow.mult (rs rt : RegNum) : Sys2Proof.Laws.TableRow.Statement (.mult rs rt) :=
  ⟨Sys2Proof.Laws.rWord_and _ _ _ _ _ (by decide), by simp [tableRow, opcodeTable]⟩

theorem Sys2Proof.Laws.TableRow.multu (rs rt : RegNum) : Sys2Proof.Laws.TableRow.Statement (.multu rs rt) :=
  ⟨Sys2Proof.Laws.rWord_and _ _ _ _ _ (by decide), by simp [tableRow, opcodeTable]⟩

theorem Sys2Proof.Laws.TableRow.div (rs rt : RegNum) : Sys2Proof.Laws.TableRow.Statement (.div rs rt) :=
  ⟨Sys2Proof.Laws.rWord_and _ _ _ _ _ (by decide), by simp [tableRow, opcodeTable]⟩

theorem Sys2Proof.Laws.TableRow.divu (rs rt : RegNum) : Sys2Proof.Laws.TableRow.Statement (.divu rs rt) :=
  ⟨Sys2Proof.Laws.rWord_and _ _ _ _ _ (by decide), by simp [tableRow, opcodeTable]⟩

theorem Sys2Proof.Laws.TableRow.mfhi (rd : RegNum) : Sys2Proof.Laws.TableRow.Statement (.mfhi rd) :=
  ⟨Sys2Proof.Laws.rWord_and _ _ _ _ _ (by decide), by simp [tableRow, opcodeTable]⟩

theorem Sys2Proof.Laws.TableRow.mflo (rd : RegNum) : Sys2Proof.Laws.TableRow.Statement (.mflo rd) :=
  ⟨Sys2Proof.Laws.rWord_and _ _ _ _ _ (by decide), by simp [tableRow, opcodeTable]⟩

theorem Sys2Proof.Laws.TableRow.mthi (rs : RegNum) : Sys2Proof.Laws.TableRow.Statement (.mthi rs) :=
  ⟨Sys2Proof.Laws.rWord_and _ _ _ _ _ (by decide), by simp [tableRow, opcodeTable]⟩

theorem Sys2Proof.Laws.TableRow.mtlo (rs : RegNum) : Sys2Proof.Laws.TableRow.Statement (.mtlo rs) :=
  ⟨Sys2Proof.Laws.rWord_and _ _ _ _ _ (by decide), by simp [tableRow, opcodeTable]⟩

theorem Sys2Proof.Laws.TableRow.lb (rt : RegNum) (imm : BitVec 16) (rs : RegNum) : Sys2Proof.Laws.TableRow.Statement (.lb rt imm rs) :=
  ⟨Sys2Proof.Laws.iWord_and 32 _ _ _ (by decide), by simp [tableRow, opcodeTable]⟩

theorem Sys2Proof.Laws.TableRow.lbu (rt : RegNum) (imm : BitVec 16) (rs : RegNum) : Sys2Proof.Laws.TableRow.Statement (.lbu rt imm rs) :=
  ⟨Sys2Proof.Laws.iWord_and 36 _ _ _ (by decide), by simp [tableRow, opcodeTable]⟩

theorem Sys2Proof.Laws.TableRow.lh (rt : RegNum) (imm : BitVec 16) (rs : RegNum) : Sys2Proof.Laws.TableRow.Statement (.lh rt imm rs) :=
  ⟨Sys2Proof.Laws.iWord_and 33 _ _ _ (by decide), by simp [tableRow, opcodeTable]⟩

theorem Sys2Proof.Laws.TableRow.lhu (rt : RegNum) (imm : BitVec 16) (rs : RegNum) : Sys2Proof.Laws.TableRow.Statement (.lhu rt imm rs) :=
  ⟨Sys2Proof.Laws.iWord_and 37 _ _ _ (by decide), by simp [tableRow, opcodeTable]⟩

theorem Sys2Proof.Laws.TableRow.lw (rt : RegNum) (imm : BitVec 16) (rs : RegNum) : Sys2Proof.Laws.TableRow.Statement (.lw rt imm rs) :=
  ⟨Sys2Proof.Laws.iWord_and 35 _ _ _ (by decide), by simp [tableRow, opcodeTable]⟩

theorem Sys2Proof.Laws.TableRow.lwl (rt : RegNum) (imm : BitVec 16) (rs : RegNum) : Sys2Proof.Laws.TableRow.Statement (.lwl rt imm rs) :=
  ⟨Sys2Proof.Laws.iWord_and 34 _ _ _ (by decide), by simp [tableRow, opcodeTable]⟩

theorem Sys2Proof.Laws.TableRow.lwr (rt : RegNum) (imm : BitVec 16) (rs : RegNum) : Sys2Proof.Laws.TableRow.Statement (.lwr rt imm rs) :=
  ⟨Sys2Proof.Laws.iWord_and 38 _ _ _ (by decide), by simp [tableRow, opcodeTable]⟩

theorem Sys2Proof.Laws.TableRow.sb (rt : RegNum) (imm : BitVec 16) (rs : RegNum) : Sys2Proof.Laws.TableRow.Statement (.sb rt imm rs) :=
  ⟨Sys2Proof.Laws.iWord_and 40 _ _ _ (by decide), by simp [tableRow, opcodeTable]⟩

theorem Sys2Proof.Laws.TableRow.sh (rt : RegNum) (imm : BitVec 16) (rs : RegNum) : Sys2Proof.Laws.TableRow.Statement (.sh rt imm rs) :=
  ⟨Sys2Proof.Laws.iWord_and 41 _ _ _ (by decide), by simp [tableRow, opcodeTable]⟩

theorem Sys2Proof.Laws.TableRow.sw (rt : RegNum) (imm : BitVec 16) (rs : RegNum) : Sys2Proof.Laws.TableRow.Statement (.sw rt imm rs) :=
  ⟨Sys2Proof.Laws.iWord_and 43 _ _ _ (by decide), by simp [tableRow, opcodeTable]⟩

theorem Sys2Proof.Laws.TableRow.swl (rt : RegNum) (imm : BitVec 16) (rs : RegNum) : Sys2Proof.Laws.TableRow.Statement (.swl rt imm rs) :=
  ⟨Sys2Proof.Laws.iWord_and 42 _ _ _ (by decide), by simp [tableRow, opcodeTable]⟩

theorem Sys2Proof.Laws.TableRow.swr (rt : RegNum) (imm : BitVec 16) (rs : RegNum) : Sys2Proof.Laws.TableRow.Statement (.swr rt imm rs) :=
  ⟨Sys2Proof.Laws.iWord_and 46 _ _ _ (by decide), by simp [tableRow, opcodeTable]⟩

theorem Sys2Proof.Laws.TableRow.beq (rs rt : RegNum) (imm : BitVec 16) : Sys2Proof.Laws.TableRow.Statement (.beq rs rt imm) :=
  ⟨Sys2Proof.Laws.iWord_and 4 _ _ _ (by decide), by simp [tableRow, opcodeTable]⟩

theorem Sys2Proof.Laws.TableRow.bne (rs rt : RegNum) (imm : BitVec 16) : Sys2Proof.Laws.TableRow.Statement (.bne rs rt imm) :=
  ⟨Sys2Proof.Laws.iWord_and 5 _ _ _ (by decide), by simp [tableRow, opcodeTable]⟩

theorem Sys2Proof.Laws.TableRow.blez (rs : RegNum) (imm : BitVec 16) : Sys2Proof.Laws.TableRow.Statement (.blez rs imm) :=
  ⟨Sys2Proof.Laws.iWord_and 6 _ _ _ (by decide), by simp [tableRow, opcodeTable]⟩

theorem Sys2Proof.Laws.TableRow.bgtz (rs : RegNum) (imm : BitVec 16) : Sys2Proof.Laws.TableRow.Statement (.bgtz rs imm) :=
  ⟨Sys2Proof.Laws.iWord_and 7 _ _ _ (by decide), by simp [tableRow, opcodeTable]⟩

theorem Sys2Proof.Laws.TableRow.bltz (rs : RegNum) (imm : BitVec 16) : Sys2Proof.Laws.TableRow.Statement (.bltz rs imm) :=
  ⟨Sys2Proof.Laws.iWord_and_regimm _ _ _, by simp [tableRow, opcodeTable]⟩

theorem Sys2Proof.Laws.TableRow.bgez (rs : RegNum) (imm : BitVec 16) : Sys2Proof.Laws.TableRow.Statement (.bgez rs imm) :=
  ⟨Sys2Proof.Laws.iWord_and_regimm _ _ _, by simp [tableRow, opcodeTable]⟩

theorem Sys2Proof.Laws.TableRow.bltzal (rs : RegNum) (imm : BitVec 16) : Sys2Proof.Laws.TableRow.Statement (.bltzal rs imm) :=
  ⟨Sys2Proof.Laws.iWord_and_regimm _ _ _, by simp [tableRow, opcodeTable]⟩

theorem Sys2Proof.Laws.TableRow.bgezal (rs : RegNum) (imm : BitVec 16) : Sys2Proof.Laws.TableRow.Statement (.bgezal rs imm) :=
  ⟨Sys2Proof.Laws.iWord_and_regimm _ _ _, by simp [tableRow, opcodeTable]⟩

theorem Sys2Proof.Laws.TableRow.j (target : BitVec 26) : Sys2Proof.Laws.TableRow.Statement (.j target) :=
  ⟨Sys2Proof.Laws.jWord_and 2 _ (by decide), by simp [tableRow, opcodeTable]⟩

theorem Sys2Proof.Laws.TableRow.jal (target : BitVec 26) : Sys2Proof.Laws.TableRow.Statement (.jal target) :=
  ⟨Sys2Proof.Laws.jWord_and 3 _ (by decide), by simp [tableRow, opcodeTable]⟩

theorem Sys2Proof.Laws.TableRow.jr (rs : RegNum) : Sys2Proof.Laws.TableRow.Statement (.jr rs) :=
  ⟨Sys2Proof.Laws.rWord_and _ _ _ _ _ (by decide), by simp [tableRow, opcodeTable]⟩

theorem Sys2Proof.Laws.TableRow.jalr (rd rs : RegNum) : Sys2Proof.Laws.TableRow.Statement (.jalr rd rs) :=
  ⟨Sys2Proof.Laws.rWord_and _ _ _ _ _ (by decide), by simp [tableRow, opcodeTable]⟩

theorem Sys2Proof.Laws.TableRow.syscall : Sys2Proof.Laws.TableRow.Statement (.syscall) :=
  ⟨Sys2Proof.Laws.rWord_and _ _ _ _ _ (by decide), by simp [tableRow, opcodeTable]⟩
end

