-- ==== Sys2Proof/Tests/Slice0.lean ====
section
/-! SUPPORT. The package's own tests: checks of well-formedness, words written out from the spec's encodings, one step on a small state for
each instruction, with values from the spec's examples (R101 to R192, 95_test_vectors.md part B), the host's operations on small
machines, and for every statement with hypotheses a witness that meets them. -/
namespace Sys2Proof.Machine

/-! ## Well-formedness -/

theorem test_wf_sll : (Instr.sll 3 2 32).wellFormed = false ∧ (Instr.sll 3 2 31).wellFormed = true := by decide
theorem test_wf_srl : (Instr.srl 3 2 32).wellFormed = false ∧ (Instr.srl 3 2 31).wellFormed = true := by decide
theorem test_wf_sra : (Instr.sra 3 2 32).wellFormed = false ∧ (Instr.sra 3 2 31).wellFormed = true := by decide

/-! ## Decoding: every field written in binary, from the formats of 30_encoding.md R81 and the numbers of R83 to R85 -/

theorem test_decode_add : decode 0b000000_00001_00010_00011_00000_100000 = .ok (.add 3 1 2) := by decide
theorem test_decode_addu : decode 0b000000_00001_00010_00011_00000_100001 = .ok (.addu 3 1 2) := by decide
theorem test_decode_sub : decode 0b000000_00001_00010_00011_00000_100010 = .ok (.sub 3 1 2) := by decide
theorem test_decode_subu : decode 0b000000_00001_00010_00011_00000_100011 = .ok (.subu 3 1 2) := by decide
theorem test_decode_and : decode 0b000000_00001_00010_00011_00000_100100 = .ok (.and 3 1 2) := by decide
theorem test_decode_or : decode 0b000000_00001_00010_00011_00000_100101 = .ok (.or 3 1 2) := by decide
theorem test_decode_xor : decode 0b000000_00001_00010_00011_00000_100110 = .ok (.xor 3 1 2) := by decide
theorem test_decode_nor : decode 0b000000_00001_00010_00011_00000_100111 = .ok (.nor 3 1 2) := by decide
theorem test_decode_slt : decode 0b000000_00001_00010_00011_00000_101010 = .ok (.slt 3 1 2) := by decide
theorem test_decode_sltu : decode 0b000000_00001_00010_00011_00000_101011 = .ok (.sltu 3 1 2) := by decide
theorem test_decode_addi : decode 0b001000_00001_00010_1111111111111111 = .ok (.addi 2 1 0xFFFF) := by decide
theorem test_decode_addiu : decode 0b001001_00001_00010_1111111111111111 = .ok (.addiu 2 1 0xFFFF) := by decide
theorem test_decode_slti : decode 0b001010_00001_00010_1111111111111111 = .ok (.slti 2 1 0xFFFF) := by decide
theorem test_decode_sltiu : decode 0b001011_00001_00010_1111111111111111 = .ok (.sltiu 2 1 0xFFFF) := by decide
theorem test_decode_andi : decode 0b001100_00001_00010_1000000000000000 = .ok (.andi 2 1 0x8000) := by decide
theorem test_decode_ori : decode 0b001101_00001_00010_1000000000000000 = .ok (.ori 2 1 0x8000) := by decide
theorem test_decode_xori : decode 0b001110_00001_00010_1000000000000000 = .ok (.xori 2 1 0x8000) := by decide
theorem test_decode_lui : decode 0b001111_11111_00010_0001001000110100 = .ok (.lui 2 0x1234) := by decide
theorem test_decode_sll : decode 0b000000_11111_00010_00011_11111_000000 = .ok (.sll 3 2 31) := by decide
theorem test_decode_srl : decode 0b000000_11111_00010_00011_11111_000010 = .ok (.srl 3 2 31) := by decide
theorem test_decode_sra : decode 0b000000_11111_00010_00011_11111_000011 = .ok (.sra 3 2 31) := by decide
theorem test_decode_sllv : decode 0b000000_00001_00010_00011_00000_000100 = .ok (.sllv 3 2 1) := by decide
theorem test_decode_srlv : decode 0b000000_00001_00010_00011_00000_000110 = .ok (.srlv 3 2 1) := by decide
theorem test_decode_srav : decode 0b000000_00001_00010_00011_00000_000111 = .ok (.srav 3 2 1) := by decide
theorem test_decode_mult : decode 0b000000_00001_00010_00000_00000_011000 = .ok (.mult 1 2) := by decide
theorem test_decode_multu : decode 0b000000_00001_00010_00000_00000_011001 = .ok (.multu 1 2) := by decide
theorem test_decode_div : decode 0b000000_00001_00010_00000_00000_011010 = .ok (.div 1 2) := by decide
theorem test_decode_divu : decode 0b000000_00001_00010_00000_00000_011011 = .ok (.divu 1 2) := by decide
theorem test_decode_mfhi : decode 0b000000_00000_00000_00011_00000_010000 = .ok (.mfhi 3) := by decide
theorem test_decode_mflo : decode 0b000000_00000_00000_00011_00000_010010 = .ok (.mflo 3) := by decide
theorem test_decode_mthi : decode 0b000000_00001_00000_00000_00000_010001 = .ok (.mthi 1) := by decide
theorem test_decode_mtlo : decode 0b000000_00001_00000_00000_00000_010011 = .ok (.mtlo 1) := by decide
theorem test_decode_lb : decode 0b100000_00001_00010_1111111111111100 = .ok (.lb 2 0xFFFC 1) := by decide
theorem test_decode_lbu : decode 0b100100_00001_00010_1111111111111100 = .ok (.lbu 2 0xFFFC 1) := by decide
theorem test_decode_lh : decode 0b100001_00001_00010_1111111111111100 = .ok (.lh 2 0xFFFC 1) := by decide
theorem test_decode_lhu : decode 0b100101_00001_00010_1111111111111100 = .ok (.lhu 2 0xFFFC 1) := by decide
theorem test_decode_lw : decode 0b100011_00001_00010_1111111111111100 = .ok (.lw 2 0xFFFC 1) := by decide
theorem test_decode_lwl : decode 0b100010_00001_00010_1111111111111100 = .ok (.lwl 2 0xFFFC 1) := by decide
theorem test_decode_lwr : decode 0b100110_00001_00010_1111111111111100 = .ok (.lwr 2 0xFFFC 1) := by decide
theorem test_decode_sb : decode 0b101000_00001_00010_1111111111111100 = .ok (.sb 2 0xFFFC 1) := by decide
theorem test_decode_sh : decode 0b101001_00001_00010_1111111111111100 = .ok (.sh 2 0xFFFC 1) := by decide
theorem test_decode_sw : decode 0b101011_00001_00010_1111111111111100 = .ok (.sw 2 0xFFFC 1) := by decide
theorem test_decode_swl : decode 0b101010_00001_00010_1111111111111100 = .ok (.swl 2 0xFFFC 1) := by decide
theorem test_decode_swr : decode 0b101110_00001_00010_1111111111111100 = .ok (.swr 2 0xFFFC 1) := by decide
theorem test_decode_beq : decode 0b000100_00001_00010_0000000000000011 = .ok (.beq 1 2 3) := by decide
theorem test_decode_bne : decode 0b000101_00001_00010_0000000000000011 = .ok (.bne 1 2 3) := by decide
theorem test_decode_blez : decode 0b000110_00001_00000_0000000000000011 = .ok (.blez 1 3) := by decide
theorem test_decode_bgtz : decode 0b000111_00001_00000_0000000000000011 = .ok (.bgtz 1 3) := by decide
theorem test_decode_bltz : decode 0b000001_00001_00000_0000000000000011 = .ok (.bltz 1 3) := by decide
theorem test_decode_bgez : decode 0b000001_00001_00001_0000000000000011 = .ok (.bgez 1 3) := by decide
theorem test_decode_bltzal : decode 0b000001_00001_10000_0000000000000011 = .ok (.bltzal 1 3) := by decide
theorem test_decode_bgezal : decode 0b000001_00001_10001_0000000000000011 = .ok (.bgezal 1 3) := by decide
theorem test_decode_j : decode 0b000010_10000000000000000000010000 = .ok (.j 0x2000010) := by decide
theorem test_decode_jal : decode 0b000011_10000000000000000000010000 = .ok (.jal 0x2000010) := by decide
theorem test_decode_jr : decode 0b000000_11111_00000_00000_00000_001000 = .ok (.jr 31) := by decide
theorem test_decode_jalr : decode 0b000000_00100_00000_11111_00000_001001 = .ok (.jalr 31 4) := by decide
theorem test_decode_syscall : decode 0b000000_00000000000000000101_001100 = .ok .syscall := by decide

/-- The encoder's word of one instruction of each format, from the rules' examples. -/
theorem test_encode : encode (.add 3 1 2) = 0x00221820 ∧ encode (.addi 2 1 0xFFFF) = 0x2022FFFF ∧ encode (.bgezal 1 3) = 0x04310003 ∧
    encode (.j 0x10) = 0x08000010 := by decide
/-- Reserved words of every class of 45_system.md R192. -/
theorem test_decode_reserved : decode 0x40000000 = .error .coprocessor ∧ decode 0xC0000000 = .error .loadCoprocessor ∧
    decode 0xE0000000 = .error .storeCoprocessor ∧ decode 0x70000000 = .error .reservedOpcode ∧ decode 0x0000000D = .error .breakWord ∧
    decode 0x0000000F = .error .reservedFunct ∧ decode 0x04020000 = .error .reservedRegimm := by decide
theorem test_decode_truncated : decodeBytes [0x20, 0x18, 0x22] = .error .truncated := by decide
theorem test_decode_bytes : decodeBytes [0x20, 0x18, 0x22, 0x00, 0xFF] = .ok (.add 3 1 2, [0xFF]) := by decide
/-- Every row of the table has a word: its pattern. -/
theorem test_rows_inhabited : opcodeTable.all (fun row => row.2 &&& row.1 == row.2) = true := by rfl

/-! ## The machine of 95_test_vectors.md part B: an identity table of 8 pages, the word at 0x10 -/

def identityEntry (v : Nat) : TranslationEntry := .loaded v v

def testImage : ProgramImage := ⟨[], ⟨0, 0, 0⟩, ⟨0, 0, 0⟩, ⟨0, 0, 0⟩⟩

def testSpace : AddressSpace := { AddressSpace.fresh testImage 8 .demandSwap with pageTable := (List.range 8).map identityEntry }

def testBase : State :=
  { State.reset with
    pc := 0x10, nextPc := 0x14, spaces := [(0, testSpace)], activeTable := some 0, pageTableSize := 8, currentSpace := some 0
    coremap := (List.range 32).map fun f => if f < 8 then some ⟨0, f⟩ else none }

/-- The machine with an instruction word, general registers and words of memory. -/
def start (w : Word) (regs : List (RegNum × Word)) (words : List (Nat × Word)) : State :=
  { regs.foldl (fun s p => s.setX p.1 p.2) testBase with
    mem := ((0x10, w) :: words).foldl (fun m p => Memory.writeValue m p.1 p.2 .word) [] }

/-- The state an operation answers. -/
def stateOf (r : Result State) : State :=
  match r with
  | .next t => t
  | .fault _ => State.reset
  | .refused _ => State.reset

/-- Did the operation answer. -/
def answers (r : Result State) : Bool :=
  match r with
  | .next _ => true
  | .fault _ => false
  | .refused _ => false

theorem next_stateOf {r : Result State} (h : answers r = true) : r = .next (stateOf r) := by
  cases r <;> first | rfl | cases h

/-- One register and the PCs after one completed step. -/
def ran (s : State) (r : RegNum) : Word × Word × Word × Word × Option Trap :=
  let t := stateOf (step s)
  (t.getX r, t.prevPc, t.pc, t.nextPc, t.trap)

/-- What a step that raises leaves: the result, `BAD_VADDR`, `PC` and one register. -/
def trapped (s : State) (r : RegNum) : Option Trap × Word × Word × Word :=
  let t := stateOf (step s)
  (t.trap, t.badVAddr, t.pc, t.getX r)

/-! ## One step for each instruction -/

theorem test_add : ran (start 0x00221820 [(1, 0x7FFFFFFF), (2, 0x80000000)] []) 3 = (0xFFFFFFFF, 0x10, 0x14, 0x18, none) := by decide
theorem test_add_overflow : trapped (start 0x00221820 [(1, 0x7FFFFFFF), (2, 1), (3, 0x55)] []) 3 = (some ⟨.overflow, 0⟩, 0, 0x10, 0x55) := by decide
theorem test_addu : ran (start 0x00221821 [(1, 0x7FFFFFFF), (2, 1)] []) 3 = (0x80000000, 0x10, 0x14, 0x18, none) := by decide
theorem test_sub : ran (start 0x00221822 [(1, 5), (2, 7)] []) 3 = (0xFFFFFFFE, 0x10, 0x14, 0x18, none) := by decide
theorem test_sub_overflow : trapped (start 0x00221822 [(1, 0), (2, 0x80000000), (3, 0x55)] []) 3 = (some ⟨.overflow, 0⟩, 0, 0x10, 0x55) := by decide
theorem test_subu : ran (start 0x00221823 [(1, 0x80000000), (2, 1)] []) 3 = (0x7FFFFFFF, 0x10, 0x14, 0x18, none) := by decide
theorem test_and : ran (start 0x00221824 [(1, 0xFF00FF00), (2, 0x0FF00FF0)] []) 3 = (0x0F000F00, 0x10, 0x14, 0x18, none) := by decide
theorem test_or : ran (start 0x00221825 [(1, 0xFF00FF00), (2, 0x0FF00FF0)] []) 3 = (0xFFF0FFF0, 0x10, 0x14, 0x18, none) := by decide
theorem test_xor : ran (start 0x00221826 [(1, 0xFF00FF00), (2, 0x0FF00FF0)] []) 3 = (0xF0F0F0F0, 0x10, 0x14, 0x18, none) := by decide
theorem test_nor : ran (start 0x00221827 [(1, 0xFF00FF00), (2, 0x0FF00FF0)] []) 3 = (0x000F000F, 0x10, 0x14, 0x18, none) := by decide
theorem test_slt : ran (start 0x0022182A [(1, 0x80000000), (2, 0x7FFFFFFF)] []) 3 = (1, 0x10, 0x14, 0x18, none) := by decide
theorem test_sltu : ran (start 0x0022182B [(1, 0xFFFFFFFF), (2, 1), (3, 7)] []) 3 = (0, 0x10, 0x14, 0x18, none) := by decide
theorem test_addi : ran (start 0x2022FFFF [(1, 0)] []) 2 = (0xFFFFFFFF, 0x10, 0x14, 0x18, none) := by decide
theorem test_addi_overflow : trapped (start 0x20227FFF [(1, 0x7FFFFFFF), (2, 0x55)] []) 2 = (some ⟨.overflow, 0⟩, 0, 0x10, 0x55) := by decide
theorem test_addiu : ran (start 0x24228000 [(1, 0)] []) 2 = (0xFFFF8000, 0x10, 0x14, 0x18, none) := by decide
theorem test_slti : ran (start 0x2822FFFF [(1, 0xFFFFFFFE)] []) 2 = (1, 0x10, 0x14, 0x18, none) := by decide
theorem test_sltiu : ran (start 0x2C22FFFF [(1, 5)] []) 2 = (1, 0x10, 0x14, 0x18, none) := by decide
theorem test_andi : ran (start 0x3022FF00 [(1, 0x12345678)] []) 2 = (0x00005600, 0x10, 0x14, 0x18, none) := by decide
theorem test_ori : ran (start 0x34228000 [(1, 0x12340000)] []) 2 = (0x12348000, 0x10, 0x14, 0x18, none) := by decide
theorem test_xori : ran (start 0x3822FFFF [(1, 0x12345678)] []) 2 = (0x1234A987, 0x10, 0x14, 0x18, none) := by decide
theorem test_lui : ran (start 0x3FE21234 [(31, 0xFFFFFFFF)] []) 2 = (0x12340000, 0x10, 0x14, 0x18, none) := by decide
theorem test_sll : ran (start 0x00021900 [(2, 0xF0000001)] []) 3 = (0x00000010, 0x10, 0x14, 0x18, none) := by decide
theorem test_srl : ran (start 0x00021FC2 [(2, 0x80000000)] []) 3 = (1, 0x10, 0x14, 0x18, none) := by decide
theorem test_sra : ran (start 0x00021FC3 [(2, 0x80000000)] []) 3 = (0xFFFFFFFF, 0x10, 0x14, 0x18, none) := by decide
theorem test_sllv : ran (start 0x00221804 [(1, 0x24), (2, 1)] []) 3 = (0x10, 0x10, 0x14, 0x18, none) := by decide
theorem test_srlv : ran (start 0x00221806 [(1, 0xFFFFFFE1), (2, 0x80000000)] []) 3 = (0x40000000, 0x10, 0x14, 0x18, none) := by decide
theorem test_srav : ran (start 0x00221807 [(1, 0x21), (2, 0x80000000)] []) 3 = (0xC0000000, 0x10, 0x14, 0x18, none) := by decide

/-- `HI`, `LO`, `PC` and the result after one step. -/
def ranHiLo (s : State) : Word × Word × Word × Option Trap :=
  let t := stateOf (step s)
  (t.hi, t.lo, t.pc, t.trap)

/-- The machine with 0xDEAD, 0xBEEF in `HI`, `LO`. -/
def startHiLo (w : Word) (a b : Word) : State := { start w [(1, a), (2, b)] [] with hi := 0xDEAD, lo := 0xBEEF }

theorem test_mult : ranHiLo (startHiLo 0x00220018 0x80000000 0x7FFFFFFF) = (0xC0000000, 0x80000000, 0x14, none) := by decide
theorem test_multu : ranHiLo (startHiLo 0x00220019 0x80000000 0x7FFFFFFF) = (0x3FFFFFFF, 0x80000000, 0x14, none) := by decide
theorem test_div : ranHiLo (startHiLo 0x0022001A 0xFFFFFFF9 2) = (0xFFFFFFFF, 0xFFFFFFFD, 0x14, none) := by decide
theorem test_div_zero : ranHiLo (startHiLo 0x0022001A 7 0) = (0, 0, 0x14, none) := by decide
theorem test_divu : ranHiLo (startHiLo 0x0022001B 0xFFFFFFF9 2) = (1, 0x7FFFFFFC, 0x14, none) := by decide
theorem test_divu_zero : ranHiLo (startHiLo 0x0022001B 7 0) = (0, 0, 0x14, none) := by decide
/-- The quotient that does not fit (R143, U1; notes/assumptions/3.md): refused at the spec's own value of DIV_OVF, the value at reset; with
a named or a free pair the machine goes on. -/
theorem test_div_refuse : step (startHiLo 0x0022001A 0x80000000 0xFFFFFFFF) = .refused .divOverflow := rfl
theorem test_div_goesOn (d : DivOvf) (h : d ≠ .refuse) :
    answers (execDiv 1 2 { startHiLo 0x0022001A 0x80000000 0xFFFFFFFF with cfg := { Params.default with divOvf := d } }) = true := by
  cases d with
  | free => rfl
  | refuse => exact absurd rfl h
  | pair hi lo => rfl
theorem test_mfhi : ran { start 0x00001810 [] [] with hi := 0x12345678 } 3 = (0x12345678, 0x10, 0x14, 0x18, none) := by decide
theorem test_mflo : ran { start 0x00001812 [] [] with lo := 7 } 3 = (7, 0x10, 0x14, 0x18, none) := by decide
theorem test_mthi : ranHiLo (startHiLo 0x00200011 9 0) = (9, 0xBEEF, 0x14, none) := by decide
theorem test_mtlo : ranHiLo (startHiLo 0x00200013 9 0) = (0xDEAD, 9, 0x14, none) := by decide

/-- The pending load after one step, the target's value still old, `PC` and the result. -/
def ranLoad (s : State) (r : RegNum) : RegNum × Word × Word × Word × Option Trap :=
  let t := stateOf (step s)
  (t.load, t.loadValue, t.getX r, t.pc, t.trap)

/-- The memory of 95_test_vectors.md B4. -/
def startLoad (w base : Word) : State := start w [(1, base), (2, 0x55)] [(0x100, 0x8892F180), (0x104, 0x12345678)]

theorem test_lb : ranLoad (startLoad 0x80220003 0x100) 2 = (2, 0xFFFFFF88, 0x55, 0x14, none) := by decide
theorem test_lbu : ranLoad (startLoad 0x9022FFFF 0x104) 2 = (2, 0x88, 0x55, 0x14, none) := by decide
theorem test_lh : ranLoad (startLoad 0x84220002 0x100) 2 = (2, 0xFFFF8892, 0x55, 0x14, none) := by decide
theorem test_lh_odd : trapped (startLoad 0x84220001 0x100) 2 = (some ⟨.addressError, 0x101⟩, 0x101, 0x10, 0x55) := by decide
theorem test_lhu : ranLoad (startLoad 0x94220000 0x100) 2 = (2, 0x0000F180, 0x55, 0x14, none) := by decide
theorem test_lhu_odd : trapped (startLoad 0x94220003 0x100) 2 = (some ⟨.addressError, 0x103⟩, 0x103, 0x10, 0x55) := by decide
theorem test_lw : ranLoad (startLoad 0x8C22FFFC 0x104) 2 = (2, 0x8892F180, 0x55, 0x14, none) := by decide
theorem test_lw_unmapped : trapped (startLoad 0x8C220000 0x400) 2 = (some ⟨.pageFault, 0x400⟩, 0x400, 0x10, 0x55) := by decide

/-- The state of the partial-word rows of B4. -/
def startMerge (w : Word) : State := start w [(1, 0x100), (2, 0xAABBCCDD)] [(0x100, 0x44332211)]

/-- The same with the pending load of B4's pending rows. -/
def startPending (w : Word) (r : RegNum) : State := { startMerge w with load := r, loadValue := 0x99887766 }

def archLE (s : State) : State := { s with cfg := { s.cfg with mergeTable := .archLE } }

theorem test_lwl : ranLoad (startMerge 0x88220001) 2 = (2, 0x332211DD, 0xAABBCCDD, 0x14, none) := by decide
theorem test_lwl_archLE : ranLoad (archLE (startMerge 0x88220001)) 2 = (2, 0x2211CCDD, 0xAABBCCDD, 0x14, none) := by decide
theorem test_lwr_pending : ranLoad (startPending 0x98220001 2) 2 = (2, 0x99884433, 0x99887766, 0x14, none) := by decide
theorem test_lwr_archLE : ranLoad (archLE (startMerge 0x98220001)) 2 = (2, 0xAA443322, 0xAABBCCDD, 0x14, none) := by decide

/-- A word of memory after one step, `PC` and the result. -/
def ranStore (s : State) (a : Nat) : Word × Word × Option Trap :=
  let t := stateOf (step s)
  (Memory.readValue t.mem a .word, t.pc, t.trap)

def startStore (w : Word) : State := start w [(1, 0x100), (2, 0xAABBCCDD)] [(0x100, 0x8892F180)]

theorem test_sb : ranStore (startStore 0xA0220003) 0x100 = (0xDD92F180, 0x14, none) := by decide
theorem test_sb_bits : (stateOf (step (startStore 0xA0220003))).pte 0 2 = some ⟨2, 2, true, false, true, true⟩ := by decide
theorem test_sh : ranStore (startStore 0xA4220002) 0x100 = (0xCCDDF180, 0x14, none) := by decide
theorem test_sh_odd : ranStore (startStore 0xA4220001) 0x100 = (0x8892F180, 0x10, some ⟨.addressError, 0x101⟩) := by decide
theorem test_sw : ranStore (startStore 0xAC220000) 0x100 = (0xAABBCCDD, 0x14, none) := by decide
theorem test_sw_odd : ranStore (startStore 0xAC220002) 0x100 = (0x8892F180, 0x10, some ⟨.addressError, 0x102⟩) := by decide
theorem test_swl : ranStore (startMerge 0xA8220001) 0x100 = (0x44AABBCC, 0x14, none) := by decide
theorem test_swl_archLE : ranStore (archLE (startMerge 0xA8220002)) 0x100 = (0x44AABBCC, 0x14, none) := by decide
theorem test_swr : ranStore (startMerge 0xB8220001) 0x100 = (0xCCDD2211, 0x14, none) := by decide
theorem test_swr_archLE : ranStore (archLE (startMerge 0xB8220003)) 0x100 = (0xDD332211, 0x14, none) := by decide

theorem test_beq : ran (start 0x10220003 [(1, 5), (2, 5)] []) 31 = (0, 0x10, 0x14, 0x20, none) := by decide
theorem test_beq_not : ran (start 0x10220003 [(1, 5), (2, 6)] []) 31 = (0, 0x10, 0x14, 0x18, none) := by decide
theorem test_bne : ran (start 0x1422FFFE [(1, 5), (2, 6)] []) 31 = (0, 0x10, 0x14, 0x0C, none) := by decide
theorem test_bne_not : ran (start 0x1422FFFE [(1, 5), (2, 5)] []) 31 = (0, 0x10, 0x14, 0x18, none) := by decide
theorem test_blez : ran (start 0x18200003 [(1, 0)] []) 31 = (0, 0x10, 0x14, 0x20, none) := by decide
theorem test_blez_not : ran (start 0x18200003 [(1, 1)] []) 31 = (0, 0x10, 0x14, 0x18, none) := by decide
theorem test_bgtz : ran (start 0x1C200003 [(1, 1)] []) 31 = (0, 0x10, 0x14, 0x20, none) := by decide
theorem test_bgtz_not : ran (start 0x1C200003 [(1, 0x80000000)] []) 31 = (0, 0x10, 0x14, 0x18, none) := by decide
theorem test_bltz : ran (start 0x04200003 [(1, 0x80000000)] []) 31 = (0, 0x10, 0x14, 0x20, none) := by decide
theorem test_bltz_not : ran (start 0x04200003 [(1, 0)] []) 31 = (0, 0x10, 0x14, 0x18, none) := by decide
theorem test_bgez : ran (start 0x04210003 [(1, 0)] []) 31 = (0, 0x10, 0x14, 0x20, none) := by decide
theorem test_bgez_not : ran (start 0x04210003 [(1, 0xFFFFFFFF)] []) 31 = (0, 0x10, 0x14, 0x18, none) := by decide
theorem test_bltzal : ran (start 0x04300003 [(1, 0)] []) 31 = (0x18, 0x10, 0x14, 0x18, none) := by decide
theorem test_bltzal_self : ran (start 0x07F00003 [(31, 0xFFFFFFFF)] []) 31 = (0x18, 0x10, 0x14, 0x18, none) := by decide
theorem test_bgezal : ran (start 0x04310003 [(1, 0)] []) 31 = (0x18, 0x10, 0x14, 0x20, none) := by decide
theorem test_bgezal_self : ran (start 0x07F10003 [(31, 0xFFFFFFFF)] []) 31 = (0x18, 0x10, 0x14, 0x20, none) := by decide
theorem test_j : ran (start 0x0BFFFFFF [] []) 31 = (0, 0x10, 0x14, 0x0FFFFFFC, none) := by decide
theorem test_j_region : ran { start 0x08000010 [] [] with nextPc := 0x0FFFFFFC } 31 = (0, 0x10, 0x0FFFFFFC, 0x10000040, none) := by decide
theorem test_jal : ran (start 0x0C000010 [] []) 31 = (0x18, 0x10, 0x14, 0x40, none) := by decide
theorem test_jr : ran (start 0x03E00008 [(31, 0x80)] []) 31 = (0x80, 0x10, 0x14, 0x80, none) := by decide
theorem test_jalr : ran (start 0x0080F809 [(4, 0x80)] []) 31 = (0x18, 0x10, 0x14, 0x80, none) := by decide
theorem test_jalr_self : ran (start 0x00802009 [(4, 0x80)] []) 4 = (0x18, 0x10, 0x14, 0x18, none) := by decide
theorem test_syscall : trapped (start 0x03FFFFCC [] []) 0 = (some ⟨.syscall, 0⟩, 0, 0x10, 0) := by decide
theorem test_break : trapped (start 0x0000000D [] []) 0 = (some ⟨.illegalInstr, 0⟩, 0, 0x10, 0) := by decide
theorem test_fetch_odd : (stateOf (step { testBase with pc := 0x12 })).trap = some ⟨.addressError, 0x12⟩ := by decide
/-- H2 of B7: the pending load lands over the addiu's result. -/
theorem test_load_lands : ran { start 0x24020099 [(2, 0x55)] [] with load := 2, loadValue := 0x11111111 } 2 =
    (0x11111111, 0x10, 0x14, 0x18, none) := by decide
/-- H10 of B7, `EXC_DRAINS_LOAD` = true: the raise commits the pending load. -/
theorem test_drain : trapped { start 0x00421820 [(2, 0x40000000)] [] with
    load := 2, loadValue := 1, cfg := { Params.default with excDrainsLoad := true } } 2 = (some ⟨.overflow, 0⟩, 0, 0x10, 1) := by decide
theorem test_exception_codes : ExcKind.syscall.code = 1 ∧ ExcKind.illegalInstr.code = 7 := by decide

/-! ## Reset and the placed word -/

theorem test_reset : State.reset.pc = 0 ∧ State.reset.nextPc = 4 ∧ State.reset.lastVictim = 31 ∧ State.reset.claim 31 = none ∧
    step State.reset = .refused .noPageTable := ⟨rfl, rfl, rfl, rfl, rfl⟩
theorem test_placed : (stateOf (step (State.reset.withFetchWord 32 0x24020099))).getX 2 = 0x99 ∧
    (stateOf (step (State.reset.withFetchWord 32 0x24020099))).pc = 4 := by decide
theorem test_decodeTableWord : decodeTableWord 32 0x00221820 = some (.add 3 1 2) ∧ decodeTableWord 32 0x0000000D = none := by decide

/-! ## Witnesses: for every statement with hypotheses, states and operands that meet them -/

theorem witness_DecodeEncodeRoundTrip : (Instr.sll 3 2 31).WellFormed ∧ (Instr.sll 0 0 0).WellFormed := by decide

theorem witness_IgnoredBitsDoNotMatter : Instr.syscall.WellFormed ∧ (0x03FFFFCC : Word) &&& usedBits .syscall = encode .syscall ∧
    (0x03FFFFCC : Word) ≠ encode .syscall := by decide

theorem witness_IllegalWords : decode 0x0BFFFFFF = .ok (.j 0x3FFFFFF) ∧ decode 0x0000000D = .error .breakWord := by decide

/-- The physical address and the state of a translation that succeeds. -/
def okOf (a : Access Nat) : Nat × State :=
  match a with
  | .ok p u => (p, u)
  | .exc _ => (0, State.reset)
  | .refused _ => (0, State.reset)

def isOk (a : Access Nat) : Bool :=
  match a with
  | .ok _ _ => true
  | .exc _ => false
  | .refused _ => false

theorem ok_okOf {a : Access Nat} (h : isOk a = true) : a = .ok (okOf a).1 (okOf a).2 := by
  cases a <;> first | rfl | cases h

theorem witness_StepRunsDecodedInstruction : let s := start 0x00221820 [(1, 5), (2, 7)] []
    ∃ u, s.translate s.pc .word false = .ok 0x10 u ∧ decodeBytes (Memory.readBytes s.mem 0x10 4) = .ok (.add 3 1 2, []) :=
  ⟨_, ok_okOf (by decide), by decide⟩

theorem witness_IllegalWordRaises : let s := start 0x0000000D [] []
    ∃ u, s.translate s.pc .word false = .ok 0x10 u ∧ decodeBytes (Memory.readBytes s.mem 0x10 4) = .error .breakWord :=
  ⟨_, ok_okOf (by decide), by decide⟩

/-- The machine of part B with page 3 invalid, page 4 read-only and page 5 in a frame that does not exist. -/
def holed : State :=
  testBase.modifyEntry (.table 0 3) (fun e => { e with valid := false }) |>.modifyEntry (.table 0 4) (fun e => { e with readOnly := true })
    |>.modifyEntry (.table 0 5) (fun e => { e with physicalPage := 32 })

theorem witness_FetchOutcomes : holed.translationReady ∧
    ({ holed with pc := 0x12 } : State).translate 0x12 .word false = .exc .addressError ∧
    ({ holed with pc := 0x180 } : State).translate 0x180 .word false = .exc .pageFault ∧
    ({ holed with pc := 0x280 } : State).translate 0x280 .word false = .exc .busError ∧
    (0x12 : Word).toNat % 4 ≠ 0 ∧ (0x3FC : Word).toNat % 4 = 0 ∧
    holed.lookup ((0x3FC : Word).toNat / holed.cfg.pageSize) = .hit (.table 0 7) (identityEntry 7) ∧ 7 < holed.cfg.numPhysPages ∧
    decode (wordOfBytes (Memory.read holed.mem 0x3FC) 0 0 0) = .ok (.sll 0 0 0) := ⟨.inr (by decide), by decide⟩

theorem witness_SignedDivision : let s := startHiLo 0x0022001A 0x80000000 0xFFFFFFFF
    (start 0x0022001A [(1, 7)] []).getX 2 = 0 ∧
    (s.getX 1 = 0x80000000 ∧ s.getX 2 = 0xFFFFFFFF ∧ s.cfg.divOvf = .refuse) ∧
    ({ s with cfg := { Params.default with divOvf := .free } } : State).cfg.divOvf = .free ∧
    ({ s with cfg := { Params.default with divOvf := .pair 1 2 } } : State).cfg.divOvf = .pair 1 2 ∧
    (let t := startHiLo 0x0022001A 0x80000000 1; t.getX 2 ≠ 0 ∧ ¬ (t.getX 1 = 0x80000000 ∧ t.getX 2 = 0xFFFFFFFF)) := by decide

theorem witness_UnsignedDivision : (start 0x0022001B [(1, 7)] []).getX 2 = 0 ∧
    (start 0x0022001B [(1, 0x80000000), (2, 0xFFFFFFFF)] []).getX 2 ≠ 0 := by decide

/-- Byte and halfword loads at the last byte and the last halfword of a page, and at an odd address. -/
theorem witness_ByteAndHalfwordLoads : let s := start 0 [(1, 0x180)] [(0x17C, 0x8892F180)]
    (∃ u, s.translate (s.getX 1 + (0xFFFF : BitVec 16).signExtend 32) .byte false = .ok 0x17F u) ∧
    (∃ u, s.translate (s.getX 1 + (0xFFFE : BitVec 16).signExtend 32) .half false = .ok 0x17E u) ∧
    (0x8892 : BitVec 16).toNat = (Memory.read s.mem 0x17E).toNat + 256 * (Memory.read s.mem (0x17E + 1)).toNat ∧
    (s.getX 1 + (0xFFFF : BitVec 16).signExtend 32).toNat % 2 ≠ 0 :=
  ⟨⟨_, ok_okOf (by decide)⟩, ⟨_, ok_okOf (by decide)⟩, by decide, by decide⟩

theorem witness_WordLoad : let s := start 0 [(1, 0x180)] [(0x17C, 0x8892F180)]
    (∃ u, s.translate (s.getX 1 + (0xFFFC : BitVec 16).signExtend 32) .word false = .ok 0x17C u) ∧
    (0x8892F180 : Word).toNat = (Memory.read s.mem 0x17C).toNat + 2 ^ 8 * (Memory.read s.mem (0x17C + 1)).toNat +
      2 ^ 16 * (Memory.read s.mem (0x17C + 2)).toNat + 2 ^ 24 * (Memory.read s.mem (0x17C + 3)).toNat ∧
    (s.getX 1 + (0xFFFE : BitVec 16).signExtend 32).toNat % 4 ≠ 0 :=
  ⟨⟨_, ok_okOf (by decide)⟩, by decide, by decide⟩

/-- LWL and LWR at byte case 3, with the pending load to the target and to another register. -/
theorem witness_MergingLoads : let s := startPending 0 2
    (0x103 : Word) = s.getX 1 + (3 : BitVec 16).signExtend 32 ∧ (0x100 : Word).toNat = (0x103 : Word).toNat / 4 * 4 ∧
    (∃ u, s.translate 0x100 .word false = .ok 0x100 u) ∧ (0x44332211 : Word) = Memory.readValue s.mem 0x100 .word ∧
    (0x99887766 : Word) = (if s.load = 2 then s.loadValue else s.getX 2) ∧
    (0xAABBCCDD : Word) = (if (startPending 0 3).load = 2 then (startPending 0 3).loadValue else (startPending 0 3).getX 2) :=
  ⟨by decide, by decide, ⟨_, ok_okOf (by decide)⟩, by decide, by decide, by decide⟩

theorem witness_MergeTables : Memory.wf [(5, (0xAB : Byte))] ∧ ∃ m1 m2 : List Host.Cell,
    m1 = Memory.writeValue [(5, (0xAB : Byte))] ((5 + 3) / 4 * 4)
      (swlMerge .archLE (BitVec.ofNat 2 (5 + 3)) (Memory.readValue [(5, (0xAB : Byte))] ((5 + 3) / 4 * 4) .word) 0x11223344) .word ∧
    m2 = Memory.writeValue m1 (5 / 4 * 4) (swrMerge .archLE (BitVec.ofNat 2 5) (Memory.readValue m1 (5 / 4 * 4) .word) 0x11223344) .word ∧
    Memory.read m2 5 = 0x44 ∧ Memory.read m2 8 = 0x11 ∧ Memory.read m2 4 = 0 := by
  refine ⟨by decide, _, _, rfl, rfl, ?_⟩
  decide

theorem witness_PlainStores : let s := start 0 [(1, 0x180)] []
    Memory.wf s.mem ∧ (∃ u, s.translate (s.getX 1 + (0xFFFF : BitVec 16).signExtend 32) .byte true = .ok 0x17F u) ∧
    (∃ u, s.translate (s.getX 1 + (0xFFFE : BitVec 16).signExtend 32) .half true = .ok 0x17E u) ∧
    (∃ u, s.translate (s.getX 1 + (0xFFFC : BitVec 16).signExtend 32) .word true = .ok 0x17C u) ∧
    (s.getX 1 + (0xFFFF : BitVec 16).signExtend 32).toNat % 2 ≠ 0 ∧ (s.getX 1 + (0xFFFE : BitVec 16).signExtend 32).toNat % 4 ≠ 0 :=
  ⟨by decide, ⟨_, ok_okOf (by decide)⟩, ⟨_, ok_okOf (by decide)⟩, ⟨_, ok_okOf (by decide)⟩, by decide, by decide⟩

/-- SWL and SWR on a writable page and on a read-only one, where the write fails after the read. -/
theorem witness_MergingStores : let s := (startMerge 0).setX 5 0x200
    let r := { s with spaces := holed.spaces }
    Memory.wf s.mem ∧ (0x101 : Word) = s.getX 1 + (1 : BitVec 16).signExtend 32 ∧ (0x100 : Word).toNat = (0x101 : Word).toNat / 4 * 4 ∧
    (∃ u, s.translate 0x100 .word false = .ok 0x100 u ∧ ∃ v, u.translate 0x100 .word true = .ok 0x100 v) ∧
    (0x44332211 : Word) = Memory.readValue s.mem 0x100 .word ∧ (0x201 : Word) = r.getX 5 + (1 : BitVec 16).signExtend 32 ∧
    ∃ u, r.translate 0x200 .word false = .ok 0x200 u ∧ u.translate 0x200 .word true = .exc .readOnly :=
  ⟨by decide, by decide, by decide, ⟨_, ok_okOf (by decide), _, ok_okOf (by decide)⟩, by decide, by decide,
    _, ok_okOf (by decide), by decide⟩

theorem witness_FailingAccessRaises : let s := { holed with pc := 0x400 }
    s.translationReady ∧ s.translate s.pc .word false = .exc .pageFault ∧ (0x183 : Word) = s.getX 0 + (0x183 : BitVec 16).signExtend 32 ∧
    (0x180 : Word).toNat = (0x183 : Word).toNat / 4 * 4 ∧ s.translate 0x183 .byte false = .exc .pageFault ∧
    s.translate 0x183 .half false = .exc .addressError ∧ s.translate 0x183 .word false = .exc .addressError ∧
    s.translate 0x180 .word false = .exc .pageFault ∧ s.translate 0x200 .byte true = .exc .readOnly ∧
    s.translate 0x280 .half true = .exc .busError ∧ s.translate 0x400 .word true = .exc .pageFault ∧
    ∃ u, s.translate 0x200 .word false = .ok 0x200 u ∧ u.translate 0x200 .word true = .exc .readOnly :=
  ⟨.inr (by decide), by decide, by decide, by decide, by decide, by decide, by decide, by decide, by decide, by decide, by decide,
    _, ok_okOf (by decide), by decide⟩

/-- A step that completes with a load pending, and one that raises with a load pending, under both settings of EXC_DRAINS_LOAD. -/
theorem witness_steps : let s := startPending 0x00221820 2
    let r := startPending 0x0000000C 2
    let d := { r with cfg := { Params.default with excDrainsLoad := true } }
    (step s = .next (stateOf (step s)) ∧ (stateOf (step s)).trap = none ∧ s.load ≠ 0) ∧
    (step r = .next (stateOf (step r)) ∧ (stateOf (step r)).trap = some ⟨.syscall, 0⟩ ∧ r.cfg.excDrainsLoad = false) ∧
    (step d = .next (stateOf (step d)) ∧ (stateOf (step d)).trap = some ⟨.syscall, 0⟩ ∧ d.cfg.excDrainsLoad = true) :=
  ⟨⟨next_stateOf (by decide), by decide, by decide⟩, ⟨next_stateOf (by decide), by decide, by decide⟩,
    ⟨next_stateOf (by decide), by decide, by decide⟩⟩

/-- R160: `swl r2, 1(r5)` on a read-only page raises after its read: the `use` bits of the code page and of the read's page are set, no
other is. -/
theorem test_swl_readOnly : let s := { (startMerge 0xA8A20001).setX 5 0x200 with spaces := holed.spaces }
    (stateOf (step s)).trap = some ⟨.readOnly, 0x200⟩ ∧
    (List.range 8).map (fun v => ((stateOf (step s)).pte 0 v).map fun e => (e.use, e.dirty)) =
      [some (true, false), some (false, false), some (false, false), some (false, false), some (true, false), some (false, false),
        some (false, false), some (false, false)] := by decide

/-- The entries that step reads through, and one it does not. -/
theorem witness_ExceptionsArePrecise : let s := { (startMerge 0xA8A20001).setX 5 0x200 with spaces := holed.spaces }
    s.fetchedThrough (.table 0 0) ∧ s.mergeReadThrough (.table 0 4) ∧ (s.entryAt (.table 0 1)).isSome = true :=
  ⟨⟨0x10, _, identityEntry 0, ok_okOf (by decide), by decide⟩,
    ⟨0x10, 0x200, _, _, .swl 2 1 5, 2, 5, 1, 0x200, { identityEntry 4 with readOnly := true }, ok_okOf (by decide), by decide, .inl rfl,
      by decide, ok_okOf (by decide), by decide⟩, by decide⟩

theorem witness_RetryReexecutes : let s := { start 0x0000000C [] [] with cfg := { Params.default with excDrainsLoad := true } }
    (s.cfg.excDrainsLoad = false ∨ s.load = 0) ∧ step s = .next (stateOf (step s)) ∧ (stateOf (step s)).trap = some ⟨.syscall, 0⟩ :=
  ⟨by decide, next_stateOf (by decide), by decide⟩

theorem witness_ExecuteRaisesOnlyItsKinds : let s := start 0 [(1, 0x7FFFFFFF), (2, 1), (3, 0x200), (4, 0x280)] []
    let r := { s with spaces := holed.spaces }
    (exec (.add 0 1 2) s = .next (stateOf (exec (.add 0 1 2) s)) ∧ (stateOf (exec (.add 0 1 2) s)).trap = some ⟨.overflow, 0⟩) ∧
    (exec .syscall s = .next (stateOf (exec .syscall s)) ∧ (stateOf (exec .syscall s)).trap = some ⟨.syscall, 0⟩) ∧
    (exec (.lw 2 0 4) r = .next (stateOf (exec (.lw 2 0 4) r)) ∧ (stateOf (exec (.lw 2 0 4) r)).trap = some ⟨.busError, 0x280⟩) ∧
    (exec (.sb 2 0 3) r = .next (stateOf (exec (.sb 2 0 3) r)) ∧ (stateOf (exec (.sb 2 0 3) r)).trap = some ⟨.readOnly, 0x200⟩) :=
  ⟨⟨next_stateOf (by decide), by decide⟩, ⟨next_stateOf (by decide), by decide⟩, ⟨next_stateOf (by decide), by decide⟩,
    ⟨next_stateOf (by decide), by decide⟩⟩

theorem witness_frames : let s := startHiLo 0 5 7
    writesHiLo (.add 3 1 2) = false ∧ readsHiLo (.mult 1 2) = false ∧ storesMemory (.lw 3 0x100 0) = false ∧
    exec (.add 3 1 2) s = .next (stateOf (exec (.add 3 1 2) s)) ∧ exec (.mult 1 2) s = .next (stateOf (exec (.mult 1 2) s)) ∧
    exec (.lw 3 0x100 0) s = .next (stateOf (exec (.lw 3 0x100 0) s)) :=
  ⟨by decide, by decide, by decide, next_stateOf (by decide), next_stateOf (by decide), next_stateOf (by decide)⟩

theorem witness_WritesStayInWritableFrames : let s := startStore 0xA0220003
    Memory.wf s.mem ∧ step s = .next (stateOf (step s)) ∧ Memory.read (stateOf (step s)).mem 0x103 ≠ Memory.read s.mem 0x103 :=
  ⟨by decide, next_stateOf (by decide), by decide⟩

theorem witness_invariant : (start 0x00221820 [(1, 5)] []).Inv := State.inv_of_check (by decide)

/-- An addition, and the division that is refused, at the machine's reset configuration; a machine in page-table mode with no page table
installed, its `PC` misaligned; and a configuration of TLB mode. -/
theorem witness_StepAlwaysAnswers : let s := start 0x00221820 [(1, 5)] []
    let d := startHiLo 0x0022001A 0x80000000 0xFFFFFFFF
    (s.Inv ∧ s.translationReady ∧ step s = .next (stateOf (step s))) ∧
    (d.Inv ∧ d.translationReady ∧ d.cfg.divOvf = .refuse ∧ step d = .refused .divOverflow) ∧
    ¬ ({ State.reset with pc := 2 } : State).translationReady ∧ ({ Params.default with useTlb := true } : Params).useTlb = true :=
  ⟨⟨witness_invariant, .inr (by decide), next_stateOf (by decide)⟩, ⟨State.inv_of_check (by decide), .inr (by decide), rfl, rfl⟩,
    by unfold State.translationReady; decide, rfl⟩

/-- R282, U9: with no page table installed a step is refused, at a misaligned `PC` too. -/
theorem test_noPageTable : step State.reset = .refused .noPageTable ∧ step { State.reset with pc := 2 } = .refused .noPageTable := ⟨rfl, rfl⟩

theorem witness_StepKeepsInvariant : let s := start 0x00221820 [(1, 5)] []
    s.Inv ∧ step s = .next (stateOf (step s)) := ⟨witness_invariant, next_stateOf (by decide)⟩

theorem witness_AlignmentIsCheckedFirst : (0xFFFFFFFE : Word).toNat % 4 ≠ 0 ∧ (0xFFFFFFFF : Word).toNat % 2 ≠ 0 ∧
    (0xFFFFFFFC : Word).toNat % 4 = 0 ∧ (0xFFFFFFFE : Word).toNat % 2 = 0 ∧ holed.cfg.oorVpn = .pageFault ∧
    exec (.lwl 2 0x183 0) holed = .next (stateOf (exec (.lwl 2 0x183 0) holed)) ∧
    (stateOf (exec (.lwl 2 0x183 0) holed)).trap = some ⟨.pageFault, 0x180⟩ :=
  ⟨by decide, by decide, by decide, by decide, by decide, next_stateOf (by decide), by decide⟩

theorem witness_PageTableModeLookup : holed.cfg.oorVpn = .pageFault ∧
    ({ holed with cfg := { Params.default with oorVpn := .addressError } } : State).cfg.oorVpn = .addressError ∧ holed.cfg.useTlb = false ∧ holed.activeTable = some 0 ∧ (holed.space 0).isSome ∧
    (0x3FC : Word).toNat % AccessSize.word.bytes = 0 ∧ holed.pageTableSize ≤ (0x400 : Word).toNat / holed.cfg.pageSize ∧
    (0x3FC : Word).toNat / holed.cfg.pageSize < holed.pageTableSize ∧ holed.pte 0 7 = some (identityEntry 7) ∧
    (identityEntry 7).valid = true ∧ (holed.pte 0 3).map (·.valid) = some false := by decide

/-! ### Two-frame machines: pages of 8 bytes, a space of three pages, the first two resident -/

def smallParams (useTlb : Bool) : Params where
  pageSize := 8
  numPhysPages := 2
  useTlb := useTlb
  excDrainsLoad := false
  oorVpn := .pageFault
  mergeTable := .impl
  divOvf := .free
  pageSize_pos := by decide
  pageSize_mul := by decide
  numPhysPages_pos := by decide

/-- Page v in frame v, with its bits. -/
def resident (v : Nat) (use dirty : Bool) : TranslationEntry := { TranslationEntry.loaded v v with use := use, dirty := dirty }

def smallSpace (policy : LoadPolicy) (e0 e1 : TranslationEntry) : AddressSpace :=
  { AddressSpace.fresh ⟨[(20, 0x42)], ⟨0, 4, 16⟩, ⟨16, 20, 4⟩, ⟨0, 0, 0⟩⟩ 3 policy with pageTable := [e0, e1, .absent 2] }

def small (useTlb : Bool) (policy : LoadPolicy) (e0 e1 : TranslationEntry) : State :=
  { State.resetWith (smallParams useTlb) with
    mem := [(3, 0x77)], spaces := [(0, smallSpace policy e0 e1)], coremap := [some ⟨0, 0⟩, some ⟨0, 1⟩], currentSpace := some 0
    activeTable := if useTlb then none else some 0, pageTableSize := if useTlb then 0 else 3 }

/-- The TLB machine with the mapping of page 0 in slot 2. -/
def smallTlb (policy : LoadPolicy) (dirty : Bool) : State :=
  { small true policy (resident 0 false false) (resident 1 false false) with
    tlb := (Vector.replicate 4 TranslationEntry.empty).set 2 (resident 0 true dirty) }

theorem witness_TlbModeLookup : let s := smallTlb .demandSwap true
    s.cfg.useTlb = true ∧ (7 : Word).toNat % AccessSize.byte.bytes = 0 ∧ s.tlb[2].valid = true ∧
    s.tlb[2].virtualPage = (7 : Word).toNat / s.cfg.pageSize ∧
    (∀ j : Fin 4, j < 2 → ¬ (s.tlb[j].valid = true ∧ s.tlb[j].virtualPage = (7 : Word).toNat / s.cfg.pageSize)) ∧
    (∀ i : Fin 4, ¬ (s.tlb[i].valid = true ∧ s.tlb[i].virtualPage = (8 : Word).toNat / s.cfg.pageSize)) := by decide

theorem witness_TranslationOfAFoundEntry : (0x203 : Word).toNat % AccessSize.byte.bytes = 0 ∧
    (holed.lookup ((0x203 : Word).toNat / holed.cfg.pageSize) = .hit (.table 0 4) { identityEntry 4 with readOnly := true }) ∧
    (holed.lookup ((0x283 : Word).toNat / holed.cfg.pageSize) = .hit (.table 0 5) { identityEntry 5 with physicalPage := 32 }) ∧
    holed.cfg.numPhysPages ≤ 32 ∧ (holed.lookup ((0x3FF : Word).toNat / holed.cfg.pageSize) = .hit (.table 0 7) (identityEntry 7)) ∧
    7 < holed.cfg.numPhysPages := by decide

theorem witness_RegisterPort : (37 < 40 ∧ (31 : Word).toNat < 32) ∧ 40 ≤ 40 ∧ 32 ≤ (32 : Word).toNat := by decide

/-- Slots 32 and 35 of a write (R11). -/
theorem test_registerPort : (State.reset.writeRegister 32 5).andThen (fun t => .next (t.hi, t.lo)) = .next (5, 0) ∧
    (State.reset.writeRegister 35 8).andThen (fun t => .next (t.pc, t.nextPc, t.prevPc)) = .next (0, 8, 0) := ⟨rfl, rfl⟩

theorem witness_HostMemoryCalls : holed.translate 0x180 .byte false = .exc .pageFault ∧
    holed.translate 0x200 .half true = .exc .readOnly ∧ Memory.wf holed.mem ∧ (∃ u, holed.translate 0x3FC .word false = .ok 0x3FC u) ∧
    (∃ u, holed.translate 0x3FF .byte true = .ok 0x3FF u) ∧ 4095 < holed.cfg.numPhysPages * holed.cfg.pageSize :=
  ⟨by decide, by decide, by decide, ⟨_, ok_okOf (by decide)⟩, ⟨_, ok_okOf (by decide)⟩, by decide⟩

theorem witness_ContinuePastSyscall : let s := { testBase with nextPc := 0x80 }
    exec .syscall s = .next (stateOf (exec .syscall s)) := next_stateOf (by decide)

theorem inv_small : (small false .demandSwap (resident 0 true false) (resident 1 false true)).Inv ∧
    (smallTlb .demandSwap true).Inv ∧ (smallTlb .demandNoSwap true).Inv :=
  ⟨State.inv_of_check (by decide), State.inv_of_check (by decide), State.inv_of_check (by decide)⟩

/-- No frame of the machine is free. -/
theorem witness_VictimIsTheClocks : let s := small false .demandSwap (resident 0 true false) (resident 1 false true)
    s.Inv ∧ s.full := ⟨inv_small.1, by unfold State.full; decide⟩

/-- `Find` for page 2: with no frame free and a clean victim of a space with no swap store, and a dirty one of a space with a store; with a
frame free in a machine of no store; and with no frame free and a dirty victim of a space with no store, which is refused. -/
theorem witness_FindNeverFails : let clean := small false .demandNoSwap (resident 0 true false) (resident 1 false false)
    let dirty := small false .demandSwap (resident 0 true true) (resident 1 false true)
    let room := { small false .demandNoSwap (resident 0 true true) (.absent 1) with coremap := [some ⟨0, 0⟩, none] }
    let stuck := small false .demandNoSwap (resident 0 true true) (resident 1 false true)
    (∀ s ∈ [clean, dirty, room, stuck], s.Inv ∧ (∃ S, s.space 0 = some S ∧ 2 < S.numPages) ∧
      ∀ f, s.claim f ≠ some { owner := 0, vpn := 2 }) ∧
    (clean.full ∧ clean.victimSavable) ∧ (dirty.full ∧ dirty.victimSavable) ∧ ¬ room.full ∧
    (stuck.full ∧ stuck.claim stuck.clockVictim = some ⟨0, 0⟩ ∧
      stuck.frameEntry stuck.clockVictim = some (.table 0 0, resident 0 true true) ∧ ∃ S, stuck.space 0 = some S ∧ S.swap = none) := by
  have unclaimed {s : State} {c : Claim} (h : (List.range s.coremap.length).all (fun f => s.claim f != some c) = true) :
      ∀ f, s.claim f ≠ some c := by
    intro f hf
    have := List.all_eq_true.mp h f (List.mem_range.mpr (State.claim_lt hf))
    simp [hf] at this
  have savable {s : State} (h : ((s.claim s.clockVictim).all fun c => (s.frameEntry s.clockVictim).all fun p =>
      (s.space c.owner).all fun S => !p.2.dirty || (p.2.valid && S.swap.isSome)) = true) : s.victimSavable := by
    intro c r e S hc he hd hS
    simp only [hc, he, hS, Option.all_some, hd, Bool.not_true, Bool.false_or, Bool.and_eq_true] at h
    exact ⟨h.1, Option.isSome_iff_ne_none.mp h.2⟩
  refine ⟨?_, ⟨by unfold State.full; decide, savable (by decide)⟩, ⟨by unfold State.full; decide, savable (by decide)⟩,
    by unfold State.full; decide, by unfold State.full; decide, by decide, by decide, _, rfl, rfl⟩
  simp only [List.mem_cons, List.not_mem_nil, or_false, forall_eq_or_imp, forall_eq]
  exact ⟨⟨State.inv_of_check (by decide), ⟨_, rfl, by decide⟩, unclaimed (by decide)⟩,
    ⟨State.inv_of_check (by decide), ⟨_, rfl, by decide⟩, unclaimed (by decide)⟩,
    ⟨State.inv_of_check (by decide), ⟨_, rfl, by decide⟩, unclaimed (by decide)⟩,
    ⟨State.inv_of_check (by decide), ⟨_, rfl, by decide⟩, unclaimed (by decide)⟩⟩

/-- A dirty page with a live TLB copy, with a swap store and without. -/
theorem witness_EvictionEffects : let s := smallTlb .demandSwap true
    let r := smallTlb .demandNoSwap true
    (s.Inv ∧ s.claim 0 = some ⟨0, 0⟩ ∧ s.frameEntry 0 = some (.tlb 2, resident 0 true true) ∧ (resident 0 true true).valid = true ∧
      ∃ S, s.space 0 = some S ∧ S.swap ≠ none) ∧
    (r.Inv ∧ r.claim 0 = some ⟨0, 0⟩ ∧ r.frameEntry 0 = some (.tlb 2, resident 0 true true) ∧ ∃ S, r.space 0 = some S ∧ S.swap = none) :=
  ⟨⟨inv_small.2.1, by decide, by decide, by decide, _, rfl, by decide⟩, inv_small.2.2, by decide, by decide, _, rfl, by decide⟩

theorem witness_SwapRoundTrip : let s := small false .demandSwap (resident 0 true false) (resident 1 false true)
    let t := stateOf (s.saveToSwap 0 1)
    s.Inv ∧ s.pte 0 1 = some (resident 1 false true) ∧ s.saveToSwap 0 1 = .next t ∧
    t.loadFromSwap 0 1 0 = .next (stateOf (t.loadFromSwap 0 1 0)) :=
  ⟨inv_small.1, by decide, next_stateOf (by decide), next_stateOf (by decide)⟩

/-- The last page straddles the code segment's end and the initialized data. -/
theorem witness_LoadSegmentFillsThePage : let s := small false .demandSwap (resident 0 true false) (resident 1 false true)
    s.Inv ∧ (∃ S, s.space 0 = some S) ∧ s.loadSegment 0 17 = .next (stateOf (s.loadSegment 0 17)) :=
  ⟨inv_small.1, ⟨_, rfl⟩, next_stateOf (by decide)⟩

/-- The image byte at 16 is the executable's byte at 20 (R217), and the page that was evicted has become invalid. -/
theorem test_loadSegment : let t := stateOf ((small false .demandSwap (resident 0 true false) (resident 1 false true)).loadSegment 0 17)
    t.pte 0 2 = some ⟨2, 0, true, false, false, false⟩ ∧ Memory.read t.mem 0 = 0x42 ∧ (t.pte 0 0).map (·.valid) = some false := by decide

theorem witness_DemandPagedConstruction : LoadPolicy.demandSwap ≠ .eager ∧ State.reset.space 0 = none := by decide

theorem witness_ContextSwitch : let s := smallTlb .demandSwap true
    let r := small false .demandSwap (resident 0 true false) (resident 1 false true)
    (s.Inv ∧ s.cfg.useTlb = true ∧ s.currentSpace = some 0 ∧ s.tlb[2].valid = true) ∧ r.cfg.useTlb = false ∧ ∃ S, r.space 0 = some S :=
  ⟨⟨inv_small.2.1, by decide, by decide, by decide⟩, by decide, _, rfl⟩

/-- The fault on page 2 resolved in page-table mode, and the fault on page 1 by a refill of slot 2 in TLB mode. -/
theorem witness_PageFaultIsResolved : let s := small false .demandSwap (resident 0 true false) (resident 1 false true)
    let r := smallTlb .demandSwap true
    (s.Inv ∧ s.activeTable = s.currentSpace ∧ ∃ t, s.onPageFault 23 0 = .next (.retry, t)) ∧
    (r.Inv ∧ r.cfg.useTlb = true ∧ ∃ t, r.onPageFault 8 2 = .next (.retry, t)) := by
  have retried {r : Result (Continuation × State)} (h : (match r with | .next (.retry, _) => true | _ => false) = true) :
      ∃ t, r = .next (.retry, t) := by
    split at h
    · exact ⟨_, rfl⟩
    · cases h
  exact ⟨⟨inv_small.1, by decide, retried (by decide)⟩, inv_small.2.1, by decide, retried (by decide)⟩

theorem witness_DestroyFreesFrames : let s := smallTlb .demandSwap true
    s.destroySpace 0 = .next (stateOf (s.destroySpace 0)) ∧ s.cfg.useTlb = true ∧ s.currentSpace = some 0 :=
  ⟨next_stateOf (by decide), by decide, by decide⟩

/-- An operation of each kind that keeps the rules: the resolution of a fault, a refill and a launch. -/
theorem witness_HostOperationsKeepInvariant : let s := smallTlb .demandSwap true
    s.Inv ∧ HostOp.KeepsRules s.cfg.useTlb (.onPageFault 8 2) ∧ HostOp.KeepsRules s.cfg.useTlb (.refillTlb 1 1) ∧
    HostOp.KeepsRules s.cfg.useTlb (.launch 1 testImage 1 .demandSwap) ∧
    hostStep (.onPageFault 8 2) s = .next (stateOf (hostStep (.onPageFault 8 2) s)) ∧
    hostStep (.refillTlb 1 1) s = .next (stateOf (hostStep (.refillTlb 1 1) s)) ∧
    hostStep .saveState s = .next (stateOf (hostStep .saveState s)) ∧
    hostStep (.launch 1 testImage 1 .demandSwap) (stateOf (hostStep .saveState s)) =
      .next (stateOf (hostStep (.launch 1 testImage 1 .demandSwap) (stateOf (hostStep .saveState s)))) :=
  ⟨inv_small.2.1, trivial, rfl, ⟨List.Pairwise.nil, by simp [testImage]⟩, next_stateOf (by decide), next_stateOf (by decide), next_stateOf (by decide),
    next_stateOf (by decide)⟩

/-! ### The coremap's vectors of 95_test_vectors.md B9, on four frames -/

/-- Four frames, all of space 0, with the bits of the row. -/
def clockState (last : Nat) (bits : List (Bool × Bool)) : State :=
  let cfg : Params := { smallParams false with numPhysPages := 4, pageSize_pos := by decide, pageSize_mul := by decide, numPhysPages_pos := by decide }
  { State.resetWith cfg with
    coremap := (List.range 4).map fun f => some ⟨0, f⟩, lastVictim := last, currentSpace := some 0, activeTable := some 0, pageTableSize := 5
    spaces := [(0, { AddressSpace.fresh testImage 5 .demandSwap with
      pageTable := ((List.range 4).zip bits).map (fun p => resident p.1 p.2.1 p.2.2) ++ [.absent 4] })] }

/-- The frame `Find` answers, `lastVictim`, the `use` bits and which pages are valid after it. -/
def found (s : State) : Option (Nat × Nat × List Bool × List Bool) :=
  match s.find 0 4 with
  | .next (f, t) => (t.space 0).map fun S => (f, t.lastVictim, S.pageTable.map (·.use), S.pageTable.map (·.valid))
  | .fault _ => none
  | .refused _ => none

theorem test_clock_V2 : found (clockState 3 [(true, false), (false, true), (false, false), (true, true)]) =
    some (2, 2, [false, false, false, true, false], [true, true, false, true, false]) := by decide
theorem test_clock_V3 : found (clockState 2 [(true, false), (true, true), (true, false), (true, true)]) =
    some (0, 0, [false, false, false, false, false], [false, true, true, true, false]) := by decide
theorem test_clock_V4 : found (clockState 1 [(true, true), (false, true), (true, true), (false, true)]) =
    some (2, 2, [false, false, false, false, false], [true, true, false, true, false]) := by decide
theorem test_clock_V5 : found (clockState 3 [(false, true), (false, true), (false, true), (false, false)]) =
    some (3, 3, [false, false, false, false, false], [true, true, true, false, false]) := by decide

end Sys2Proof.Machine
end

section
/-! SUPPORT. What an instruction and a step do to the slots `PREV_PC`, `BAD_VADDR`, `HI` and `LO` (10_state.md R14, R17, R19), and that
their outcome does not depend on a slot they do not read: two states that agree but for such slots are followed, operation by operation,
to outcomes that agree but for them again. -/
namespace Sys2Proof.Machine

/-! ## What is written -/

/-- The state an instruction acts on after its data read differs in translation entries only. -/
theorem ReadFrom.eq_entries {i : Instr} {s u : State} (h : ReadFrom i s u) : u = { s with tlb := u.tlb, spaces := u.spaces } := by
  rcases h with rfl | ⟨-, va, size, p, hu⟩
  · rfl
  · exact State.translate_eq hu

/-- Only the six instructions of R14 write `HI` or `LO`. -/
theorem exec_sameHiLo {i : Instr} {s t : State} (hi : writesHiLo i = false) (h : exec i s = .next t) : SameHiLo s t := by
  cases exec_effect h with
  | raise u hu _ e a _ ht =>
    rw [ht, hu.eq_entries]
    exact ⟨rfl, rfl⟩
  | complete u _ rd v hi' lo' p q w hhl ht =>
    obtain ⟨rfl, rfl⟩ := hhl hi
    rw [ht]
    exact ⟨rfl, rfl⟩
  | store u hu _ va v size p w hw ht =>
    rw [ht, State.translate_eq hw, hu.eq_entries]
    exact ⟨rfl, rfl⟩

/-- How `PREV_PC` and `BAD_VADDR` stand after an instruction or a step (R17, R19). -/
inductive LeavesAddresses (s t : State) : Prop where
  | completed (result : t.trap = none) (prevPc : t.prevPc = s.pc) (badVAddr : t.badVAddr = s.badVAddr)
  | raised (x : Trap) (result : t.trap = some x) (prevPc : t.prevPc = s.prevPc) (badVAddr : t.badVAddr = x.badVAddr)

/-- The entries a read before it went through do not matter to the addresses. -/
theorem LeavesAddresses.of_entries {s u t : State} (hu : u = { s with tlb := u.tlb, spaces := u.spaces }) (h : LeavesAddresses u t) :
    LeavesAddresses s t := by
  have hpc : u.pc = s.pc := by rw [hu]
  have hprev : u.prevPc = s.prevPc := by rw [hu]
  have hbad : u.badVAddr = s.badVAddr := by rw [hu]
  cases h with
  | completed result prevPc badVAddr => exact .completed result (prevPc.trans hpc) (badVAddr.trans hbad)
  | raised x result prevPc badVAddr => exact .raised x result (prevPc.trans hprev) badVAddr

theorem LeavesAddresses.raise (s : State) (e : ExcKind) (a : Word) : LeavesAddresses s (s.raise e a) := .raised _ rfl rfl rfl

theorem exec_leavesAddresses {i : Instr} {s t : State} (h : exec i s = .next t) : LeavesAddresses s t := by
  cases exec_effect h with
  | raise u hu _ e a _ ht => exact .of_entries hu.eq_entries (ht ▸ .raise u e a)
  | complete u hu rd v hi lo p q w _ ht => exact .of_entries hu.eq_entries (ht ▸ .completed rfl rfl rfl)
  | store u hu _ va v size p w hw ht =>
    have hstored : LeavesAddresses w t := ht ▸ .completed rfl rfl rfl
    exact .of_entries hu.eq_entries (.of_entries (State.translate_eq hw) hstored)

theorem step_leavesAddresses {s t : State} (h : step s = .next t) : LeavesAddresses s t := by
  obtain ⟨e, -, rfl⟩ | ⟨p, u, hu, ⟨e, -, rfl⟩ | ⟨i, -, hi⟩⟩ := step_next h
  · exact .raise s e s.pc
  · exact .of_entries (State.translate_eq hu) (.raise u .illegalInstr 0)
  · exact .of_entries (State.translate_eq hu) (exec_leavesAddresses hi)

/-! ## What is read: states that agree but for some slots -/

/-- The two groups of slots whose reads are in question. -/
inductive SlotGroup where
  | hiLo
  | addresses

/-- The states agree but for the slots of the group. -/
inductive AgreesBut : SlotGroup → State → State → Prop where
  | hiLo (s : State) (hi lo : Word) : AgreesBut .hiLo s { s with hi := hi, lo := lo }
  | addresses (s : State) (prevPc badVAddr : Word) :
    AgreesBut .addresses s { s with prevPc := prevPc, badVAddr := badVAddr }

/-- Two accesses end alike: with one value and states that agree, or with one exception or refusal. -/
inductive AccessAlike {α : Type} (k : SlotGroup) : Access α → Access α → Prop where
  | ok (v : α) {s t : State} (h : AgreesBut k s t) : AccessAlike k (.ok v s) (.ok v t)
  | exc (e : ExcKind) : AccessAlike k (.exc e) (.exc e)
  | refused (r : Refusal) : AccessAlike k (.refused r) (.refused r)

/-- Two runs of an instruction or a step end alike: in states that agree, or with one refusal. -/
inductive EndsAlike (k : SlotGroup) : Result State → Result State → Prop where
  | next {s t : State} (h : AgreesBut k s t) : EndsAlike k (.next s) (.next t)
  | refused (r : Refusal) : EndsAlike k (.refused r) (.refused r)

/-- A run that ends like one with a next state has a next state that agrees with it. -/
theorem EndsAlike.next_of_eq {k : SlotGroup} {r r' : Result State} {t : State} (h : EndsAlike k r r') (hr : r = .next t) :
    ∃ u, r' = .next u ∧ AgreesBut k t u := by
  cases h with
  | next h =>
    injection hr with hr
    exact ⟨_, rfl, hr ▸ h⟩
  | refused q => cases hr

namespace AgreesBut

variable {k : SlotGroup} {s t : State}

theorem getX (h : AgreesBut k s t) (r : RegNum) : t.getX r = s.getX r := by cases h <;> rfl
theorem pc (h : AgreesBut k s t) : t.pc = s.pc := by cases h <;> rfl
theorem nextPc (h : AgreesBut k s t) : t.nextPc = s.nextPc := by cases h <;> rfl
theorem load (h : AgreesBut k s t) : t.load = s.load := by cases h <;> rfl
theorem loadValue (h : AgreesBut k s t) : t.loadValue = s.loadValue := by cases h <;> rfl
theorem mem (h : AgreesBut k s t) : t.mem = s.mem := by cases h <;> rfl
theorem cfg (h : AgreesBut k s t) : t.cfg = s.cfg := by cases h <;> rfl
theorem lookup (h : AgreesBut k s t) (vpn : Nat) : t.lookup vpn = s.lookup vpn := by cases h <;> rfl
theorem noTableInstalled (h : AgreesBut k s t) : t.noTableInstalled = s.noTableInstalled := by cases h <;> rfl
theorem hi (h : AgreesBut .addresses s t) : t.hi = s.hi := by cases h; rfl
theorem lo (h : AgreesBut .addresses s t) : t.lo = s.lo := by cases h; rfl

theorem setX (h : AgreesBut k s t) (r : RegNum) (v : Word) : AgreesBut k (s.setX r v) (t.setX r v) := by
  cases h with
  | hiLo _ hi lo => exact .hiLo _ hi lo
  | addresses _ p b => exact .addresses _ p b

/-- The pair written must be the same only where the states agree on `HI` and `LO`. -/
theorem setHiLo (h : AgreesBut k s t) {a b a' b' : Word} (hab : k = .addresses → a' = a ∧ b' = b) :
    AgreesBut k (s.setHiLo a b) (t.setHiLo a' b') := by
  cases h with
  | hiLo _ hi lo => exact .hiLo _ a' b'
  | addresses _ p q =>
    obtain ⟨rfl, rfl⟩ := hab rfl
    exact .addresses _ p q

theorem setMem (h : AgreesBut k s t) (m : List Host.Cell) : AgreesBut k { s with mem := m } { t with mem := m } := by
  cases h with
  | hiLo _ hi lo => exact .hiLo _ hi lo
  | addresses _ p b => exact .addresses _ p b

theorem touch (h : AgreesBut k s t) (r : EntryRef) (w : Bool) : AgreesBut k (s.touch r w) (t.touch r w) := by
  cases h with
  | hiLo _ hi lo => cases r <;> exact .hiLo _ hi lo
  | addresses _ p b => cases r <;> exact .addresses _ p b

theorem raise (h : AgreesBut k s t) (e : ExcKind) (a : Word) : AgreesBut k (s.raise e a) (t.raise e a) := by
  cases h with
  | hiLo _ hi lo => exact .hiLo _ hi lo
  | addresses _ p b => exact .addresses _ p a

theorem finish (h : AgreesBut k s t) (p : Word) (q : RegNum) (v : Word) : AgreesBut k (s.finish p q v) (t.finish p q v) := by
  cases h with
  | hiLo _ hi lo => exact .hiLo _ hi lo
  | addresses _ _ b => exact .addresses _ s.pc b

theorem done (h : AgreesBut k s t) : AgreesBut k s.done t.done := by
  rw [State.done_eq, State.done_eq, h.nextPc]
  exact h.finish _ 0 0

/-! ### Accesses -/

theorem translate (h : AgreesBut k s t) (va : Word) (size : AccessSize) (w : Bool) :
    AccessAlike k (s.translate va size w) (t.translate va size w) := by
  unfold State.translate State.vpnOf State.offsetOf
  rw [h.cfg, h.lookup]
  split
  · cases s.lookup (va.toNat / s.cfg.pageSize) with
    | refused r => exact .refused r
    | miss e => exact .exc e
    | hit r e =>
      dsimp only
      split
      · exact .exc .readOnly
      · split
        · exact .exc .busError
        · exact .ok _ (h.touch r w)
  · exact .exc .addressError

theorem memRead (h : AgreesBut k s t) (va : Word) (size : AccessSize) : AccessAlike k (s.memRead va size) (t.memRead va size) := by
  unfold State.memRead
  have hu := h.translate va size false
  generalize s.translate va size false = a, t.translate va size false = b at hu ⊢
  cases hu with
  | ok p hu =>
    dsimp only
    rw [hu.mem]
    exact .ok _ hu
  | exc e => exact .exc e
  | refused r => exact .refused r

theorem memWrite (h : AgreesBut k s t) (va : Word) (size : AccessSize) (v : Word) :
    AccessAlike k (s.memWrite va size v) (t.memWrite va size v) := by
  unfold State.memWrite
  have hu := h.translate va size true
  generalize s.translate va size true = a, t.translate va size true = b at hu ⊢
  cases hu with
  | ok p hu =>
    dsimp only
    rw [hu.mem]
    exact .ok () (hu.setMem _)
  | exc e => exact .exc e
  | refused r => exact .refused r

theorem fetch (h : AgreesBut k s t) : AccessAlike k s.fetch t.fetch := by
  unfold State.fetch
  rw [h.noTableInstalled, h.pc]
  split
  · exact .refused .noPageTable
  · exact h.memRead s.pc .word

theorem reading (h : AgreesBut k s t) (va : Word) (size : AccessSize) {c c' : Word → State → Result State}
    (hc : ∀ v u u', AgreesBut k u u' → EndsAlike k (c v u) (c' v u')) : EndsAlike k (s.reading va size c) (t.reading va size c') := by
  unfold State.reading
  have hu := h.memRead va size
  generalize s.memRead va size = a, t.memRead va size = b at hu ⊢
  cases hu with
  | ok v hu => exact hc v _ _ hu
  | exc e => exact .next (h.raise e va)
  | refused r => exact .refused r

theorem storing (h : AgreesBut k s t) (va : Word) (size : AccessSize) (v : Word) :
    EndsAlike k (s.storing va size v) (t.storing va size v) := by
  unfold State.storing
  have hu := h.memWrite va size v
  generalize s.memWrite va size v = a, t.memWrite va size v = b at hu ⊢
  cases hu with
  | ok _ hu => exact .next hu.done
  | exc e => exact .next (h.raise e va)
  | refused r => exact .refused r

/-! ### The ends of instructions -/

theorem writeResult (h : AgreesBut k s t) (rd : RegNum) {v v' : Word} (hv : v' = v) :
    EndsAlike k (s.writeResult rd v) (t.writeResult rd v') := by
  subst hv
  exact .next (h.setX rd v').done

theorem writeUnlessOverflow (h : AgreesBut k s t) (rd : RegNum) {c c' : Bool} {v v' : Word} (hc : c' = c) (hv : v' = v) :
    EndsAlike k (s.writeUnlessOverflow rd c v) (t.writeUnlessOverflow rd c' v') := by
  subst hc
  unfold State.writeUnlessOverflow
  split
  · exact .next (h.raise .overflow 0)
  · exact h.writeResult rd hv

theorem branchIf (h : AgreesBut k s t) {c c' : Bool} (imm : BitVec 16) (hc : c' = c) :
    EndsAlike k (.next (s.branchIf c imm)) (.next (t.branchIf c' imm)) := by
  rw [State.branchIf_eq, State.branchIf_eq, h.nextPc, hc]
  exact .next (h.finish _ 0 0)

theorem jumpTo (h : AgreesBut k s t) {p p' : Word} (hp : p' = p) : EndsAlike k (.next (s.jumpTo p)) (.next (t.jumpTo p')) := by
  subst hp
  exact .next (h.finish p' 0 0)

/-- The link write of a jump or branch (R177). -/
theorem link (h : AgreesBut k s t) (rd : RegNum) : AgreesBut k (s.setX rd (linkValue s.nextPc)) (t.setX rd (linkValue t.nextPc)) := by
  rw [h.nextPc]
  exact h.setX rd _

theorem doneHiLo (h : AgreesBut k s t) (hi lo : Word) : EndsAlike k (.next (s.setHiLo hi lo).done) (.next (t.setHiLo hi lo).done) :=
  .next (h.setHiLo fun _ => ⟨rfl, rfl⟩).done

theorem divideOverflow (h : AgreesBut k s t) (a b : Word) : EndsAlike k (s.divideOverflow a b) (t.divideOverflow a b) := by
  unfold State.divideOverflow
  rw [h.cfg]
  split
  · exact h.doneHiLo _ _
  · exact h.doneHiLo _ _
  · exact .refused .divOverflow

theorem ea (h : AgreesBut k s t) (rs : RegNum) (imm : BitVec 16) : t.ea rs imm = s.ea rs imm := by
  rw [State.ea, State.ea, h.getX]

theorem mergeBase (h : AgreesBut k s t) (rt : RegNum) : t.mergeBase rt = s.mergeBase rt := by
  rw [State.mergeBase, State.mergeBase, h.load, h.loadValue, h.getX]

theorem loadDelayed (h : AgreesBut k s t) (rt : RegNum) (v : Word) : AgreesBut k (s.loadDelayed rt v) (t.loadDelayed rt v) := by
  rw [State.loadDelayed_eq, State.loadDelayed_eq, h.nextPc]
  exact h.finish _ rt v

theorem loadInto (h : AgreesBut k s t) (rt rs : RegNum) (imm : BitVec 16) (size : AccessSize) (f : Word → Word) :
    EndsAlike k (s.loadInto rt imm rs size f) (t.loadInto rt imm rs size f) := by
  unfold State.loadInto
  rw [h.ea]
  exact h.reading _ size fun v _ _ hu => .next (hu.loadDelayed rt (f v))

theorem loadMerged (h : AgreesBut k s t) (rt rs : RegNum) (imm : BitVec 16) (m : MergeTable → BitVec 2 → Word → Word → Word) :
    EndsAlike k (s.loadMerged rt imm rs m) (t.loadMerged rt imm rs m) := by
  unfold State.loadMerged
  rw [h.ea, h.cfg, h.mergeBase]
  exact h.reading _ .word fun _ _ _ hu => .next (hu.loadDelayed rt _)

theorem storeMerged (h : AgreesBut k s t) (rt rs : RegNum) (imm : BitVec 16) (m : MergeTable → BitVec 2 → Word → Word → Word) :
    EndsAlike k (s.storeMerged rt imm rs m) (t.storeMerged rt imm rs m) := by
  unfold State.storeMerged
  rw [h.ea, h.cfg, h.getX]
  exact h.reading _ .word fun _ _ _ hu => hu.storing _ .word _

/-- SB, SH and SW store a register at base plus offset. -/
theorem storeFrom (h : AgreesBut k s t) (rt rs : RegNum) (imm : BitVec 16) (size : AccessSize) :
    EndsAlike k (s.storing (s.ea rs imm) size (s.getX rt)) (t.storing (t.ea rs imm) size (t.getX rt)) := by
  rw [h.ea, h.getX]
  exact h.storing _ size _

/-- MULT and MULTU write a product of register values. -/
theorem doneProduct (h : AgreesBut k s t) {p p' : BitVec 64} (hp : p' = p) :
    EndsAlike k (.next (s.setProduct p).done) (.next (t.setProduct p').done) :=
  hp ▸ h.doneHiLo _ _

theorem div (h : AgreesBut k s t) (rs rt : RegNum) : EndsAlike k (execDiv rs rt s) (execDiv rs rt t) := by
  unfold execDiv
  rw [h.getX, h.getX]
  split
  · exact h.doneHiLo 0 0
  · split
    · exact h.divideOverflow _ _
    · exact h.doneHiLo _ _

theorem divu (h : AgreesBut k s t) (rs rt : RegNum) : EndsAlike k (execDivu rs rt s) (execDivu rs rt t) := by
  unfold execDivu
  rw [h.getX, h.getX]
  split
  · exact h.doneHiLo 0 0
  · exact h.doneHiLo _ _

end AgreesBut


/-- The end of an instruction does not depend on the slots of a group it does not read (R14, R17, R19): no instruction reads `PREV_PC` or
`BAD_VADDR`, and only MFHI and MFLO read `HI` or `LO`. -/
theorem exec_endsAlike {k : SlotGroup} {i : Instr} {s t : State} (h : AgreesBut k s t) (hi : k = .hiLo → readsHiLo i = false) :
    EndsAlike k (exec i s) (exec i t) := by
  cases i
  case add | sub | addi => exact h.writeUnlessOverflow _ (by simp only [h.getX]) (by simp only [h.getX])
  case mfhi rd =>
    cases k with
    | hiLo => cases hi rfl
    | addresses => exact h.writeResult rd h.hi
  case mflo rd =>
    cases k with
    | hiLo => cases hi rfl
    | addresses => exact h.writeResult rd h.lo
  case mthi rs => exact .next (h.setHiLo fun hk => by subst hk; exact ⟨h.getX rs, h.lo⟩).done
  case mtlo rs => exact .next (h.setHiLo fun hk => by subst hk; exact ⟨h.hi, h.getX rs⟩).done
  case mult | multu => exact h.doneProduct (by simp only [h.getX])
  case div rs rt => exact h.div rs rt
  case divu rs rt => exact h.divu rs rt
  case lb rt imm rs | lbu rt imm rs | lh rt imm rs | lhu rt imm rs | lw rt imm rs => exact h.loadInto rt rs imm _ _
  case lwl rt imm rs | lwr rt imm rs => exact h.loadMerged rt rs imm _
  case sb rt imm rs | sh rt imm rs | sw rt imm rs => exact h.storeFrom rt rs imm _
  case swl rt imm rs | swr rt imm rs => exact h.storeMerged rt rs imm _
  case beq | bne | blez | bgtz | bltz | bgez => exact h.branchIf _ (by simp only [h.getX])
  case bltzal | bgezal => exact (h.link 31).branchIf _ (by simp only [(h.link 31).getX])
  case j => exact h.jumpTo (by rw [h.nextPc])
  case jal => exact (h.link 31).jumpTo (by rw [h.nextPc])
  case jr rs => exact h.jumpTo (h.getX rs)
  case jalr rd rs => exact (h.link rd).jumpTo ((h.link rd).getX rs)
  case syscall => exact .next (h.raise .syscall 0)
  all_goals exact h.writeResult _ (by simp only [h.getX])

/-- No step reads `PREV_PC` or `BAD_VADDR` (R17, R19). -/
theorem step_endsAlike {s t : State} (h : AgreesBut .addresses s t) : EndsAlike .addresses (step s) (step t) := by
  unfold step
  have hu := h.fetch
  generalize s.fetch = a, t.fetch = b at hu ⊢
  cases hu with
  | ok w hu =>
    dsimp only
    cases decode w with
    | ok i => exact exec_endsAlike hu fun hk => nomatch hk
    | error e => exact .next (hu.raise .illegalInstr 0)
  | exc e =>
    dsimp only
    rw [h.pc]
    exact .next (h.raise e s.pc)
  | refused r => exact .refused r

/-- MULT, MULTU, DIV and DIVU overwrite both `HI` and `LO` with values they compute from general registers (R141 to R144). -/
theorem exec_overwrites_hiLo (s : State) (rs rt : RegNum) (hi lo : Word) :
    ∀ i ∈ [Instr.mult rs rt, .multu rs rt, .div rs rt, .divu rs rt], exec i { s with hi := hi, lo := lo } = exec i s := by
  simp only [List.forall_mem_cons]
  exact ⟨rfl, rfl, rfl, rfl, nofun⟩

/-! ## The statements -/

/-- Settles O32: what is written by the cases of a step's end, what is not read by running the step beside one from a state that agrees but
for the two slots. -/
theorem prevPcAndBadVAddr : Obligations.PrevPcAndBadVAddr := by
  unfold Obligations.PrevPcAndBadVAddr
  intro s t h
  refine ⟨fun ht => ?_, fun x ht => ?_, fun p b => ?_⟩
  · cases step_leavesAddresses h with
    | completed _ prevPc badVAddr => exact ⟨prevPc, badVAddr⟩
    | raised y hy _ _ => rw [ht] at hy; cases hy
  · cases step_leavesAddresses h with
    | completed hn _ _ => rw [ht] at hn; cases hn
    | raised y hy prevPc badVAddr =>
      obtain rfl : x = y := Option.some.inj (ht.symm.trans hy)
      exact ⟨prevPc, badVAddr⟩
  · obtain ⟨u, hu, hagree⟩ := (step_endsAlike (.addresses s p b)).next_of_eq h
    cases hagree
    exact ⟨_, hu, rfl⟩

/-- Settles O35: what is written by the effect of an instruction, what is not read by running it beside itself from a state that agrees but
for `HI` and `LO`. -/
theorem hiLoAreTouchedByTheirInstructionsOnly : Obligations.HiLoAreTouchedByTheirInstructionsOnly := by
  unfold Obligations.HiLoAreTouchedByTheirInstructionsOnly
  refine ⟨fun i s t => exec_sameHiLo, fun i s t hi lo hr h => ?_, fun s t rs rt hi lo i hmem h => ?_⟩
  · obtain ⟨u, hu, hagree⟩ := (exec_endsAlike (.hiLo s hi lo) fun _ => hr).next_of_eq h
    cases hagree
    exact ⟨_, hu, rfl⟩
  · rw [exec_overwrites_hiLo s rs rt hi lo i hmem, h]

end Sys2Proof.Machine
end

section
/-! SUPPORT. What a translation answers by its checks in their order (20_memory.md R45 to R52): the alignment, the entry found, its
permission and its frame; what a merging access can raise; and the outcomes of the fetch (R56). -/
namespace Sys2Proof.Machine

/-! ## The entry found -/

theorem AccessSize.aligned_iff (size : AccessSize) (va : Word) : size.aligned va = true ↔ va.toNat % size.bytes = 0 := beq_iff_eq

section Found

variable {s : State} {va : Word} {size : AccessSize} {w : Bool} {r : EntryRef} {e : TranslationEntry}
  (ha : va.toNat % size.bytes = 0) (hl : s.lookup (va.toNat / s.cfg.pageSize) = .hit r e)

include ha hl

/-- With the entry found, the checks that are left are the entry's: permission, then frame (R49, R50). -/
theorem State.translate_of_hit : s.translate va size w =
    if w && e.readOnly then .exc .readOnly
    else if s.cfg.numPhysPages ≤ e.physicalPage then .exc .busError
    else .ok (e.physicalPage * s.cfg.pageSize + va.toNat % s.cfg.pageSize) (s.touch r w) := by
  rw [State.translate, if_pos ((size.aligned_iff va).mpr ha), State.vpnOf, hl]
  rfl

theorem State.translate_hit_readOnly (hw : w = true) (he : e.readOnly = true) : s.translate va size w = .exc .readOnly := by
  rw [State.translate_of_hit ha hl, if_pos (by simp [hw, he])]

theorem State.translate_hit_noFrame (hw : w = false ∨ e.readOnly = false) (hf : s.cfg.numPhysPages ≤ e.physicalPage) :
    s.translate va size w = .exc .busError := by
  rw [State.translate_of_hit ha hl, if_neg (by rwa [Bool.not_eq_true, Bool.and_eq_false_iff]), if_pos hf]

theorem State.translate_hit_ok (hw : w = false ∨ e.readOnly = false) (hf : e.physicalPage < s.cfg.numPhysPages) :
    s.translate va size w = .ok (e.physicalPage * s.cfg.pageSize + va.toNat % s.cfg.pageSize) (s.touch r w) := by
  rw [State.translate_of_hit ha hl, if_neg (by rwa [Bool.not_eq_true, Bool.and_eq_false_iff]), if_neg (Nat.not_le.mpr hf)]

end Found

/-- An access sets the bits of the entry it went through (R51). -/
theorem State.entryAt_touch_self {s : State} {r : EntryRef} {e : TranslationEntry} (he : s.entryAt r = some e) (w : Bool) :
    (s.touch r w).entryAt r = some { e with use := true, dirty := e.dirty || w } := by
  rw [State.touch, State.entryAt_modifyEntry, if_pos rfl, he, Option.map_some]

/-- An access changes no other entry (R51). -/
theorem State.entryAt_touch_of_ne {r q : EntryRef} (hq : q ≠ r) (s : State) (w : Bool) : (s.touch r w).entryAt q = s.entryAt q := by
  rw [State.touch, State.entryAt_modifyEntry, if_neg hq.symm]

/-! ## The alignment check -/

/-- An aligned access is no ADDRESS_ERROR where a vpn out of range is a PAGE_FAULT (R45, R47). -/
theorem State.translate_ne_addressError {s : State} (hc : s.cfg.oorVpn = .pageFault) {va : Word} {size : AccessSize}
    (ha : size.aligned va = true) (w : Bool) : s.translate va size w ≠ .exc .addressError := by
  intro h
  obtain ⟨-, hn⟩ | ⟨-, hn⟩ | hn | ⟨hn, -⟩ | hn := State.translate_exc h
  · rw [ha] at hn; cases hn
  · rw [hc] at hn; cases hn
  all_goals cases hn

/-- A data read that ends with a raise: the read failed with the kind raised, or the raise is of what follows it. -/
theorem State.reading_trap {s t : State} {va : Word} {size : AccessSize} {k : Word → State → Result State} {x : Trap}
    (h : s.reading va size k = .next t) (ht : t.trap = some x) :
    s.translate va size false = .exc x.kind ∨
    ∃ p u, s.translate va size false = .ok p u ∧ k (Memory.readValue s.mem p size) u = .next t := by
  cases hr : s.translate va size false with
  | ok p u => exact .inr ⟨p, u, rfl, by rwa [State.reading_ok k hr] at h⟩
  | exc e =>
    rw [State.reading_exc k hr] at h
    injection h with h
    subst h
    injection ht with ht
    subst ht
    exact .inl rfl
  | refused r => rw [State.reading_refused k hr] at h; cases h

/-- A store raises the kind its translation failed with (R55). -/
theorem State.storing_trap {s t : State} {va v : Word} {size : AccessSize} {x : Trap} (h : s.storing va size v = .next t)
    (ht : t.trap = some x) : s.translate va size true = .exc x.kind := by
  cases hr : s.translate va size true with
  | ok p u => rw [State.storing_ok hr] at h; injection h with h; subst h; cases ht
  | exc e =>
    rw [State.storing_exc hr] at h
    injection h with h
    subst h
    injection ht with ht
    subst ht
    rfl
  | refused r => rw [State.storing_refused hr] at h; cases h

section Merging

variable {s t : State} {rt rs : RegNum} {imm : BitVec 16} {m : MergeTable → BitVec 2 → Word → Word → Word} {x : Trap}
  (hc : s.cfg.oorVpn = .pageFault)

include hc

/-- LWL and LWR access the aligned-down address, so they never fail the alignment check (R45, R154). -/
theorem State.loadMerged_ne_addressError (h : s.loadMerged rt imm rs m = .next t) (ht : t.trap = some x) : x.kind ≠ .addressError := by
  intro hx
  obtain hread | ⟨p, u, -, hdone⟩ := State.reading_trap h ht
  · rw [hx] at hread
    exact State.translate_ne_addressError hc (alignedDown_aligned _) _ hread
  · injection hdone with hdone
    subst hdone
    cases ht

/-- SWL and SWR read and write at the aligned-down address, so neither half fails the alignment check (R45, R160). -/
theorem State.storeMerged_ne_addressError (h : s.storeMerged rt imm rs m = .next t) (ht : t.trap = some x) :
    x.kind ≠ .addressError := by
  intro hx
  obtain hread | ⟨p, u, hread, hstore⟩ := State.reading_trap h ht
  · rw [hx] at hread
    exact State.translate_ne_addressError hc (alignedDown_aligned _) _ hread
  · have hwrite := State.storing_trap hstore ht
    rw [hx] at hwrite
    have hcu : u.cfg.oorVpn = .pageFault := by rw [(State.translate_same hread).2.cfg, hc]
    exact State.translate_ne_addressError hcu (alignedDown_aligned _) _ hwrite

end Merging

/-! ## The fetch -/

/-- A failing fetch raises at `PC` (R56). -/
theorem step_raises_of_exc {s : State} {e : ExcKind} (hr : s.translationReady) (h : s.translate s.pc .word false = .exc e) :
    ∃ t, step s = .next t ∧ Raises e s.pc s t := ⟨_, step_exc hr h, State.raises_raise s e s.pc⟩

/-- A misaligned `PC` is one of the failing fetches (R45, R56). -/
theorem step_misaligned {s : State} (hr : s.translationReady) (h : s.pc.toNat % 4 ≠ 0) :
    ∃ t, step s = .next t ∧ Raises .addressError s.pc s t := step_raises_of_exc hr (State.translate_misaligned h)

/-- A fetched word that decodes is executed at the state the fetch left (10_state.md R30). -/
theorem step_of_decode {s u : State} {p : Nat} {i : Instr} (h : s.translate s.pc .word false = .ok p u)
    (hi : decode (Memory.readValue s.mem p .word) = .ok i) : step s = exec i u := by
  rw [step, State.fetch_ok h]
  simp only [hi]

/-- A read never fails with READ_ONLY (R49). -/
theorem State.translate_read_exc {s : State} {va : Word} {size : AccessSize} {e : ExcKind} (h : s.translate va size false = .exc e) :
    e = .addressError ∨ e = .pageFault ∨ e = .busError := by
  obtain ⟨he, -⟩ | ⟨he, -⟩ | he | ⟨-, hw⟩ | he := State.translate_exc h
  · exact .inl he
  · exact .inl he
  · exact .inr (.inl he)
  · cases hw
  · exact .inr (.inr he)

/-! ## The statements -/

/-- Settles O44: the checks after a hit, in their order, and what setting the entry's bits changes. -/
theorem translationOfAFoundEntry : Obligations.TranslationOfAFoundEntry := by
  unfold Obligations.TranslationOfAFoundEntry
  intro s va size w r e ha hl
  obtain ⟨he, -, -⟩ := State.lookup_hit hl
  refine ⟨State.translate_hit_readOnly ha hl, State.translate_hit_noFrame ha hl, fun hw hf => ?_, fun hinv => hinv.hit_frame hl⟩
  have hok := State.translate_hit_ok ha hl hw hf
  exact ⟨_, hok, State.entryAt_touch_self he w, fun q hq => State.entryAt_touch_of_ne hq s w, State.translate_eq hok⟩

/-- Settles O41: a misaligned access fails before the lookup, an aligned one for another reason only, and the merging accesses are aligned
ones. -/
theorem alignmentIsCheckedFirst : Obligations.AlignmentIsCheckedFirst := by
  unfold Obligations.AlignmentIsCheckedFirst
  refine ⟨fun s va w => ⟨State.translate_misaligned (z := .word), State.translate_misaligned (z := .half),
      fun hc => ?_, fun hc ha => ?_, fun hc ha => ?_⟩, fun s => step_misaligned, fun s t x rt rs imm hc => ?_⟩
  · exact State.translate_ne_addressError hc ((AccessSize.aligned_iff .byte va).mpr (Nat.mod_one _)) w
  · exact State.translate_ne_addressError hc ((AccessSize.aligned_iff .half va).mpr ha) w
  · exact State.translate_ne_addressError hc ((AccessSize.aligned_iff .word va).mpr ha) w
  · simp only [List.forall_mem_cons]
    exact ⟨State.loadMerged_ne_addressError hc, State.loadMerged_ne_addressError hc, State.storeMerged_ne_addressError hc,
      State.storeMerged_ne_addressError hc, nofun⟩

/-- Settles O7: a failing fetch is a failing read, and a fetch through an entry found is a read through it, for which the entry's permission
does not matter. -/
theorem fetchOutcomes : Obligations.FetchOutcomes := by
  unfold Obligations.FetchOutcomes
  refine ⟨fun s e hr h => ⟨State.translate_read_exc h, step_raises_of_exc hr h⟩, fun s => step_misaligned, fun s r e ha hl hf => ?_⟩
  obtain ⟨he, -, -⟩ := State.lookup_hit hl
  have hok := State.translate_hit_ok (size := .word) ha hl (.inl rfl) hf
  have huse : (s.touch r false).entryAt r = some { e with use := true } := by
    rw [State.entryAt_touch_self he, Bool.or_false]
  exact ⟨_, hok, huse, fun q hq => State.entryAt_touch_of_ne hq s false, State.translate_eq hok, fun i => step_of_decode hok⟩

end Sys2Proof.Machine
end

section
/-! SUPPORT. Construction under a demand-paged policy (50_frame_allocator.md R219): the space under construction is put among the others
as `AddressSpace.fresh` describes it, and no page is loaded. -/
namespace Sys2Proof.Machine

/-- Putting a space among the others changes what is found under its own identifier only. -/
theorem State.space_insertSpace (s : State) (id j : Nat) (S : AddressSpace) :
    ({ s with spaces := Spaces.insert s.spaces id S } : State).space j = if j = id then some S else s.space j :=
  Spaces.get_insert s.spaces id j S

theorem AddressSpace.fresh_pageTable_getElem? {n v : Nat} (img : ProgramImage) (p : LoadPolicy) (hv : v < n) :
    (AddressSpace.fresh img n p).pageTable[v]? = some (.absent v) := by
  simp [AddressSpace.fresh, hv]

theorem AddressSpace.fresh_inSwap_getElem? {n v : Nat} (img : ProgramImage) (p : LoadPolicy) (hv : v < n) :
    (AddressSpace.fresh img n p).inSwap[v]? = some false := by
  simp [AddressSpace.fresh, hv]

/-- A policy other than eager loads nothing: construction ends with the fresh space put among the others (R219). -/
theorem State.constructSpace_of_ne_eager {s : State} {id : Nat} {p : LoadPolicy} (n : Nat) (img : ProgramImage) (hp : p ≠ .eager)
    (hid : s.space id = none) :
    s.constructSpace id img n p = .next { s with spaces := Spaces.insert s.spaces id (.fresh img n p) } := by
  unfold State.constructSpace
  rw [hid]
  cases p with
  | eager => exact absurd rfl hp
  | demandNoSwap => rfl
  | demandSwap => rfl

/-- Settles O53: the new space is the fresh one, whose entries are all absent; the others are found as before. -/
theorem demandPagedConstruction : Obligations.DemandPagedConstruction := by
  unfold Obligations.DemandPagedConstruction
  intro s id n img policy hp hid
  refine ⟨_, .fresh img n policy, State.constructSpace_of_ne_eager n img hp hid, ?_, rfl, fun v hv => ?_, fun j hj => ?_, rfl⟩
  · rw [State.space_insertSpace, if_pos rfl]
  · exact ⟨.absent v, AddressSpace.fresh_pageTable_getElem? img policy hv, rfl, AddressSpace.fresh_inSwap_getElem? img policy hv⟩
  · rw [State.space_insertSpace, if_neg hj]

end Sys2Proof.Machine
end

section
/-! SUPPORT. Retry after an exception (60_exceptions.md R248): the last result is an output only, and what an instruction did up to the
exception it raised, `use` bits set by its reads included, it does again from the state the exception left, changing nothing more. -/
namespace Sys2Proof.Machine

/-! ## Updates a translation does not see -/

/-- The same answer, its state changed by `f`. -/
def Access.mapState {α : Type} (f : State → State) : Access α → Access α
  | .ok v s => .ok v (f s)
  | .exc e => .exc e
  | .refused r => .refused r

/-- A change of the state that keeps the configuration and what lookups find, and commutes with setting an entry's bits, commutes with a
translation. -/
theorem State.translate_mapState {f : State → State} {s : State} (hcfg : (f s).cfg = s.cfg)
    (hlookup : ∀ v, (f s).lookup v = s.lookup v) (htouch : ∀ r w, (f s).touch r w = f (s.touch r w)) (va : Word) (size : AccessSize)
    (w : Bool) : (f s).translate va size w = (s.translate va size w).mapState f := by
  unfold State.translate State.vpnOf State.offsetOf
  rw [hcfg, hlookup]
  split
  · cases s.lookup (va.toNat / s.cfg.pageSize) with
    | refused r => rfl
    | miss e => rfl
    | hit r e =>
      dsimp only
      split
      · rfl
      · split
        · rfl
        · rw [htouch]
          rfl
  · rfl

theorem State.translate_retry (s : State) (va : Word) (size : AccessSize) (w : Bool) :
    s.retry.translate va size w = (s.translate va size w).mapState State.retry :=
  State.translate_mapState rfl (fun _ => rfl) (fun r _ => by cases r <;> rfl) va size w

theorem State.translate_raise (s : State) (k : ExcKind) (a va : Word) (size : AccessSize) (w : Bool) :
    (s.raise k a).translate va size w = (s.translate va size w).mapState (·.raise k a) :=
  State.translate_mapState (f := (·.raise k a)) rfl (fun _ => rfl) (fun r _ => by cases r <;> rfl) va size w

/-- A failing translation fails alike after a read through some entry: neither permission nor frame is a `use` bit (R49 to R51). -/
theorem State.translate_exc_touch {s : State} {va : Word} {size : AccessSize} {w : Bool} {k : ExcKind}
    (h : s.translate va size w = .exc k) (r : EntryRef) : (s.touch r false).translate va size w = .exc k := by
  unfold State.translate State.vpnOf at h ⊢
  rw [State.touch_cfg, State.lookup_touch]
  split at h
  · rename_i ha
    rw [if_pos ha]
    cases hl : s.lookup (va.toNat / s.cfg.pageSize) with
    | refused x => rw [hl] at h; cases h
    | miss e => rw [hl] at h; exact h
    | hit q e =>
      rw [hl] at h
      dsimp only at h ⊢
      have hro : (if r = q then { e with use := true, dirty := e.dirty || false } else e).readOnly = e.readOnly := by split <;> rfl
      have hframe : (if r = q then { e with use := true, dirty := e.dirty || false } else e).physicalPage = e.physicalPage := by
        split <;> rfl
      rw [hro, hframe]
      split at h
      · rename_i hp
        rw [if_pos hp]
        exact h
      · rename_i hp
        rw [if_neg hp]
        split at h
        · rename_i hf
          rw [if_pos hf]
          exact h
        · cases h
  · rename_i ha
    rw [if_neg ha]
    exact h

/-! ## The last result is an output only -/

theorem State.reading_retry {s : State} {va : Word} {size : AccessSize} {k k' : Word → State → Result State}
    (hk : ∀ v u, k' v u.retry = k v u) : s.retry.reading va size k' = s.reading va size k := by
  have hr := s.translate_retry va size false
  cases h : s.translate va size false with
  | ok p u => rw [h] at hr; rw [State.reading_ok k' hr, State.reading_ok k h]; exact hk _ u
  | exc e => rw [h] at hr; rw [State.reading_exc k' hr, State.reading_exc k h]; rfl
  | refused r => rw [h] at hr; rw [State.reading_refused k' hr, State.reading_refused k h]

theorem State.storing_retry (s : State) (va v : Word) (size : AccessSize) : s.retry.storing va size v = s.storing va size v := by
  have hr := s.translate_retry va size true
  cases h : s.translate va size true with
  | ok p u => rw [h] at hr; rw [State.storing_ok hr, State.storing_ok h]; rfl
  | exc e => rw [h] at hr; rw [State.storing_exc hr, State.storing_exc h]; rfl
  | refused r => rw [h] at hr; rw [State.storing_refused hr, State.storing_refused h]

theorem exec_retry (i : Instr) (s : State) : exec i s.retry = exec i s := by
  cases i
  case lb | lbu | lh | lhu | lw | lwl | lwr => exact State.reading_retry fun _ _ => rfl
  case sb | sh | sw => exact State.storing_retry s _ _ _
  case swl | swr => exact State.reading_retry fun _ u => State.storing_retry u _ _ _
  all_goals rfl

theorem State.fetch_retry (s : State) : s.retry.fetch = s.fetch.mapState State.retry := by
  have hn : s.retry.noTableInstalled = s.noTableInstalled := rfl
  unfold State.fetch State.memRead
  rw [hn, s.translate_retry s.retry.pc]
  split
  · rfl
  · rw [State.retry_pc]
    cases s.translate s.pc .word false <;> rfl

/-- A step does not depend on the result the last one returned (R248). -/
theorem step_retry (s : State) : step s.retry = step s := by
  unfold step
  rw [State.fetch_retry]
  cases s.fetch with
  | ok w t =>
    dsimp only [Access.mapState]
    cases decode w with
    | ok i => exact exec_retry i t
    | error e => rfl
  | exc e => rfl
  | refused r => rfl

/-! ## A state that raises again -/

/-- At `t` everything goes as at `s` up to an exception: the operands, the code and the failing accesses are those of `s`, and a read that
changed nothing at `s`, its entry's `use` bit being set already, changes nothing at `t`. -/
structure Replays (s t : State) : Prop where
  x : t.x = s.x
  pc : t.pc = s.pc
  nextPc : t.nextPc = s.nextPc
  load : t.load = s.load
  mem : t.mem = s.mem
  cfg : t.cfg = s.cfg
  ready : s.translationReady → t.translationReady
  fails : ∀ {va size w k}, s.translate va size w = .exc k → t.translate va size w = .exc k
  settled : ∀ {va size p}, s.translate va size false = .ok p s → t.translate va size false = .ok p t

namespace Replays

theorem refl (s : State) : Replays s s := ⟨rfl, rfl, rfl, rfl, rfl, rfl, id, id, id⟩

theorem trans {s t u : State} (h : Replays s t) (g : Replays t u) : Replays s u where
  x := g.x.trans h.x
  pc := g.pc.trans h.pc
  nextPc := g.nextPc.trans h.nextPc
  load := g.load.trans h.load
  mem := g.mem.trans h.mem
  cfg := g.cfg.trans h.cfg
  ready hr := g.ready (h.ready hr)
  fails hf := g.fails (h.fails hf)
  settled hs := g.settled (h.settled hs)

theorem getX {s t : State} (h : Replays s t) (r : RegNum) : t.getX r = s.getX r := State.getX_congr h.x r

theorem ea {s t : State} (h : Replays s t) (rs : RegNum) (imm : BitVec 16) : t.ea rs imm = s.ea rs imm := by
  rw [State.ea, State.ea, h.getX]

/-- A read sets one `use` bit, which no failing access looks at and which makes the read itself settled. -/
theorem of_read {s u : State} {va : Word} {size : AccessSize} {p : Nat} (h : s.translate va size false = .ok p u) : Replays s u := by
  have hagain := State.translate_again h
  obtain ⟨-, r, e, -, -, -, -, rfl⟩ := State.translate_ok h
  exact
    { x := by simp
      pc := by simp
      nextPc := by simp
      load := by simp
      mem := by simp
      cfg := by simp
      ready := fun _ => by simpa [State.noTableInstalled_of_ok hagain] using (s.touch r false).noTableInstalled_iff
      fails := fun hf => State.translate_exc_touch hf r
      settled := fun hs => by rw [State.translate_touch, hs] }

/-- An exception that drains no pending load, retried, leaves a state that raises again. -/
theorem retry_raise {s : State} (h : s.cfg.excDrainsLoad = false ∨ s.load = 0) (k : ExcKind) (a : Word) :
    Replays s (s.raise k a).retry where
  x := by rcases h with h | h <;> simp [h]
  pc := rfl
  nextPc := rfl
  load := by rcases h with h | h <;> simp [h]
  mem := rfl
  cfg := rfl
  ready hr := hr
  fails hf := by rw [State.translate_retry, State.translate_raise, hf]; rfl
  settled hs := by rw [State.translate_retry, State.translate_raise, hs]; rfl

/-- A read that succeeded once changes nothing where everything goes as after it. -/
theorem translate_settled {s u t : State} {va : Word} {size : AccessSize} {p : Nat} (h : Replays u t)
    (hu : s.translate va size false = .ok p u) : t.translate va size false = .ok p t := h.settled (State.translate_again hu)

end Replays

/-- `t` is what the exception `x` left of `u`, and wherever everything goes as at `u`, `f` raises `x` there. -/
structure RaisesAgain (f : State → Result State) (x : Trap) (u t : State) : Prop where
  raised : t = u.raise x.kind x.badVAddr
  again : ∀ {v}, Replays u v → f v = .next (v.raise x.kind x.badVAddr)

/-! ## Instructions that raise -/

section Operations

variable {s t : State} {x : Trap} (ht : t.trap = some x)

include ht

/-- The exception of a raised state is the one it was raised with. -/
theorem State.raise_of_trap {k : ExcKind} {a : Word} (h : (Host.Outcome.next (s.raise k a) : Result State) = .next t) :
    x = ⟨k, a⟩ ∧ t = s.raise x.kind x.badVAddr := by
  injection h with h
  subst h
  injection ht with ht
  subst ht
  exact ⟨rfl, rfl⟩

theorem State.writeUnlessOverflow_raisesAgain {rd : RegNum} {c : State → Bool} {v : State → Word}
    (hc : ∀ {u}, Replays s u → c u = c s) (h : s.writeUnlessOverflow rd (c s) (v s) = .next t) :
    RaisesAgain (fun s => s.writeUnlessOverflow rd (c s) (v s)) x s t := by
  unfold State.writeUnlessOverflow at h
  split at h
  · rename_i hover
    obtain ⟨rfl, hraised⟩ := State.raise_of_trap ht h
    exact ⟨hraised, fun hu => if_pos (by rw [hc hu, hover])⟩
  · injection h with h
    subst h
    cases ht

/-- A store that raises had a failing address; the value does not matter. -/
theorem State.storing_raisesAgain {a w : Word} {size : AccessSize} {va value : State → Word}
    (hva : ∀ {u}, Replays s u → va u = a) (h : s.storing a size w = .next t) :
    RaisesAgain (fun u => u.storing (va u) size (value u)) x s t := by
  have hexc := State.storing_trap h ht
  rw [State.storing_exc hexc] at h
  obtain ⟨hx, hraised⟩ := State.raise_of_trap ht h
  exact ⟨hraised, fun hu => by rw [hva hu, State.storing_exc (hu.fails hexc), hx]⟩

/-- An instruction that reads raises for its read, or for what follows it. -/
theorem State.reading_raisesAgain {va : State → Word} {size : AccessSize} {k : State → Word → State → Result State}
    (hva : ∀ {u}, Replays s u → va u = va s) (h : s.reading (va s) size (k s) = .next t)
    (hk : ∀ p u, s.translate (va s) size false = .ok p u → k s (Memory.readValue s.mem p size) u = .next t →
      RaisesAgain (fun v => k v (Memory.readValue s.mem p size) v) x u t) :
    ∃ u, Replays s u ∧ RaisesAgain (fun v => v.reading (va v) size (k v)) x u t := by
  cases hr : s.translate (va s) size false with
  | ok p u =>
    rw [State.reading_ok _ hr] at h
    have hsu := Replays.of_read hr
    obtain ⟨hraised, hagain⟩ := hk p u hr h
    refine ⟨u, hsu, hraised, fun {v} huv => ?_⟩
    have hv : v.translate (va v) size false = .ok p v := by
      rw [hva (hsu.trans huv)]
      exact huv.translate_settled hr
    rw [State.reading_ok _ hv, (hsu.trans huv).mem]
    exact hagain huv
  | exc e =>
    rw [State.reading_exc _ hr] at h
    obtain ⟨rfl, hraised⟩ := State.raise_of_trap ht h
    refine ⟨s, .refl s, hraised, fun {v} hv => ?_⟩
    have hexc := hv.fails hr
    rw [← hva hv] at hexc
    rw [State.reading_exc _ hexc, hva hv]
  | refused r => rw [State.reading_refused _ hr] at h; cases h

/-- A load raises for its read only. -/
theorem State.loading_raisesAgain {va : State → Word} {size : AccessSize} {rt : RegNum} {f : State → Word → Word}
    (hva : ∀ {u}, Replays s u → va u = va s)
    (h : (s.reading (va s) size fun w u => .next (u.loadDelayed rt (f s w))) = .next t) :
    ∃ u, Replays s u ∧ RaisesAgain (fun v => v.reading (va v) size fun w u => .next (u.loadDelayed rt (f v w))) x u t := by
  refine State.reading_raisesAgain ht (k := fun v w u => .next (u.loadDelayed rt (f v w))) hva h fun p u _ hdone => ?_
  injection hdone with hdone
  subst hdone
  cases ht

/-- SWL and SWR raise for their read, or for their write after it (R160). -/
theorem State.storeMerged_raisesAgain {rt rs : RegNum} {imm : BitVec 16} {m : MergeTable → BitVec 2 → Word → Word → Word}
    (h : s.storeMerged rt imm rs m = .next t) : ∃ u, Replays s u ∧ RaisesAgain (fun v => v.storeMerged rt imm rs m) x u t := by
  have hva {u : State} (hu : Replays s u) : alignedDown (u.ea rs imm) = alignedDown (s.ea rs imm) := by rw [hu.ea]
  refine State.reading_raisesAgain ht (va := fun v => alignedDown (v.ea rs imm)) (k := fun v w u =>
    u.storing (alignedDown (v.ea rs imm)) .word (m v.cfg.mergeTable (byteCase (v.ea rs imm)) w (v.getX rt))) hva h
    fun p u hread hstore => State.storing_raisesAgain ht (fun hu => hva ((Replays.of_read hread).trans hu)) hstore

end Operations

theorem accessesMemory_of_storesMemory {i : Instr} (h : storesMemory i = true) : accessesMemory i = true := by
  cases i
  case sb | sh | sw | swl | swr => rfl
  all_goals cases h

/-- The instructions that can raise: the overflowing ones, SYSCALL and the memory accesses (R242). -/
theorem instr_of_exec_trap {i : Instr} {s t : State} {x : Trap} (h : exec i s = .next t) (ht : t.trap = some x) :
    (∃ a b c, i = .add a b c ∨ i = .sub a b c ∨ ∃ imm, i = .addi a b imm) ∨ i = .syscall ∨ accessesMemory i = true := by
  cases exec_effect h with
  | raise u _ _ e a hc _ =>
    cases hc with
    | overflow a b c hi => exact .inl ⟨a, b, c, hi⟩
    | syscall hi => exact .inr (.inl hi)
    | read _ hi => exact .inr (.inr hi)
    | write _ hi => exact .inr (.inr (accessesMemory_of_storesMemory hi))
  | complete u _ rd v hi lo p q w _ htr => subst htr; cases ht
  | store u _ hs => exact .inr (.inr (accessesMemory_of_storesMemory hs))

/-- What an instruction raises, it raises again from wherever everything goes as at the state it raised at. -/
theorem exec_raisesAgain {i : Instr} {s t : State} {x : Trap} (h : exec i s = .next t) (ht : t.trap = some x) :
    ∃ u, Replays s u ∧ RaisesAgain (exec i) x u t := by
  obtain ⟨a, b, c, rfl | rfl | ⟨imm, rfl⟩⟩ | rfl | hi := instr_of_exec_trap h ht
  · exact ⟨s, .refl s, State.writeUnlessOverflow_raisesAgain ht (fun hu => by rw [hu.getX, hu.getX]) h⟩
  · exact ⟨s, .refl s, State.writeUnlessOverflow_raisesAgain ht (fun hu => by rw [hu.getX, hu.getX]) h⟩
  · exact ⟨s, .refl s, State.writeUnlessOverflow_raisesAgain ht (fun hu => by rw [hu.getX]) h⟩
  · obtain ⟨rfl, hraised⟩ := State.raise_of_trap ht h
    exact ⟨s, .refl s, hraised, fun _ => rfl⟩
  · cases i
    case lb rt imm rs | lbu rt imm rs | lh rt imm rs | lhu rt imm rs | lw rt imm rs =>
      exact State.loading_raisesAgain ht (va := fun v => v.ea rs imm) (fun hu => hu.ea rs imm) h
    case lwl rt imm rs | lwr rt imm rs =>
      exact State.loading_raisesAgain ht (va := fun v => alignedDown (v.ea rs imm)) (fun hu => by rw [hu.ea]) h
    case sb rt imm rs | sh rt imm rs | sw rt imm rs =>
      exact ⟨s, .refl s, State.storing_raisesAgain ht (va := fun v => v.ea rs imm) (fun hu => hu.ea rs imm) h⟩
    case swl | swr => exact State.storeMerged_raisesAgain ht h
    all_goals cases hi

/-! ## Steps that raise -/

/-- A step that answers a next state had a source to translate with (R282). -/
theorem translationReady_of_step {s t : State} (h : step s = .next t) : s.translationReady := by
  by_contra hn
  rw [step_notReady hn] at h
  cases h

/-- What a step raises, it raises again from wherever everything goes as at the state it raised at: the fetch, settled, answers the same
word. -/
theorem step_raisesAgain {s t : State} {x : Trap} (h : step s = .next t) (ht : t.trap = some x) :
    ∃ u, Replays s u ∧ RaisesAgain step x u t := by
  have hfetch {p : Nat} {u v : State} (hu : s.translate s.pc .word false = .ok p u) (huv : Replays u v) :
      v.fetch = .ok (Memory.readValue s.mem p .word) v := by
    have hsv := (Replays.of_read hu).trans huv
    rw [State.fetch_ok (hsv.pc ▸ huv.translate_settled hu), hsv.mem]
  obtain ⟨e, hexc, rfl⟩ | ⟨p, u, hu, ⟨e, he, rfl⟩ | ⟨i, hi, hexec⟩⟩ := step_next h
  · obtain ⟨rfl, hraised⟩ := State.raise_of_trap ht rfl
    refine ⟨s, .refl s, hraised, fun {v} hv => ?_⟩
    rw [step_exc (hv.ready (translationReady_of_step h)) (hv.pc ▸ hv.fails hexc), hv.pc]
  · obtain ⟨rfl, hraised⟩ := State.raise_of_trap ht rfl
    refine ⟨u, .of_read hu, hraised, fun {v} hv => ?_⟩
    rw [step, hfetch hu hv]
    simp only [he]
    rfl
  · obtain ⟨w, huw, hraised, hagain⟩ := exec_raisesAgain hexec ht
    refine ⟨w, (Replays.of_read hu).trans huw, hraised, fun {v} hv => ?_⟩
    rw [step, hfetch hu (huw.trans hv)]
    simp only [hi]
    exact hagain hv

/-- Raising the same exception once more changes nothing: a load the first drained is no longer pending (R245). -/
theorem State.raise_retry_raise (s : State) (k : ExcKind) (a : Word) : (s.raise k a).retry.raise k a = s.raise k a := by
  unfold State.raise State.retry
  cases s.cfg.excDrainsLoad <;> rfl

/-! ## The statement -/

/-- Settles O40: the state an exception left, retried, is one where everything goes as at the state it was raised at, so the step raises
it there again. -/
theorem retryReexecutes : Obligations.RetryReexecutes := by
  unfold Obligations.RetryReexecutes
  refine ⟨step_retry, fun s t x hload h ht => ?_⟩
  obtain ⟨u, hsu, rfl, hagain⟩ := step_raisesAgain h ht
  have hkept : u.cfg.excDrainsLoad = false ∨ u.load = 0 := by rwa [hsu.cfg, hsu.load]
  refine ⟨hsu.pc, hsu.nextPc, ?_⟩
  rw [hagain (.retry_raise hkept x.kind x.badVAddr), State.raise_retry_raise]

end Sys2Proof.Machine
end

section
/-! SUPPORT. Decoding by rows of the opcode table (30_encoding.md R82 to R88): each row decodes to the instruction built from the word's
fields, the fields of an encoded instruction are its operands, and the fields an instruction has are fixed by the bits it uses. -/
namespace Sys2Proof.Machine

/-! ## The rows -/

/-- The instruction that the row of `i` builds from the fields of a word (R81, R83 to R85). -/
def rowInstr : Instr → Fields → Instr
  | .add .., f => .add f.rd f.rs f.rt
  | .addu .., f => .addu f.rd f.rs f.rt
  | .sub .., f => .sub f.rd f.rs f.rt
  | .subu .., f => .subu f.rd f.rs f.rt
  | .and .., f => .and f.rd f.rs f.rt
  | .or .., f => .or f.rd f.rs f.rt
  | .xor .., f => .xor f.rd f.rs f.rt
  | .nor .., f => .nor f.rd f.rs f.rt
  | .slt .., f => .slt f.rd f.rs f.rt
  | .sltu .., f => .sltu f.rd f.rs f.rt
  | .addi .., f => .addi f.rt f.rs f.imm
  | .addiu .., f => .addiu f.rt f.rs f.imm
  | .slti .., f => .slti f.rt f.rs f.imm
  | .sltiu .., f => .sltiu f.rt f.rs f.imm
  | .andi .., f => .andi f.rt f.rs f.imm
  | .ori .., f => .ori f.rt f.rs f.imm
  | .xori .., f => .xori f.rt f.rs f.imm
  | .lui .., f => .lui f.rt f.imm
  | .sll .., f => .sll f.rd f.rt f.shamt
  | .srl .., f => .srl f.rd f.rt f.shamt
  | .sra .., f => .sra f.rd f.rt f.shamt
  | .sllv .., f => .sllv f.rd f.rt f.rs
  | .srlv .., f => .srlv f.rd f.rt f.rs
  | .srav .., f => .srav f.rd f.rt f.rs
  | .mult .., f => .mult f.rs f.rt
  | .multu .., f => .multu f.rs f.rt
  | .div .., f => .div f.rs f.rt
  | .divu .., f => .divu f.rs f.rt
  | .mfhi .., f => .mfhi f.rd
  | .mflo .., f => .mflo f.rd
  | .mthi .., f => .mthi f.rs
  | .mtlo .., f => .mtlo f.rs
  | .lb .., f => .lb f.rt f.imm f.rs
  | .lbu .., f => .lbu f.rt f.imm f.rs
  | .lh .., f => .lh f.rt f.imm f.rs
  | .lhu .., f => .lhu f.rt f.imm f.rs
  | .lw .., f => .lw f.rt f.imm f.rs
  | .lwl .., f => .lwl f.rt f.imm f.rs
  | .lwr .., f => .lwr f.rt f.imm f.rs
  | .sb .., f => .sb f.rt f.imm f.rs
  | .sh .., f => .sh f.rt f.imm f.rs
  | .sw .., f => .sw f.rt f.imm f.rs
  | .swl .., f => .swl f.rt f.imm f.rs
  | .swr .., f => .swr f.rt f.imm f.rs
  | .beq .., f => .beq f.rs f.rt f.imm
  | .bne .., f => .bne f.rs f.rt f.imm
  | .blez .., f => .blez f.rs f.imm
  | .bgtz .., f => .bgtz f.rs f.imm
  | .bltz .., f => .bltz f.rs f.imm
  | .bgez .., f => .bgez f.rs f.imm
  | .bltzal .., f => .bltzal f.rs f.imm
  | .bgezal .., f => .bgezal f.rs f.imm
  | .j .., f => .j f.target
  | .jal .., f => .jal f.target
  | .jr .., f => .jr f.rs
  | .jalr .., f => .jalr f.rd f.rs
  | .syscall, _ => .syscall

/-- Every word of an instruction's row decodes to what the row builds from its fields (R82, R88). -/
theorem decodesRow (i : Instr) : DecodesRow (tableRow i).1 (tableRow i).2 (rowInstr i) := by
  cases i
  case bltz | bgez | bltzal | bgezal => exact decodes_regimm (by simp [tableRow]) fun g hg => by simp [regimmTable, hg, tableRow, rowInstr]
  case addi | addiu | slti | sltiu | andi | ori | xori | lui | lb | lbu | lh | lhu | lw | lwl | lwr | sb | sh | sw | swl | swr | beq | bne
      | blez | bgtz | j | jal =>
    exact decodes_primary (by simp [tableRow]) fun g hg => by simp [primaryTable, hg, tableRow, rowInstr]
  all_goals exact decodes_special (by simp [tableRow]) fun g hg => by simp [specialTable, hg, tableRow, rowInstr]

/-- The word of every instruction lies in its row, which is one of the table's. -/
theorem encode_inTableRow : ∀ i : Instr, Laws.TableRow.Statement i
  | .add rd rs rt => Laws.TableRow.add rd rs rt
  | .addu rd rs rt => Laws.TableRow.addu rd rs rt
  | .sub rd rs rt => Laws.TableRow.sub rd rs rt
  | .subu rd rs rt => Laws.TableRow.subu rd rs rt
  | .and rd rs rt => Laws.TableRow.and rd rs rt
  | .or rd rs rt => Laws.TableRow.or rd rs rt
  | .xor rd rs rt => Laws.TableRow.xor rd rs rt
  | .nor rd rs rt => Laws.TableRow.nor rd rs rt
  | .slt rd rs rt => Laws.TableRow.slt rd rs rt
  | .sltu rd rs rt => Laws.TableRow.sltu rd rs rt
  | .addi rt rs imm => Laws.TableRow.addi rt rs imm
  | .addiu rt rs imm => Laws.TableRow.addiu rt rs imm
  | .slti rt rs imm => Laws.TableRow.slti rt rs imm
  | .sltiu rt rs imm => Laws.TableRow.sltiu rt rs imm
  | .andi rt rs imm => Laws.TableRow.andi rt rs imm
  | .ori rt rs imm => Laws.TableRow.ori rt rs imm
  | .xori rt rs imm => Laws.TableRow.xori rt rs imm
  | .lui rt imm => Laws.TableRow.lui rt imm
  | .sll rd rt shamt => Laws.TableRow.sll rd rt shamt
  | .srl rd rt shamt => Laws.TableRow.srl rd rt shamt
  | .sra rd rt shamt => Laws.TableRow.sra rd rt shamt
  | .sllv rd rt rs => Laws.TableRow.sllv rd rt rs
  | .srlv rd rt rs => Laws.TableRow.srlv rd rt rs
  | .srav rd rt rs => Laws.TableRow.srav rd rt rs
  | .mult rs rt => Laws.TableRow.mult rs rt
  | .multu rs rt => Laws.TableRow.multu rs rt
  | .div rs rt => Laws.TableRow.div rs rt
  | .divu rs rt => Laws.TableRow.divu rs rt
  | .mfhi rd => Laws.TableRow.mfhi rd
  | .mflo rd => Laws.TableRow.mflo rd
  | .mthi rs => Laws.TableRow.mthi rs
  | .mtlo rs => Laws.TableRow.mtlo rs
  | .lb rt imm rs => Laws.TableRow.lb rt imm rs
  | .lbu rt imm rs => Laws.TableRow.lbu rt imm rs
  | .lh rt imm rs => Laws.TableRow.lh rt imm rs
  | .lhu rt imm rs => Laws.TableRow.lhu rt imm rs
  | .lw rt imm rs => Laws.TableRow.lw rt imm rs
  | .lwl rt imm rs => Laws.TableRow.lwl rt imm rs
  | .lwr rt imm rs => Laws.TableRow.lwr rt imm rs
  | .sb rt imm rs => Laws.TableRow.sb rt imm rs
  | .sh rt imm rs => Laws.TableRow.sh rt imm rs
  | .sw rt imm rs => Laws.TableRow.sw rt imm rs
  | .swl rt imm rs => Laws.TableRow.swl rt imm rs
  | .swr rt imm rs => Laws.TableRow.swr rt imm rs
  | .beq rs rt imm => Laws.TableRow.beq rs rt imm
  | .bne rs rt imm => Laws.TableRow.bne rs rt imm
  | .blez rs imm => Laws.TableRow.blez rs imm
  | .bgtz rs imm => Laws.TableRow.bgtz rs imm
  | .bltz rs imm => Laws.TableRow.bltz rs imm
  | .bgez rs imm => Laws.TableRow.bgez rs imm
  | .bltzal rs imm => Laws.TableRow.bltzal rs imm
  | .bgezal rs imm => Laws.TableRow.bgezal rs imm
  | .j target => Laws.TableRow.j target
  | .jal target => Laws.TableRow.jal target
  | .jr rs => Laws.TableRow.jr rs
  | .jalr rd rs => Laws.TableRow.jalr rd rs
  | .syscall => Laws.TableRow.syscall

/-- The mask of a row is among the bits its instruction uses (R88). -/
theorem usedBits_and_mask (i : Instr) : usedBits i &&& (tableRow i).1 = (tableRow i).1 := by
  cases i
  all_goals
    dsimp only [usedBits, tableRow]
    decide

/-! ## The fields of an encoded instruction -/

/-- The row of a well-formed instruction builds it from the fields of its word. -/
theorem rowInstr_encode {i : Instr} (h : i.WellFormed) : rowInstr i (fieldsOf (encode i)) = i := by
  have hr := fieldsOf_rWord
  have hi := fieldsOf_iWord
  have hj := fieldsOf_jWord
  cases i
  case sll rd rt shamt | srl rd rt shamt | sra rd rt shamt =>
    have hs : shamt < 32 := of_decide_eq_true h
    simp [rowInstr, encode, hr, Nat.mod_eq_of_lt hs]
  all_goals simp [rowInstr, encode, hr, hi, hj]

/-! ## The fields a word's used bits fix -/

section Fixed

variable {w m p : Word} (h : w &&& m = p)

include h

theorem fieldsOf_rs_of_and (hm : m.extractLsb' 21 5 = BitVec.allOnes 5) : (fieldsOf w).rs = (fieldsOf p).rs :=
  congrArg BitVec.toFin (field_of_mask 21 5 h hm)

theorem fieldsOf_rt_of_and (hm : m.extractLsb' 16 5 = BitVec.allOnes 5) : (fieldsOf w).rt = (fieldsOf p).rt :=
  congrArg BitVec.toFin (field_of_mask 16 5 h hm)

theorem fieldsOf_rd_of_and (hm : m.extractLsb' 11 5 = BitVec.allOnes 5) : (fieldsOf w).rd = (fieldsOf p).rd :=
  congrArg BitVec.toFin (field_of_mask 11 5 h hm)

theorem fieldsOf_shamt_of_and (hm : m.extractLsb' 6 5 = BitVec.allOnes 5) : (fieldsOf w).shamt = (fieldsOf p).shamt :=
  congrArg BitVec.toNat (field_of_mask 6 5 h hm)

theorem fieldsOf_imm_of_and (hm : m.extractLsb' 0 16 = BitVec.allOnes 16) : (fieldsOf w).imm = (fieldsOf p).imm :=
  field_of_mask 0 16 h hm

theorem fieldsOf_target_of_and (hm : m.extractLsb' 0 26 = BitVec.allOnes 26) : (fieldsOf w).target = (fieldsOf p).target :=
  field_of_mask 0 26 h hm

end Fixed

/-- The operands an instruction's row reads from a word are among the bits the instruction uses (R88). -/
theorem rowInstr_of_and_usedBits {i : Instr} {w p : Word} (h : w &&& usedBits i = p) :
    rowInstr i (fieldsOf w) = rowInstr i (fieldsOf p) := by
  have hrs := fieldsOf_rs_of_and h
  have hrt := fieldsOf_rt_of_and h
  have hrd := fieldsOf_rd_of_and h
  have hshamt := fieldsOf_shamt_of_and h
  have himm := fieldsOf_imm_of_and h
  have htarget := fieldsOf_target_of_and h
  cases i
  case syscall => rfl
  all_goals
    dsimp only [usedBits] at hrs hrt hrd hshamt himm htarget
    simp (disch := decide) only [rowInstr, hrs, hrt, hrd, hshamt, himm, htarget]

/-! ## The rows a decoded word lies in -/

/-- The bits the SPECIAL mask keeps are the opcode and the funct field. -/
theorem and_special {w : Word} {k : Nat} (hop : (fieldsOf w).opcode.toNat = 0) (hk : (fieldsOf w).funct.toNat = k) :
    w &&& 0xFC00003F#32 = BitVec.ofNat 32 k := by
  have hfields : w &&& 0xFC00003F#32 = (w.extractLsb' 26 6).setWidth 32 <<< 26 ||| (w.extractLsb' 0 6).setWidth 32 := by
    ext i hi
    interval_cases i <;> simp
  have hop : w.extractLsb' 26 6 = 0#6 := BitVec.eq_of_toNat_eq hop
  rw [hfields, hop, ← hk, BitVec.ofNat_toNat]
  exact BitVec.zero_or

/-- The bits a REGIMM row's mask keeps are the opcode and the rt field. -/
theorem and_regimm {w : Word} {k : Nat} (hop : (fieldsOf w).opcode.toNat = 1) (hk : (fieldsOf w).rt.val = k) :
    w &&& 0xFC1F0000#32 = 1#32 <<< 26 ||| BitVec.ofNat 32 k <<< 16 := by
  have hfields : w &&& 0xFC1F0000#32 = (w.extractLsb' 26 6).setWidth 32 <<< 26 ||| (w.extractLsb' 16 5).setWidth 32 <<< 16 := by
    ext i hi
    interval_cases i <;> simp
  have hop : w.extractLsb' 26 6 = 1#6 := BitVec.eq_of_toNat_eq hop
  rw [hfields, hop, ← hk, ← BitVec.ofNat_toNat 32 (w.extractLsb' 16 5)]
  rfl

section Decoded

variable {w : Word} {i : Instr}

theorem inRow_of_specialTable (hop : (fieldsOf w).opcode.toNat = 0) (h : specialTable (fieldsOf w) = .ok i) :
    w &&& (tableRow i).1 = (tableRow i).2 := by
  unfold specialTable at h
  split at h
  all_goals cases h
  all_goals exact and_special hop ‹_›

theorem inRow_of_regimmTable (hop : (fieldsOf w).opcode.toNat = 1) (h : regimmTable (fieldsOf w) = .ok i) :
    w &&& (tableRow i).1 = (tableRow i).2 := by
  unfold regimmTable at h
  split at h
  all_goals cases h
  all_goals exact and_regimm hop ‹_›

theorem inRow_of_primaryTable (h : primaryTable (fieldsOf w) = .ok i) : w &&& (tableRow i).1 = (tableRow i).2 := by
  unfold primaryTable at h
  split at h
  all_goals cases h
  all_goals exact Laws.and_primary w _ ‹_›

/-- A word that decodes lies in the row of what it decodes to (R87). -/
theorem inRow_of_decode (h : decode w = .ok i) : w &&& (tableRow i).1 = (tableRow i).2 := by
  unfold decode at h
  dsimp only at h
  split at h
  · exact inRow_of_specialTable ‹_› h
  · exact inRow_of_regimmTable ‹_› h
  · exact inRow_of_primaryTable h

end Decoded

/-- What a row builds from a word's fields is well formed: the shift amount is a field of 5 bits (R81). -/
theorem rowInstr_wellFormed (i : Instr) (w : Word) : (rowInstr i (fieldsOf w)).WellFormed := by
  have hshamt : (fieldsOf w).shamt < 32 := (w.extractLsb' 6 5).isLt
  cases i
  case sll | srl | sra => exact decide_eq_true hshamt
  all_goals rfl

/-- Every row of the table is the row of an instruction, the one its pattern decodes to. -/
theorem exists_tableRow_eq {row : Word × Word} (h : row ∈ opcodeTable) : ∃ i, tableRow i = row := by
  have hrows : opcodeTable.all (fun row => (decode row.2).toOption.map tableRow == some row) = true := by rfl
  obtain ⟨i, -, hi⟩ := Option.map_eq_some_iff.mp (beq_iff_eq.mp (List.all_eq_true.mp hrows row h))
  exact ⟨i, hi⟩

/-! ## The statements -/

/-- Settles O1: the word of an instruction lies in its row, and its fields are the operands. -/
theorem decodeEncodeRoundTrip : Obligations.DecodeEncodeRoundTrip := by
  unfold Obligations.DecodeEncodeRoundTrip
  intro i hi
  have hdecode : decode (encode i) = .ok i := by
    rw [decodesRow i _ (encode_inTableRow i).1, rowInstr_encode hi]
  refine ⟨hdecode, fun rest => ?_⟩
  simp only [bytesOfWord, List.cons_append, List.nil_append, decodeBytes, wordOfBytes_byteOf, hdecode]

/-- Settles O2: the used bits fix the row and the operands. -/
theorem ignoredBitsDoNotMatter : Obligations.IgnoredBitsDoNotMatter := by
  unfold Obligations.IgnoredBitsDoNotMatter
  intro i w hi hw
  have hrow : w &&& (tableRow i).1 = (tableRow i).2 := by
    rw [← usedBits_and_mask, ← BitVec.and_assoc, hw, (encode_inTableRow i).1]
  rw [decodesRow i w hrow, rowInstr_of_and_usedBits hw, rowInstr_encode hi]

/-- Settles O3: a decoded word lies in a row, and the words of a row decode. -/
theorem illegalWordsAreTheTablesComplement : Obligations.IllegalWordsAreTheTablesComplement := by
  unfold Obligations.IllegalWordsAreTheTablesComplement
  refine ⟨fun w i h => ?_, fun w => ⟨fun ⟨e, he⟩ row hrow hw => ?_, fun h => ?_⟩⟩
  · have hrow := inRow_of_decode h
    rw [decodesRow i w hrow] at h
    injection h with h
    exact ⟨h ▸ rowInstr_wellFormed i w, hrow⟩
  · obtain ⟨i, rfl⟩ := exists_tableRow_eq hrow
    rw [decodesRow i w hw] at he
    cases he
  · cases hd : decode w with
    | error e => exact ⟨e, rfl⟩
    | ok i => exact absurd (inRow_of_decode hd) (h _ (encode_inTableRow i).2)

/-- Settles O4, by running the decoder on each word. -/
theorem specWordsDecode : Obligations.SpecWordsDecode := by
  unfold Obligations.SpecWordsDecode
  decide

end Sys2Proof.Machine
end

section
/-! SUPPORT. The machine's invariant (10_state.md R29, 50_frame_allocator.md R202): it holds after reset, and every step and every operation
of the host but its direct writes of the translation state keeps it. -/
namespace Sys2Proof.Machine

/-! ## Reset -/

theorem State.getX_resetWith (c : Params) (r : RegNum) : (State.resetWith c).getX r = 0 := by
  simp [State.getX, State.resetWith]

theorem State.tlb_resetWith (c : Params) (i : Fin 4) : (State.resetWith c).tlb[i] = .empty := by
  simp [State.resetWith]

/-- After reset every frame is free (R35). -/
theorem State.claim_resetWith (c : Params) (f : Nat) : (State.resetWith c).claim f = none := by
  unfold State.claim State.resetWith
  by_cases hf : f < c.numPhysPages <;> simp [hf]

/-- After reset there is no page, no claim and no valid TLB entry to say anything of. -/
theorem State.Inv.resetWith (c : Params) : (State.resetWith c).Inv where
  memory := ⟨List.Pairwise.nil, nofun⟩
  memoryRange := nofun
  zero := by simp [State.resetWith]
  frames := List.length_replicate
  victim := Nat.sub_lt c.numPhysPages_pos Nat.one_pos
  rising := List.Pairwise.nil
  spaces := nofun
  owned := nofun
  oneFrame f g d hf := by rw [State.claim_resetWith] at hf; cases hf
  claimed f d hf := by rw [State.claim_resetWith] at hf; cases hf
  table := nofun
  tlbCopies _ i hi := by rw [State.tlb_resetWith] at hi; cases hi
  tlbDistinct _ i _ hi := by rw [State.tlb_resetWith] at hi; cases hi

/-! ## Steps -/

/-- A step keeps the invariant: it raises, or runs an instruction at the state its fetch left. -/
theorem State.Inv.step {s t : State} (h : s.Inv) (ht : step s = .next t) : t.Inv := by
  obtain ⟨e, -, rfl⟩ | ⟨p, u, hu, ⟨e, -, rfl⟩ | ⟨i, -, hi⟩⟩ := step_next ht
  · exact h.raise e s.pc
  · exact (h.translate hu).raise .illegalInstr 0
  · exact (exec_effect hi).inv (h.translate hu)

/-! ## Operations of the host -/

theorem Result.state_next {α : Type} {r : Result (α × State)} {t : State} : r.state = .next t ↔ ∃ a, r = .next (a, t) := by
  unfold Result.state
  rw [Result.andThen_next]
  constructor
  · rintro ⟨⟨a, u⟩, hr, hu⟩
    injection hu with hu
    exact ⟨a, hu ▸ hr⟩
  · rintro ⟨a, hr⟩
    exact ⟨(a, t), hr, rfl⟩

/-- The state a memory call of the host ends in: after the access, or after the raise of its exception (R68, R252). -/
theorem Access.answer_next {α : Type} {a : Access α} {s t : State} {va : Word} {v : Option α} (h : a.answer s va = .next (v, t)) :
    (∃ w u, a = .ok w u ∧ v = some w ∧ t = u.retry) ∨ ∃ e, a = .exc e ∧ v = none ∧ t = s.raise e va := by
  cases a with
  | ok w u => cases h; exact .inl ⟨w, u, rfl, rfl, rfl⟩
  | exc e => cases h; exact .inr ⟨e, rfl, rfl, rfl⟩
  | refused r => cases h

theorem State.Inv.retry {s : State} (h : s.Inv) : s.retry.Inv := h.registers _ h.zero rfl

theorem State.Inv.continuePast {s : State} (h : s.Inv) : s.continuePast.Inv := h.registers _ h.zero rfl

theorem State.Inv.memRead {s t : State} {va : Word} {size : AccessSize} {v : Word} (h : s.Inv) (ht : s.memRead va size = .ok v t) :
    t.Inv := by
  obtain ⟨p, hu, -⟩ := State.memRead_ok.mp ht
  exact h.translate hu

theorem State.Inv.memWrite {s t : State} {va : Word} {size : AccessSize} {v : Word} (h : s.Inv) (ht : s.memWrite va size v = .ok () t) :
    t.Inv := by
  obtain ⟨p, u, hu, rfl⟩ := State.memWrite_ok.mp ht
  exact h.store hu v

/-- A memory call of the host keeps the invariant when its access does. -/
theorem State.Inv.answer {α : Type} {a : Access α} {s t : State} {va : Word} {v : Option α} (h : s.Inv)
    (ha : ∀ w u, a = .ok w u → u.Inv) (ht : a.answer s va = .next (v, t)) : t.Inv := by
  obtain ⟨w, u, hw, -, rfl⟩ | ⟨e, -, -, rfl⟩ := Access.answer_next ht
  · exact (ha w u hw).retry
  · exact h.raise e va

theorem State.Inv.hostReadMem {s t : State} {va : Word} {size : Nat} {v : Option Word} (h : s.Inv)
    (ht : s.hostReadMem va size = .next (v, t)) : t.Inv := by
  unfold State.hostReadMem at ht
  split at ht
  · cases ht
  · exact h.answer (fun w u hu => h.memRead hu) ht

theorem State.Inv.hostWriteMem {s t : State} {va v : Word} {size : Nat} {r : Option Unit} (h : s.Inv)
    (ht : s.hostWriteMem va size v = .next (r, t)) : t.Inv := by
  unfold State.hostWriteMem at ht
  split at ht
  · cases ht
  · exact h.answer (fun w u hu => h.memWrite hu) ht

theorem State.Inv.hostTranslate {s t : State} {va : Word} {size : Nat} {w : Bool} {r : Except ExcKind Nat} (h : s.Inv)
    (ht : s.hostTranslate va size w = .next (r, t)) : t.Inv := by
  unfold State.hostTranslate at ht
  split at ht
  · cases ht
  · split at ht
    · rename_i hu
      cases ht
      exact h.translate hu
    · cases ht
      exact h
    · cases ht

/-- The register port writes one slot or refuses (R36). -/
theorem State.Inv.writeRegister {s t : State} {i : Nat} {v : Word} (h : s.Inv) (ht : s.writeRegister i v = .next t) : t.Inv := by
  unfold State.writeRegister at ht
  split at ht
  · cases ht
    exact h.registers _ ((State.setX_storage_zero s _ v).trans h.zero) rfl
  · split at ht
    case h_6 =>
      split at ht
      · cases ht
        exact h.registers _ h.zero rfl
      · cases ht
    all_goals cases ht
    all_goals exact h.registers _ h.zero rfl

theorem State.Inv.writePhys {s t : State} {p : Nat} {b : Byte} (h : s.Inv) (ht : s.writePhys p b = .next t) : t.Inv := by
  unfold State.writePhys at ht
  split at ht
  · rename_i hp
    cases ht
    refine h.memoryWrite _ (Memory.wf_write _ _ _ h.memory) fun c hc => ?_
    obtain rfl | hc := Memory.mem_write _ _ _ _ hc
    · exact hp
    · exact h.memoryRange c hc
  · cases ht

theorem State.Inv.terminate {s t : State} (h : s.Inv) (ht : s.terminate = .next t) : t.Inv := by
  unfold State.terminate at ht
  split at ht
  · cases ht
  · exact h.destroySpace ht

/-- A launch is a construction, an overwriting of the registers, and a switch to the new space (R281 to R284). -/
theorem State.Inv.launch {s t : State} {id n : Nat} {img : ProgramImage} {p : LoadPolicy} (h : s.Inv) (hf : Memory.wf img.file)
    (ht : s.launch id img n p = .next t) : t.Inv := by
  obtain ⟨u, hu, ht⟩ := Result.andThen_next.mp ht
  obtain ⟨hui, -, -⟩ := h.constructSpace hf hu
  have hl : (u.launchRegisters n).Inv := hui.registers _ (by simp [State.launchRegisters]) rfl
  exact hl.restoreState ht

/-! ## The statements -/

/-- Settles O58. -/
theorem resetMeetsInvariant : Obligations.ResetMeetsInvariant := State.Inv.resetWith

/-- Settles O57: reset's slots as they are written, and what the reads of them answer. -/
theorem resetValues : Obligations.ResetValues := by
  unfold Obligations.ResetValues
  intro c
  refine ⟨State.getX_resetWith c, rfl, rfl, rfl, rfl, rfl, rfl, rfl, rfl, fun _ => rfl, fun i => ?_, rfl, rfl,
    fun f _ => State.claim_resetWith c f, rfl⟩
  rw [State.tlb_resetWith]
  rfl

/-- Settles O59. -/
theorem stepKeepsInvariant : Obligations.StepKeepsInvariant := by
  unfold Obligations.StepKeepsInvariant
  exact fun s t h => h.step

/-- Settles O60, operation by operation. -/
theorem hostOperationsKeepInvariant : Obligations.HostOperationsKeepInvariant := by
  unfold Obligations.HostOperationsKeepInvariant
  intro op s t hop h ht
  cases op with
  | writeRegister i v => exact h.writeRegister ht
  | readMem va size =>
    obtain ⟨a, ha⟩ := Result.state_next.mp ht
    exact h.hostReadMem ha
  | writeMem va size v =>
    obtain ⟨a, ha⟩ := Result.state_next.mp ht
    exact h.hostWriteMem ha
  | translate va size w =>
    obtain ⟨a, ha⟩ := Result.state_next.mp ht
    exact h.hostTranslate ha
  | writePhys p b => exact h.writePhys ht
  | writeTlb i e => exact hop.elim
  | writePte id v e => exact hop.elim
  | setActiveTable id n => exact hop.elim
  | find id v =>
    obtain ⟨f, hf⟩ := Result.state_next.mp ht
    exact (h.find hf).1
  | constructSpace id img n p => exact (h.constructSpace hop ht).1
  | destroySpace id => exact h.destroySpace ht
  | loadSegment id va => exact (h.loadSegment ht).1
  | saveToSwap id v => exact h.saveToSwap ht
  | loadFromSwap id v f => exact h.loadFromSwap ht
  | saveState => exact h.saveState ht
  | restoreState id => exact h.restoreState ht
  | onPageFault va slot =>
    obtain ⟨c, hc⟩ := Result.state_next.mp ht
    exact h.onPageFault hc
  | refillTlb slot v => exact h.refillTlb hop ht
  | retry => cases ht; exact h.retry
  | continuePast => cases ht; exact h.continuePast
  | terminate => exact h.terminate ht
  | launch id img n p => exact h.launch hop ht

end Sys2Proof.Machine
end

section
/-! SUPPORT. The instructions that compute a register result (40_arithmetic_logic.md, 41_shifts.md): the value each writes, as arithmetic on
the readings of its operands. -/
namespace Sys2Proof.Machine

/-! ## Writing a result -/

theorem State.writeResult_writes_of_eq {v w : Word} (s : State) (rd : RegNum) (h : w = v) : Writes rd v s (s.writeResult rd w) :=
  h ▸ s.writeResult_writes rd w

/-- The overflow condition and the wrapped value decide between writing and raising (R101, R103, R111). -/
theorem State.writeUnlessOverflow_spec {c : Bool} {w : Word} {exact : Int} (s : State) (rd : RegNum)
    (hc : c = !decide (-2 ^ 31 ≤ exact ∧ exact ≤ 2 ^ 31 - 1)) (hw : BitVec.ofInt 32 exact = w) :
    WritesOrOverflows rd exact s (s.writeUnlessOverflow rd c w) := by
  unfold WritesOrOverflows State.writeUnlessOverflow
  by_cases h : -2 ^ 31 ≤ exact ∧ exact ≤ 2 ^ 31 - 1
  · rw [if_pos h, if_neg (by rw [hc, decide_eq_true h]; decide)]
    exact s.writeResult_writes_of_eq rd hw.symm
  · rw [if_neg h, if_pos (by rw [hc, decide_eq_false h]; rfl)]
    exact ⟨_, rfl, s.raises_raise .overflow 0⟩

/-! ## The values -/

theorem ofInt_add_imm (a : Word) (imm : BitVec 16) : BitVec.ofInt 32 (a.toInt + imm.toInt) = a + signedImm imm := by
  rw [← signedImm_toInt, ofInt_add_toInt]

/-- The sign rule of R111 is the range condition on the exact sum. -/
theorem addOverflows_imm (a : Word) (imm : BitVec 16) :
    addOverflows a (signedImm imm) = !decide (-2 ^ 31 ≤ a.toInt + imm.toInt ∧ a.toInt + imm.toInt ≤ 2 ^ 31 - 1) := by
  rw [addOverflows_eq, signedImm_toInt]

theorem boolWord_decide (p : Prop) [Decidable p] : boolWord (decide p) = if p then 1 else 0 := by
  by_cases h : p <;> simp [boolWord, h]

/-- The upper immediate as arithmetic (R118). -/
theorem upperImm_eq (imm : BitVec 16) : upperImm imm = BitVec.ofNat 32 (imm.toNat * 2 ^ 16) := by
  apply BitVec.eq_of_toNat_eq
  simp [upperImm, logicalImm, Nat.shiftLeft_eq]

/-- SLL as arithmetic (R131). -/
theorem shiftLeft_eq_ofNat (a : Word) (n : Nat) : a <<< n = BitVec.ofNat 32 (a.toNat * 2 ^ n) := by
  apply BitVec.eq_of_toNat_eq
  rw [BitVec.toNat_shiftLeft, Nat.shiftLeft_eq, BitVec.toNat_ofNat]

/-- SRL as arithmetic (R132). -/
theorem ushiftRight_eq_ofNat (a : Word) (n : Nat) : a >>> n = BitVec.ofNat 32 (a.toNat / 2 ^ n) := by
  apply BitVec.eq_of_toNat_eq
  rw [BitVec.toNat_ushiftRight, Nat.shiftRight_eq_div_pow, BitVec.toNat_ofNat, Nat.mod_eq_of_lt]
  exact (Nat.div_le_self _ _).trans_lt a.isLt

/-- SRA as arithmetic (R133). -/
theorem sshiftRight_eq_ofInt (a : Word) (n : Nat) : a.sshiftRight n = BitVec.ofInt 32 (a.toInt / 2 ^ n) := by
  rw [BitVec.sshiftRight, Int.shiftRight_eq_div_pow]
  norm_cast

/-- The variable amount as arithmetic (R130). -/
theorem variableAmount_eq (v : Word) : variableAmount v = v.toNat % 32 := by
  simp [variableAmount]

/-! ## The statements -/

/-- Settles O8. -/
theorem overflowTrapsOrWrites : Obligations.OverflowTrapsOrWrites := by
  unfold Obligations.OverflowTrapsOrWrites
  refine ⟨decodesRow (.add 0 0 0), decodesRow (.sub 0 0 0), decodesRow (.addi 0 0 0), fun s rd rs rt imm => ⟨?_, ?_, ?_⟩⟩
  · exact s.writeUnlessOverflow_spec rd (addOverflows_eq _ _) (ofInt_add_toInt _ _)
  · exact s.writeUnlessOverflow_spec rd (subOverflows_eq _ _) (ofInt_sub_toInt _ _)
  · exact s.writeUnlessOverflow_spec rt (addOverflows_imm _ _) (ofInt_add_imm _ _)

/-- Settles O9. -/
theorem wrappingArithmetic : Obligations.WrappingArithmetic := by
  unfold Obligations.WrappingArithmetic
  refine ⟨decodesRow (.addu 0 0 0), decodesRow (.subu 0 0 0), decodesRow (.addiu 0 0 0), fun s rd rs rt imm => ⟨?_, ?_, ?_⟩⟩
  · exact s.writeResult_writes_of_eq rd (ofInt_add_toInt _ _).symm
  · exact s.writeResult_writes_of_eq rd (ofInt_sub_toInt _ _).symm
  · exact s.writeResult_writes_of_eq rt (ofInt_add_imm _ _).symm

/-- Settles O10. -/
theorem registerLogic : Obligations.RegisterLogic := by
  unfold Obligations.RegisterLogic
  exact ⟨decodesRow (.and 0 0 0), decodesRow (.or 0 0 0), decodesRow (.xor 0 0 0), decodesRow (.nor 0 0 0), fun s rd _ _ =>
    ⟨s.writeResult_writes rd _, s.writeResult_writes rd _, s.writeResult_writes rd _, s.writeResult_writes rd _⟩⟩

/-- Settles O11. -/
theorem comparisons : Obligations.Comparisons := by
  unfold Obligations.Comparisons
  refine ⟨decodesRow (.slt 0 0 0), decodesRow (.sltu 0 0 0), decodesRow (.slti 0 0 0), decodesRow (.sltiu 0 0 0),
    fun s rd rs rt imm => ⟨?_, ?_, ?_, ?_⟩⟩
  · exact s.writeResult_writes_of_eq rd (boolWord_decide _)
  · exact s.writeResult_writes_of_eq rd (boolWord_decide _)
  · rw [← signedImm_toInt]
    exact s.writeResult_writes_of_eq rt (boolWord_decide _)
  · exact s.writeResult_writes_of_eq rt (boolWord_decide _)

/-- Settles O12. -/
theorem immediateLogic : Obligations.ImmediateLogic := by
  unfold Obligations.ImmediateLogic
  exact ⟨decodesRow (.andi 0 0 0), decodesRow (.ori 0 0 0), decodesRow (.xori 0 0 0), decodesRow (.lui 0 0), fun s _ rt imm =>
    ⟨s.writeResult_writes rt _, s.writeResult_writes rt _, s.writeResult_writes rt _, s.writeResult_writes_of_eq rt (upperImm_eq imm)⟩⟩

/-- Settles O13. -/
theorem immediateShifts : Obligations.ImmediateShifts := by
  unfold Obligations.ImmediateShifts
  refine ⟨decodesRow (.sll 0 0 0), decodesRow (.srl 0 0 0), decodesRow (.sra 0 0 0), fun s rd rt shamt => ⟨?_, ?_, ?_⟩⟩
  · exact s.writeResult_writes_of_eq rd (shiftLeft_eq_ofNat _ shamt)
  · exact s.writeResult_writes_of_eq rd (ushiftRight_eq_ofNat _ shamt)
  · exact s.writeResult_writes_of_eq rd (sshiftRight_eq_ofInt _ shamt)

/-- Settles O14: a variable shift is the immediate one by the amount in the low 5 bits. -/
theorem variableShifts : Obligations.VariableShifts := by
  unfold Obligations.VariableShifts
  refine ⟨decodesRow (.sllv 0 0 0), decodesRow (.srlv 0 0 0), decodesRow (.srav 0 0 0), fun s rd rs rt => ?_⟩
  rw [← variableAmount_eq]
  refine ⟨?_, ?_, ?_⟩
  · exact s.writeResult_writes_of_eq rd (shiftLeft_eq_ofNat _ _)
  · exact s.writeResult_writes_of_eq rd (ushiftRight_eq_ofNat _ _)
  · exact s.writeResult_writes_of_eq rd (sshiftRight_eq_ofInt _ _)

end Sys2Proof.Machine
end

section
/-! SUPPORT. Multiplication and division (42_multiply_divide.md): the two halves of an exact product, and the truncated quotient with its
remainder. -/
namespace Sys2Proof.Machine

/-! ## Products -/

/-- A double word is its halves, the upper one signed. -/
theorem toInt_of_halves (p : BitVec 64) : 2 ^ 32 * (p.extractLsb' 32 32).toInt + (p.extractLsb' 0 32).toNat = p.toInt := by
  have hp := p.isLt
  rw [BitVec.toInt_eq_toNat_cond, BitVec.toInt_eq_toNat_cond, BitVec.extractLsb'_toNat, BitVec.extractLsb'_toNat,
    Nat.shiftRight_eq_div_pow, Nat.shiftRight_eq_div_pow]
  split <;> split <;> omega

/-- A double word is its halves. -/
theorem toNat_of_halves (p : BitVec 64) : 2 ^ 32 * (p.extractLsb' 32 32).toNat + (p.extractLsb' 0 32).toNat = p.toNat := by
  have hp := p.isLt
  rw [BitVec.extractLsb'_toNat, BitVec.extractLsb'_toNat, Nat.shiftRight_eq_div_pow, Nat.shiftRight_eq_div_pow]
  omega

/-- The product of two signed readings fits in 64 bits (R141). -/
theorem signedProduct_toInt (a b : Word) : (signedProduct a b).toInt = a.toInt * b.toInt := by
  have hle : a.toInt * b.toInt ≤ 2 ^ 62 := BitVec.toInt_mul_toInt_le
  have hge : -2 ^ 62 ≤ a.toInt * b.toInt := BitVec.le_toInt_mul_toInt
  exact BitVec.toInt_ofInt_eq_self (by decide) (by omega) (by omega)

/-- The product of two unsigned readings fits in 64 bits (R142). -/
theorem unsignedProduct_toNat (a b : Word) : (unsignedProduct a b).toNat = a.toNat * b.toNat := by
  have hlt : a.toNat * b.toNat < 2 ^ 32 * 2 ^ 32 := Nat.mul_lt_mul'' a.isLt b.isLt
  rw [unsignedProduct, BitVec.toNat_ofNat, Nat.mod_eq_of_lt (by omega)]

/-! ## Division -/

/-- The remainder with the dividend's sign always fits (R143). -/
theorem signedRemainder_toInt (a b : Word) : (signedRemainder a b).toInt = a.toInt.tmod b.toInt := by
  rw [signedRemainder, ← BitVec.toInt_srem, BitVec.ofInt_toInt]

/-- The truncated quotient fits but for the one pair of R143. -/
theorem signedQuotient_toInt {a b : Word} (h : divOverflows a b = false) : (signedQuotient a b).toInt = a.toInt.tdiv b.toInt := by
  have hne : a ≠ BitVec.intMin 32 ∨ b ≠ -1#32 := by
    rw [divOverflows, Bool.and_eq_false_iff] at h
    exact h.imp ne_of_beq_false ne_of_beq_false
  rw [signedQuotient, ← BitVec.toInt_sdiv_of_ne_or_ne a b hne, BitVec.ofInt_toInt]

theorem divOverflows_iff {a b : Word} : divOverflows a b = true ↔ a = 0x80000000 ∧ b = 0xFFFFFFFF := by
  rw [divOverflows, Bool.and_eq_true, beq_iff_eq, beq_iff_eq]
  rfl

/-- What DIV does: zeros for a zero divisor, the parameter's answer for the pair whose quotient does not fit, else the division. -/
theorem exec_div_zero {s : State} {rt : RegNum} (h : s.getX rt = 0) (rs : RegNum) :
    exec (.div rs rt) s = .next (s.setHiLo 0 0).done := if_pos h

theorem exec_div_overflow {s : State} {rs rt : RegNum} (h : divOverflows (s.getX rs) (s.getX rt) = true) :
    exec (.div rs rt) s = s.divideOverflow (s.getX rs) (s.getX rt) := by
  have hne : s.getX rt ≠ 0 := by rw [(divOverflows_iff.mp h).2]; decide
  exact (if_neg hne).trans (if_pos h)

theorem exec_div {s : State} {rs rt : RegNum} (hne : s.getX rt ≠ 0) (h : divOverflows (s.getX rs) (s.getX rt) = false) :
    exec (.div rs rt) s =
      .next (s.setHiLo (signedRemainder (s.getX rs) (s.getX rt)) (signedQuotient (s.getX rs) (s.getX rt))).done :=
  (if_neg hne).trans (if_neg (by rw [h]; decide))

/-! ## The statements -/

/-- Settles O15. -/
theorem productsAreExact : Obligations.ProductsAreExact := by
  unfold Obligations.ProductsAreExact
  refine ⟨decodesRow (.mult 0 0), decodesRow (.multu 0 0), fun s rs rt => ⟨?_, ?_⟩⟩
  · exact ⟨_, _, _, rfl, s.completesHiLo_done _ _, (toInt_of_halves _).trans (signedProduct_toInt _ _)⟩
  · exact ⟨_, _, _, rfl, s.completesHiLo_done _ _, (toNat_of_halves _).trans (unsignedProduct_toNat _ _)⟩

/-- Settles O16: the identity, the bound and the sign are those of the truncated division of integers. -/
theorem signedDivision : Obligations.SignedDivision := by
  unfold Obligations.SignedDivision
  refine ⟨decodesRow (.div 0 0), fun s rs rt => ⟨fun hz => ?_, fun hne hno => ?_, fun ha hb => ?_⟩⟩
  · exact ⟨_, exec_div_zero hz rs, s.completesHiLo_done 0 0⟩
  · have hfit : divOverflows (s.getX rs) (s.getX rt) = false := Bool.eq_false_iff.mpr fun h => hno (divOverflows_iff.mp h)
    have hne' : (s.getX rt).toInt ≠ 0 := fun h => hne (BitVec.eq_of_toInt_eq h)
    refine ⟨_, _, _, exec_div hne hfit, s.completesHiLo_done _ _, ?_, ?_, ?_⟩
    · rw [signedQuotient_toInt hfit, signedRemainder_toInt, Int.mul_tdiv_add_tmod]
    · rw [signedRemainder_toInt, Int.natAbs_tmod]
      exact Nat.mod_lt _ (Int.natAbs_pos.mpr hne')
    · rw [signedRemainder_toInt, ← Int.sign_eq_zero_iff_zero, Int.sign_tmod]
      split
      · exact .inl rfl
      · exact .inr rfl
  · rw [exec_div_overflow (divOverflows_iff.mpr ⟨ha, hb⟩), State.divideOverflow]
    refine ⟨fun hd => by rw [hd], fun hi lo hd => ?_, fun hd => ?_⟩
    · rw [hd]
      exact ⟨_, rfl, s.completesHiLo_done hi lo⟩
    · rw [hd]
      exact ⟨_, _, _, rfl, s.completesHiLo_done _ _⟩

/-- Settles O17. -/
theorem unsignedDivision : Obligations.UnsignedDivision := by
  unfold Obligations.UnsignedDivision
  refine ⟨decodesRow (.divu 0 0), fun s rs rt => ⟨fun hz => ?_, fun hne => ?_⟩⟩
  · exact ⟨_, if_pos hz, s.completesHiLo_done 0 0⟩
  · have hpos : 0 < (s.getX rt).toNat := Nat.pos_of_ne_zero fun h => hne (BitVec.eq_of_toNat_eq h)
    refine ⟨_, _, _, if_neg hne, s.completesHiLo_done _ _, ?_, ?_⟩
    · rw [BitVec.toNat_udiv, BitVec.toNat_umod, Nat.div_add_mod]
    · rw [BitVec.toNat_umod]
      exact Nat.mod_lt _ hpos

/-- Settles O18. -/
theorem hiLoMoves : Obligations.HiLoMoves := by
  unfold Obligations.HiLoMoves
  refine ⟨decodesRow (.mfhi 0), decodesRow (.mflo 0), decodesRow (.mthi 0), decodesRow (.mtlo 0), fun s rd rs => ⟨?_, ?_, ?_, ?_⟩⟩
  · exact s.writeResult_writes rd s.hi
  · exact s.writeResult_writes rd s.lo
  · exact ⟨_, rfl, s.completesHiLo_done _ _⟩
  · exact ⟨_, rfl, s.completesHiLo_done _ _⟩

end Sys2Proof.Machine
end

section
/-! SUPPORT. Branches, jumps and SYSCALL (44_branches_jumps.md, 45_system.md): where each goes, and what a link write leaves in the
registers. -/
namespace Sys2Proof.Machine

/-- A conditional branch is a jump to its target or past the delay slot (R170). -/
theorem State.branchIf_eq_jumpTo (s : State) {c : Bool} {cond : Prop} [Decidable cond] (hc : c = decide cond) (imm : BitVec 16) :
    s.branchIf c imm = s.jumpTo (if cond then s.branchDest imm else s.nextPc + 4) := by
  simp only [State.branchIf_eq, hc, branchDest_eq, decide_eq_true_eq, State.jumpTo_eq]

theorem State.branchIf_jumps (s : State) {c : Bool} {cond : Prop} [Decidable cond] (hc : c = decide cond) (imm : BitVec 16) :
    Jumps s.getX (if cond then s.branchDest imm else s.nextPc + 4) s (.next (s.branchIf c imm)) := by
  rw [s.branchIf_eq_jumpTo hc]
  exact ⟨_, rfl, s.completesJump_jumpTo _⟩

/-- The registers after a link write are the linked ones (R177). -/
theorem State.getX_link (s : State) (rd r : RegNum) : (s.setX rd (linkValue s.nextPc)).getX r = s.linked rd r := by
  rw [State.getX_setX, State.linked, linkValue]
  by_cases hr : r = 0
  · simp [hr]
  · simp only [hr, if_false, ne_eq, not_false_eq_true, and_true]

/-- A jump after a link write (R177). -/
theorem State.jumpTo_links (s : State) (rd : RegNum) (p : Word) :
    Jumps (s.linked rd) p s (.next ((s.setX rd (linkValue s.nextPc)).jumpTo p)) := ⟨_, rfl, s.completesJump_finish rd _ p⟩

/-- A conditional branch after a link write to register 31 (R178, R179). -/
theorem State.branchIf_links (s : State) {c : Bool} {cond : Prop} [Decidable cond] (hc : c = decide cond) (imm : BitVec 16) :
    Jumps (s.linked 31) (if cond then s.branchDest imm else s.nextPc + 4) s
      (.next ((s.setX 31 (linkValue s.nextPc)).branchIf c imm)) := by
  rw [State.branchIf_eq_jumpTo _ hc]
  exact s.jumpTo_links 31 _

theorem not_sign_eq (a : Word) : (!sign a) = decide (0 ≤ a.toInt) := by
  rw [sign_eq, ← decide_not, decide_eq_decide, not_lt]

/-! ## The fetched word -/

/-- The four bytes at an address decode to the instruction that the word there decodes to (20_memory.md R42). -/
theorem decode_of_decodeBytes {m : List Host.Cell} {p : Nat} {i : Instr} {rest : List Byte}
    (h : decodeBytes (Memory.readBytes m p 4) = .ok (i, rest)) : decode (Memory.readValue m p .word) = .ok i := by
  simp only [Memory.readBytes, decodeBytes] at h
  split at h
  · rename_i hi
    cases h
    exact hi
  · cases h

theorem decode_error_of_decodeBytes {m : List Host.Cell} {p : Nat} {e : DecodeError}
    (h : decodeBytes (Memory.readBytes m p 4) = .error e) : decode (Memory.readValue m p .word) = .error e := by
  simp only [Memory.readBytes, decodeBytes] at h
  split at h
  · cases h
  · rename_i he
    cases h
    exact he

/-- A fetched word that is no instruction raises at the state the fetch left (R192). -/
theorem step_of_decode_error {s u : State} {p : Nat} {e : DecodeError} (h : s.translate s.pc .word false = .ok p u)
    (he : decode (Memory.readValue s.mem p .word) = .error e) : step s = .next (u.raise .illegalInstr 0) := by
  rw [step, State.fetch_ok h]
  simp only [he]
  rfl

/-! ## The statements -/

/-- Settles O26. -/
theorem conditionalBranches : Obligations.ConditionalBranches := by
  unfold Obligations.ConditionalBranches
  refine ⟨decodesRow (.beq 0 0 0), decodesRow (.bne 0 0 0), decodesRow (.blez 0 0), decodesRow (.bgtz 0 0), decodesRow (.bltz 0 0),
    decodesRow (.bgez 0 0), fun s rs rt imm => ⟨?_, ?_, ?_, ?_, ?_, ?_⟩⟩
  · exact s.branchIf_jumps rfl imm
  · rw [← ite_not]
    exact s.branchIf_jumps (decide_not).symm imm
  · exact s.branchIf_jumps rfl imm
  · exact s.branchIf_jumps rfl imm
  · exact s.branchIf_jumps (sign_eq _) imm
  · exact s.branchIf_jumps (not_sign_eq _) imm

/-- Settles O27: the source of the condition is read after the link write. -/
theorem linkingBranches : Obligations.LinkingBranches := by
  unfold Obligations.LinkingBranches
  refine ⟨decodesRow (.bltzal 0 0), decodesRow (.bgezal 0 0), fun s rs imm => ?_⟩
  rw [← s.getX_link 31 rs]
  exact ⟨s.branchIf_links (sign_eq _) imm, s.branchIf_links (not_sign_eq _) imm⟩

/-- Settles O28. -/
theorem regionJumps : Obligations.RegionJumps := by
  unfold Obligations.RegionJumps
  refine ⟨decodesRow (.j 0), decodesRow (.jal 0), fun s target => ?_⟩
  rw [jumpDest_eq]
  exact ⟨⟨_, rfl, s.completesJump_jumpTo _⟩, s.jumpTo_links 31 _⟩

/-- Settles O29: JALR reads its source after the link write. -/
theorem registerJumps : Obligations.RegisterJumps := by
  unfold Obligations.RegisterJumps
  refine ⟨decodesRow (.jr 0), decodesRow (.jalr 0 0), fun s rd rs => ?_⟩
  rw [← s.getX_link rd rs]
  exact ⟨⟨_, rfl, s.completesJump_jumpTo _⟩, s.jumpTo_links rd _⟩

/-- Settles O30. -/
theorem syscallRaises : Obligations.SyscallRaises := by
  unfold Obligations.SyscallRaises
  exact ⟨decodesRow .syscall, fun s => ⟨_, rfl, s.raises_raise .syscall 0⟩⟩

/-- Settles O47: the raise kept the PCs, so the advance is the one a completed step would have made. -/
theorem continuePastSyscall : Obligations.ContinuePastSyscall := by
  unfold Obligations.ContinuePastSyscall
  intro s t h
  cases h
  rfl

/-- Settles O5. -/
theorem stepRunsDecodedInstruction : Obligations.StepRunsDecodedInstruction := by
  unfold Obligations.StepRunsDecodedInstruction
  exact fun s u p i rest h hi => step_of_decode h (decode_of_decodeBytes hi)

/-- Settles O6. -/
theorem illegalWordRaises : Obligations.IllegalWordRaises := by
  unfold Obligations.IllegalWordRaises
  exact fun s u p e h he => ⟨_, step_of_decode_error h (decode_error_of_decodeBytes he), u.raises_raise .illegalInstr 0⟩

end Sys2Proof.Machine
end

section
/-! SUPPORT. Loads and stores (43_loads_stores.md): the address each instruction accesses, what it does when the translations of its
accesses succeed, and what it raises when one fails. -/
namespace Sys2Proof.Machine

/-! ## The accesses -/

/-- A failing data read raises with its address (R55). -/
theorem State.reading_raises {s : State} {va : Word} {size : AccessSize} {e : ExcKind} (k : Word → State → Result State)
    (h : s.translate va size false = .exc e) : ∃ t, s.reading va size k = .next t ∧ Raises e va s t :=
  ⟨_, State.reading_exc k h, s.raises_raise e va⟩

/-- A failing data write raises with its address (R55). -/
theorem State.storing_raises_of_exc {s : State} {va v : Word} {size : AccessSize} {e : ExcKind}
    (h : s.translate va size true = .exc e) : ∃ t, s.storing va size v = .next t ∧ Raises e va s t :=
  ⟨_, State.storing_exc h, s.raises_raise e va⟩

/-- `loadInto` stages the converted value, whatever it is called (R150, R166). -/
theorem State.loadInto_of_eq {s u : State} {rt rs : RegNum} {imm : BitVec 16} {size : AccessSize} {p : Nat} {f : Word → Word} {v : Word}
    (h : s.translate (s.ea rs imm) size false = .ok p u) (hv : f (Memory.readValue s.mem p size) = v) :
    ∃ t, s.loadInto rt imm rs size f = .next t ∧ CompletesLoading rt v u s t :=
  hv ▸ State.loadInto_ok f h

/-! ## Merging accesses -/

section Merging

variable {s u : State} {rt rs : RegNum} {imm : BitVec 16} {p : Nat} {wa : Word} (merge : MergeTable → BitVec 2 → Word → Word → Word)
  (hwa : wa.toNat = (s.ea rs imm).toNat / 4 * 4)

include hwa

/-- LWL and LWR stage the merge of the aligned word with the register's current or pending value (R154). -/
theorem State.loadMerged_ok (hr : s.translate wa .word false = .ok p u) :
    ∃ t, s.loadMerged rt imm rs merge = .next t ∧
      CompletesLoading rt (merge s.cfg.mergeTable (BitVec.ofNat 2 ((s.ea rs imm).toNat % 4)) (s.mergeBase rt)
        (Memory.readValue s.mem p .word)) u s t := by
  obtain rfl := alignedDown_eq _ _ hwa
  rw [← byteCase_eq]
  exact ⟨_, State.reading_ok _ hr, State.completesLoading rt _ (State.translate_eq hr)⟩

theorem State.loadMerged_exc {e : ExcKind} (hr : s.translate wa .word false = .exc e) :
    ∃ t, s.loadMerged rt imm rs merge = .next t ∧ Raises e wa s t := by
  obtain rfl := alignedDown_eq _ _ hwa
  exact State.reading_raises _ hr

theorem State.storeMerged_exc {e : ExcKind} (hr : s.translate wa .word false = .exc e) :
    ∃ t, s.storeMerged rt imm rs merge = .next t ∧ Raises e wa s t := by
  obtain rfl := alignedDown_eq _ _ hwa
  exact State.reading_raises _ hr

/-- SWL and SWR, once read, are a store of the merge at the aligned address (R160). -/
theorem State.storeMerged_read (hr : s.translate wa .word false = .ok p u) :
    s.storeMerged rt imm rs merge = u.storing wa .word
      (merge s.cfg.mergeTable (BitVec.ofNat 2 ((s.ea rs imm).toNat % 4)) (Memory.readValue s.mem p .word) (s.getX rt)) := by
  obtain rfl := alignedDown_eq _ _ hwa
  rw [← byteCase_eq]
  exact State.reading_ok _ hr

/-- A failing write half raises at the state the read left (R160). -/
theorem State.storeMerged_write_exc {e : ExcKind} (hr : s.translate wa .word false = .ok p u)
    (hw : u.translate wa .word true = .exc e) : ∃ t, s.storeMerged rt imm rs merge = .next t ∧ Raises e wa u t := by
  rw [State.storeMerged_read merge hwa hr]
  exact State.storing_raises_of_exc hw

/-- SWL and SWR store the merge whole (R160, R161). -/
theorem State.storeMerged_ok {v : State} {q : Nat} (hwf : Memory.wf s.mem) (hr : s.translate wa .word false = .ok p u)
    (hw : u.translate wa .word true = .ok q v) :
    ∃ t, s.storeMerged rt imm rs merge = .next t ∧
      CompletesStoring q 4 (merge s.cfg.mergeTable (BitVec.ofNat 2 ((s.ea rs imm).toNat % 4)) (Memory.readValue s.mem p .word)
        (s.getX rt)) v s t := by
  have heq : v = { s with tlb := v.tlb, spaces := v.spaces } := by rw [State.translate_eq hw, State.translate_eq hr]
  rw [State.storeMerged_read merge hwa hr, State.storing_ok hw, State.translate_mem hr]
  exact ⟨_, rfl, State.completesStoring q _ .word hwf heq⟩

end Merging

/-- After a successful read of an address the write goes to the same place, or the entry found is read-only (R49, R50). -/
theorem State.translate_write_after_read {s u : State} {va : Word} {size : AccessSize} {p : Nat}
    (hr : s.translate va size false = .ok p u) :
    (∀ q v, u.translate va size true = .ok q v → q = p) ∧ ∀ e, u.translate va size true = .exc e → e = .readOnly := by
  obtain ⟨ha, r, d, hl, -, hf, rfl, rfl⟩ := State.translate_ok hr
  have hl : s.lookup (va.toNat / s.cfg.pageSize) = .hit r d := hl
  have hl' : (s.touch r false).lookup (va.toNat / (s.touch r false).cfg.pageSize) =
      .hit r { d with use := true, dirty := d.dirty || false } := by
    rw [State.touch_cfg, State.lookup_touch, hl]
    simp only [if_true]
  have hw := State.translate_of_hit (w := true) ((size.aligned_iff va).mp ha) hl'
  rw [State.touch_cfg, if_neg (Nat.not_le.mpr hf)] at hw
  rw [hw]
  split
  · exact ⟨fun _ _ h => (nomatch h), fun e h => (Access.exc.inj h).symm⟩
  · exact ⟨fun q v h => (Access.ok.inj h).1.symm, fun _ h => (nomatch h)⟩

/-! ## The host's memory calls -/

/-- Byte k of the value read: the byte at the k-th address, 0 beyond the size (R42, R53). -/
theorem byteOf_readValue_size (m : List Host.Cell) (p : Nat) (size : AccessSize) {k : Nat} (hk : k < 4) :
    byteOf (Memory.readValue m p size) k = if k < size.bytes then Memory.read m (p + k) else 0 := by
  have hk : k = 0 ∨ k = 1 ∨ k = 2 ∨ k = 3 := by omega
  cases size <;> obtain rfl | rfl | rfl | rfl := hk <;> simp [Memory.readValue, byteOf_wordOfBytes, AccessSize.bytes]

/-- What a store writes, and where (R42, R54). -/
theorem Memory.read_writeValue_spec {m : List Host.Cell} (p : Nat) (v : Word) (size : AccessSize) (h : Memory.wf m) :
    (∀ k, k < size.bytes → Memory.read (Memory.writeValue m p v size) (p + k) = byteOf v k) ∧
    ∀ a, a < p ∨ p + size.bytes ≤ a → Memory.read (Memory.writeValue m p v size) a = Memory.read m a := by
  refine ⟨fun k hk => ?_, fun a ha => ?_⟩
  · rw [Memory.read_writeValue _ _ _ _ _ h, if_pos (by omega), Nat.add_sub_cancel_left]
  · rw [Memory.read_writeValue _ _ _ _ _ h, if_neg (by omega)]

/-- A call of an access's own size makes that access (R43). -/
theorem AccessSize.ofBytes_bytes (size : AccessSize) : AccessSize.ofBytes size.bytes = some size := by
  cases size <;> rfl

theorem State.hostReadMem_eq (s : State) (va : Word) (size : AccessSize) :
    s.hostReadMem va size.bytes = (s.memRead va size).answer s va := by
  rw [State.hostReadMem, AccessSize.ofBytes_bytes]

theorem State.hostWriteMem_eq (s : State) (va v : Word) (size : AccessSize) :
    s.hostWriteMem va size.bytes v = (s.memWrite va size v).answer s va := by
  rw [State.hostWriteMem, AccessSize.ofBytes_bytes]

/-- A failing call of the host raises with its address and answers failure (R252). -/
theorem State.hostReadMem_exc {s : State} {va : Word} {size : AccessSize} {e : ExcKind} (h : s.translate va size false = .exc e) :
    ∃ t, s.hostReadMem va size.bytes = .next (none, t) ∧ Raises e va s t := by
  rw [State.hostReadMem_eq, State.memRead_exc.mpr h]
  exact ⟨_, rfl, s.raises_raise e va⟩

theorem State.hostWriteMem_exc {s : State} {va v : Word} {size : AccessSize} {e : ExcKind} (h : s.translate va size true = .exc e) :
    ∃ t, s.hostWriteMem va size.bytes v = .next (none, t) ∧ Raises e va s t := by
  rw [State.hostWriteMem_eq, State.memWrite_exc.mpr h]
  exact ⟨_, rfl, s.raises_raise e va⟩

/-- A successful call of the host makes the engine's access and clears the returned exception (R53, R54). -/
theorem State.hostReadMem_ok {s u : State} {va : Word} {size : AccessSize} {p : Nat} (h : s.translate va size false = .ok p u) :
    s.hostReadMem va size.bytes = .next (some (Memory.readValue s.mem p size), { u with trap := none }) := by
  rw [State.hostReadMem_eq, State.memRead_ok.mpr ⟨p, h, rfl⟩]
  rfl

theorem State.hostWriteMem_ok {s u : State} {va : Word} {size : AccessSize} {p : Nat} (v : Word)
    (h : s.translate va size true = .ok p u) :
    s.hostWriteMem va size.bytes v = .next (some (), { u with mem := Memory.writeValue s.mem p v size, trap := none }) := by
  rw [State.hostWriteMem_eq, State.memWrite_ok.mpr ⟨p, u, h, rfl⟩]
  rfl

/-! ## The statements -/

/-- Settles O19. -/
theorem byteAndHalfwordLoads : Obligations.ByteAndHalfwordLoads := by
  unfold Obligations.ByteAndHalfwordLoads
  refine ⟨decodesRow (.lb 0 0 0), decodesRow (.lbu 0 0 0), decodesRow (.lh 0 0 0), decodesRow (.lhu 0 0 0),
    fun s u rt rs imm p h => ⟨?_, ?_⟩, fun s u rt rs imm p w h hw => ⟨?_, ?_⟩, fun s rt rs imm h => ⟨?_, ?_⟩⟩
  · exact State.loadInto_of_eq h (signedByte_read _)
  · exact State.loadInto_of_eq h (unsignedByte_read _)
  · exact State.loadInto_of_eq h (congrArg (BitVec.signExtend 32) (halfword_read _ _ w hw))
  · exact State.loadInto_of_eq h (congrArg (BitVec.setWidth 32) (halfword_read _ _ w hw))
  · exact State.reading_raises _ (State.translate_misaligned (z := .half) h)
  · exact State.reading_raises _ (State.translate_misaligned (z := .half) h)

/-- Settles O20. -/
theorem wordLoad : Obligations.WordLoad := by
  unfold Obligations.WordLoad
  refine ⟨decodesRow (.lw 0 0 0), fun s u rt rs imm p w h hw => ?_, fun s rt rs imm h => ?_⟩
  · have hread : Memory.readValue s.mem p .word = w := by
      apply BitVec.eq_of_toNat_eq
      rw [Memory.readValue, wordOfBytes_toNat, hw]
    exact State.loadInto_of_eq h hread
  · exact State.reading_raises _ (State.translate_misaligned (z := .word) h)

/-- Settles O21. -/
theorem mergingLoads : Obligations.MergingLoads := by
  unfold Obligations.MergingLoads
  refine ⟨decodesRow (.lwl 0 0 0), decodesRow (.lwr 0 0 0), fun s u rt rs imm p ea wa w base hea hwa hr hw hbase => ?_⟩
  subst hea hw hbase
  exact ⟨State.loadMerged_ok lwlMerge hwa hr, State.loadMerged_ok lwrMerge hwa hr⟩

/-- Settles O23. -/
theorem plainStores : Obligations.PlainStores := by
  unfold Obligations.PlainStores
  refine ⟨decodesRow (.sb 0 0 0), decodesRow (.sh 0 0 0), decodesRow (.sw 0 0 0), fun s u rt rs imm p hwf => ⟨?_, ?_, ?_⟩,
    fun s rt rs imm => ⟨fun h => ?_, fun h => ?_⟩⟩
  · exact State.storing_completes (size := .byte) hwf
  · exact State.storing_completes (size := .half) hwf
  · exact State.storing_completes (size := .word) hwf
  · exact State.storing_raises_of_exc (State.translate_misaligned (z := .half) h)
  · exact State.storing_raises_of_exc (State.translate_misaligned (z := .word) h)

/-- Settles O24: both halves go through one entry, so the write reaches the read's place or the entry is read-only. -/
theorem mergingStores : Obligations.MergingStores := by
  unfold Obligations.MergingStores
  refine ⟨decodesRow (.swl 0 0 0), decodesRow (.swr 0 0 0), fun s u rt rs imm p ea wa w hwf hea hwa hr hw => ?_⟩
  subst hea hw
  obtain ⟨hsame, hro⟩ := State.translate_write_after_read hr
  refine ⟨fun v q hv => ?_, fun e he => ?_⟩
  · obtain rfl := hsame q v hv
    exact ⟨rfl, State.storeMerged_ok swlMerge hwa hwf hr hv, State.storeMerged_ok swrMerge hwa hwf hr hv⟩
  · obtain rfl := hro e he
    exact ⟨rfl, State.storeMerged_write_exc swlMerge hwa hr he, State.storeMerged_write_exc swrMerge hwa hr he⟩

/-- Settles O25: each of these instructions is a data read, a data write, or one after the other. -/
theorem failingAccessRaises : Obligations.FailingAccessRaises := by
  unfold Obligations.FailingAccessRaises
  refine ⟨fun s e => step_raises_of_exc, fun s rt rs imm e ea wa hea hwa => ?_, fun s va v size e => ⟨?_, ?_⟩⟩
  · subst hea
    simp only [List.forall_mem_cons]
    refine ⟨fun h => ⟨State.reading_raises _ h, State.reading_raises _ h, List.forall_mem_nil _⟩,
      fun h => ⟨State.reading_raises _ h, State.reading_raises _ h, List.forall_mem_nil _⟩, State.reading_raises _,
      fun h => ⟨State.loadMerged_exc lwlMerge hwa h, State.loadMerged_exc lwrMerge hwa h, State.storeMerged_exc swlMerge hwa h,
        State.storeMerged_exc swrMerge hwa h, List.forall_mem_nil _⟩,
      State.storing_raises_of_exc, State.storing_raises_of_exc, State.storing_raises_of_exc, fun p u hr hw =>
      ⟨State.storeMerged_write_exc swlMerge hwa hr hw, State.storeMerged_write_exc swrMerge hwa hr hw, List.forall_mem_nil _⟩⟩
  · exact State.hostReadMem_exc
  · exact State.hostWriteMem_exc

/-- Settles O46. -/
theorem hostMemoryCalls : Obligations.HostMemoryCalls := by
  unfold Obligations.HostMemoryCalls
  refine ⟨fun s u va v size p e => ⟨State.hostReadMem_exc, State.hostWriteMem_exc, fun h => ?_, fun hwf h => ?_⟩, fun s p b hp =>
    ⟨if_pos hp, fun hwf => ?_⟩⟩
  · exact ⟨_, State.hostReadMem_ok h, fun k => byteOf_readValue_size s.mem p size⟩
  · obtain ⟨hin, hout⟩ := Memory.read_writeValue_spec p v size hwf
    exact ⟨_, State.hostWriteMem_ok v h, hin, hout, rfl⟩
  · refine ⟨_, if_pos hp, ?_, fun a ha => ?_, rfl⟩
    · exact (Memory.read_write s.mem p p b hwf).trans (if_pos rfl)
    · exact (Memory.read_write s.mem p a b hwf).trans (if_neg (by omega))

end Sys2Proof.Machine
end

section
/-! SUPPORT. The merge tables of LWL, LWR, SWL and SWR (43_loads_stores.md R164, R165): the two tables mirror each other, and under ARCH_LE
a pair of merging accesses moves an unaligned word. -/
namespace Sys2Proof.Machine

/-- Row b of IMPL is row 3 - b of ARCH_LE, in all four tables (R165). -/
theorem merge_impl_eq (b : BitVec 2) (base w v : Word) :
    lwlMerge .impl b base w = lwlMerge .archLE (3 - b) base w ∧ lwrMerge .impl b base w = lwrMerge .archLE (3 - b) base w ∧
    swlMerge .impl b w v = swlMerge .archLE (3 - b) w v ∧ swrMerge .impl b w v = swrMerge .archLE (3 - b) w v := by
  have hb : b = 0 ∨ b = 1 ∨ b = 2 ∨ b = 3 := by revert b; decide
  obtain rfl | rfl | rfl | rfl := hb <;> exact ⟨rfl, rfl, rfl, rfl⟩

/-- LWL at the last byte, then LWR at the first, leave the word's four bytes wherever it lies (R165). -/
theorem byteOf_lwr_lwl (m : List Host.Cell) (a : Nat) (base : Word) (k : Nat) (hk : k < 4) :
    byteOf (lwrMerge .archLE (BitVec.ofNat 2 a) (lwlMerge .archLE (BitVec.ofNat 2 (a + 3)) base
      (Memory.readValue m ((a + 3) / 4 * 4) .word)) (Memory.readValue m (a / 4 * 4) .word)) k = Memory.read m (a + k) := by
  rw [lwrMerge_byte _ _ _ _ hk, lwlMerge_byte _ _ _ _ hk]
  simp only [BitVec.toNat_ofNat]
  split
  · rw [byteOf_readValue _ _ _ (by omega)]
    congr 1
    omega
  · rw [if_pos (by omega), byteOf_readValue _ _ _ (by omega)]
    congr 1
    omega

section Store

variable {m : List Host.Cell} (p : Nat) (b : BitVec 2) (v : Word) (c : Nat) (hwf : Memory.wf m)

include hwf

/-- Storing the SWL merge writes the register's upper bytes up to byte b of the aligned word (R160). -/
theorem read_swl : Memory.read (Memory.writeValue m p (swlMerge .archLE b (Memory.readValue m p .word) v) .word) c =
    if p ≤ c ∧ c ≤ p + b.toNat then byteOf v (c + 3 - (p + b.toNat)) else Memory.read m c := by
  have hb := b.isLt
  rw [Memory.read_writeValue _ _ _ _ _ hwf]
  by_cases hc : p ≤ c ∧ c < p + AccessSize.word.bytes
  · rw [if_pos hc]
    dsimp only [AccessSize.bytes] at hc
    rw [swlMerge_byte _ _ _ _ (by omega), byteOf_readValue _ _ _ (by omega), show p + (c - p) = c by omega,
      show c - p + 3 - b.toNat = c + 3 - (p + b.toNat) by omega]
    congr 1
    simp only [eq_iff_iff]
    omega
  · rw [if_neg hc]
    dsimp only [AccessSize.bytes] at hc
    rw [if_neg (by omega)]

/-- Storing the SWR merge writes the register's lower bytes from byte b of the aligned word on (R161). -/
theorem read_swr : Memory.read (Memory.writeValue m p (swrMerge .archLE b (Memory.readValue m p .word) v) .word) c =
    if p + b.toNat ≤ c ∧ c < p + 4 then byteOf v (c - (p + b.toNat)) else Memory.read m c := by
  have hb := b.isLt
  rw [Memory.read_writeValue _ _ _ _ _ hwf]
  by_cases hc : p ≤ c ∧ c < p + AccessSize.word.bytes
  · rw [if_pos hc]
    dsimp only [AccessSize.bytes] at hc
    rw [swrMerge_byte _ _ _ _ (by omega), byteOf_readValue _ _ _ (by omega), show p + (c - p) = c by omega,
      show c - p - b.toNat = c - (p + b.toNat) by omega]
    congr 1
    simp only [eq_iff_iff]
    omega
  · rw [if_neg hc]
    dsimp only [AccessSize.bytes] at hc
    rw [if_neg (by omega)]

end Store

/-- Settles O22: byte by byte, by what each merge leaves of the word and of the register. -/
theorem mergeTablesMirrorAndAssemble : Obligations.MergeTablesMirrorAndAssemble := by
  unfold Obligations.MergeTablesMirrorAndAssemble
  refine ⟨fun b base w v k hk => ⟨?_, lwrMerge_byte b w base k hk, swlMerge_byte b w v k hk, swrMerge_byte b w v k hk⟩,
    merge_impl_eq, fun m a base => word_ext fun k hk => ?_, fun m m1 m2 a v hwf h1 h2 c => ?_⟩
  · rw [lwlMerge_byte b w base k hk]
    congr 1
    simp only [eq_iff_iff]
    omega
  · rw [byteOf_lwr_lwl m a base k hk]
    exact (byteOf_readValue m a k hk).symm
  · have hwf1 : Memory.wf m1 := h1 ▸ Memory.wf_writeValue _ _ _ _ hwf
    rw [h2, read_swr _ _ _ _ hwf1, h1, read_swl _ _ _ _ hwf]
    simp only [BitVec.toNat_ofNat]
    have hr : a / 4 * 4 + a % 2 ^ 2 = a := by omega
    have hl : (a + 3) / 4 * 4 + (a + 3) % 2 ^ 2 = a + 3 := by omega
    rw [hr, hl]
    by_cases hlow : a ≤ c ∧ c < a / 4 * 4 + 4
    · rw [if_pos hlow, if_pos (by omega)]
    · rw [if_neg hlow]
      by_cases hhigh : (a + 3) / 4 * 4 ≤ c ∧ c ≤ a + 3
      · rw [if_pos hhigh, if_pos (by omega), Nat.add_sub_add_right]
      · rw [if_neg hhigh, if_neg (by omega)]

end Sys2Proof.Machine
end

section
/-! SUPPORT. What every step does and leaves (10_state.md R30 to R34, 20_memory.md R62, 60_exceptions.md R242 to R255): by what an
instruction can do (`Effect`) and where a step raises. -/
namespace Sys2Proof.Machine

/-! ## Completed steps -/

/-- A finished step lands the load that was pending and runs the delay slot next (R32, R33). -/
theorem State.finish_lands {s v : State} (hl : v.load = s.load) (hv : v.loadValue = s.loadValue) (hn : v.nextPc = s.nextPc) (p : Word)
    (q : RegNum) (w : Word) : (v.finish p q w).pc = s.nextPc ∧
      (v.finish p q w).getX s.load = (if s.load = 0 then 0 else s.loadValue) := by
  refine ⟨hn, ?_⟩
  rw [State.getX_finish, hl, hv, if_pos rfl]

theorem exec_lands {i : Instr} {s t : State} (h : exec i s = .next t) (ht : t.trap = none) :
    t.pc = s.nextPc ∧ t.getX s.load = (if s.load = 0 then 0 else s.loadValue) := by
  cases exec_effect h with
  | raise u hu hs e a hc htr => rw [htr] at ht; cases ht
  | complete u hu rd v hi lo p q w hhl htr =>
    rw [htr]
    refine State.finish_lands ?_ ?_ ?_ p q w <;> · rw [hu.eq_entries]; rfl
  | store u hu hs va v size p w hw htr =>
    rw [htr]
    refine State.finish_lands ?_ ?_ ?_ _ _ _ <;> · rw [State.translate_eq hw, hu.eq_entries]

/-- Settles O31. -/
theorem completedStepsAdvanceAndCommit : Obligations.CompletedStepsAdvanceAndCommit := by
  unfold Obligations.CompletedStepsAdvanceAndCommit
  intro s t h ht
  have hprev : t.prevPc = s.pc := by
    cases step_leavesAddresses h with
    | completed _ hprev => exact hprev
    | raised x hx => rw [ht] at hx; cases hx
  obtain ⟨e, -, rfl⟩ | ⟨p, u, hu, ⟨e, -, rfl⟩ | ⟨i, -, hi⟩⟩ := step_next h
  · cases ht
  · cases ht
  · have hlands := exec_lands hi ht
    rw [State.translate_eq hu] at hlands
    exact ⟨hprev, hlands⟩

/-! ## Exceptions -/

/-- Of the entries of `s`, `u` has the `use` bits set of those `through` names, and nothing else changed. -/
def State.UseSet (s u : State) (through : EntryRef → Prop) : Prop :=
  ∀ r e, s.entryAt r = some e →
    (through r → u.entryAt r = some { e with use := true }) ∧ (¬ through r → u.entryAt r = some e)

theorem State.UseSet.refl {s : State} {P : EntryRef → Prop} (h : ∀ r, ¬ P r) : s.UseSet s P :=
  fun r _ he => ⟨fun hr => absurd hr (h r), fun _ => he⟩

theorem State.UseSet.trans {s u v : State} {P Q : EntryRef → Prop} (h : s.UseSet u P) (g : u.UseSet v Q) :
    s.UseSet v fun r => P r ∨ Q r := by
  intro r e he
  by_cases hP : P r
  · have hu := (h r e he).1 hP
    refine ⟨fun _ => ?_, fun hno => absurd (.inl hP) hno⟩
    by_cases hQ : Q r
    · exact (g r _ hu).1 hQ
    · exact (g r _ hu).2 hQ
  · have hu := (h r e he).2 hP
    exact ⟨fun hPQ => (g r e hu).1 (hPQ.resolve_left hP), fun hno => (g r e hu).2 fun hQ => hno (.inr hQ)⟩

theorem State.UseSet.congr {s u : State} {P Q : EntryRef → Prop} (h : s.UseSet u P) (hPQ : ∀ r, P r ↔ Q r) : s.UseSet u Q := by
  rwa [← funext fun r => propext (hPQ r)]

/-- A read that succeeds sets the `use` bit of the entry it goes through (R51). -/
theorem State.UseSet.read {s u : State} {va : Word} {size : AccessSize} {p : Nat} (h : s.translate va size false = .ok p u) :
    s.UseSet u fun r => ∃ e, s.lookup (s.vpnOf va) = .hit r e := by
  obtain ⟨-, q, d, hl, -, -, -, rfl⟩ := State.translate_ok h
  intro r e he
  rw [State.entryAt_touch, hl, he]
  constructor
  · rintro ⟨_, hd⟩
    injection hd with hqr
    exact if_pos hqr
  · intro hno
    refine if_neg fun hqr => hno ⟨d, ?_⟩
    rw [hqr]

section AfterRead

variable {s u : State} {va : Word} {size : AccessSize} {p : Nat} (h : s.translate va size false = .ok p u)

include h

/-- A lookup goes through the same place after a read as before it. -/
theorem State.lookup_through_read (v : Nat) (r : EntryRef) : (∃ e, u.lookup v = .hit r e) ↔ ∃ e, s.lookup v = .hit r e := by
  obtain ⟨-, q, e, -, -, -, -, rfl⟩ := State.translate_ok h
  rw [State.lookup_touch]
  cases s.lookup v <;> simp

/-- A read after a read succeeds exactly when it does without it. -/
theorem State.translate_after_read (va' : Word) (size' : AccessSize) :
    (∃ q v, u.translate va' size' false = .ok q v) ↔ ∃ q v, s.translate va' size' false = .ok q v := by
  obtain ⟨-, q, e, -, -, -, -, rfl⟩ := State.translate_ok h
  rw [State.translate_touch]
  cases s.translate va' size' false <;> simp

end AfterRead

section Fetched

variable {s u : State} {p : Nat} (h : s.translate s.pc .word false = .ok p u)

include h

theorem State.fetchedThrough_iff (r : EntryRef) : s.fetchedThrough r ↔ ∃ e, s.lookup (s.vpnOf s.pc) = .hit r e :=
  ⟨fun ⟨_, _, e, _, hl⟩ => ⟨e, hl⟩, fun ⟨e, hl⟩ => ⟨p, u, e, h, hl⟩⟩

/-- The step's SWL or SWR, its read at the state the fetch left, and the entry that goes through. -/
theorem State.mergeReadThrough_iff (r : EntryRef) : s.mergeReadThrough r ↔
    ∃ i rt rs imm, decode (Memory.readValue s.mem p .word) = .ok i ∧ (i = .swl rt imm rs ∨ i = .swr rt imm rs) ∧
      (∃ q v, u.translate (alignedDown (u.ea rs imm)) .word false = .ok q v) ∧
      ∃ e, u.lookup (u.vpnOf (alignedDown (u.ea rs imm))) = .hit r e := by
  have hea : ∀ rs imm, u.ea rs imm = s.ea rs imm := (Replays.of_read h).ea
  have hvpn : ∀ va, u.vpnOf va = s.vpnOf va := fun va => by rw [State.vpnOf, State.vpnOf, (Replays.of_read h).cfg]
  simp only [hea, hvpn, State.translate_after_read h, State.lookup_through_read h]
  constructor
  · rintro ⟨p', q, u', v, i, rt, rs, imm, wa, e, hp, hd, hi, hwa, hq, hl⟩
    rw [h] at hp
    injection hp with hpp
    obtain rfl := alignedDown_eq (s.ea rs imm) wa hwa
    rw [hpp]
    exact ⟨i, rt, rs, imm, hd, hi, ⟨q, v, hq⟩, e, hl⟩
  · rintro ⟨i, rt, rs, imm, hd, hi, ⟨q, v, hq⟩, e, hl⟩
    exact ⟨p, q, u, v, i, rt, rs, imm, _, e, h, hd, hi, alignedDown_toNat _, hq, hl⟩

end Fetched

/-- An instruction is a merging store of one base register and offset at most. -/
theorem merge_operands {i : Instr} {rt rs rt' rs' : RegNum} {imm imm' : BitVec 16} (h : i = .swl rt imm rs ∨ i = .swr rt imm rs)
    (h' : i = .swl rt' imm' rs' ∨ i = .swr rt' imm' rs') : rs = rs' ∧ imm = imm' := by
  obtain rfl | rfl := h <;> obtain h' | h' := h'
  all_goals cases h'
  all_goals exact ⟨rfl, rfl⟩

/-- Settles O33: the step's reads set `use` bits, one entry each, and it raises at the state the last of them left. -/
theorem exceptionsArePrecise : Obligations.ExceptionsArePrecise := by
  unfold Obligations.ExceptionsArePrecise
  intro s t x h ht
  obtain ⟨e, he, rfl⟩ | ⟨p, u, hu, hrest⟩ := step_next h
  · obtain ⟨rfl, hraised⟩ := State.raise_of_trap ht rfl
    refine ⟨s, rfl, .refl s, s.raises_raise e s.pc, State.UseSet.refl fun r => ?_⟩
    rintro (⟨p, u, d, hu, -⟩ | ⟨p, q, u, v, i, rt, rs, imm, wa, d, hu, -⟩) <;> · rw [he] at hu; cases hu
  · have hfetch := (State.UseSet.read hu).congr fun r => (State.fetchedThrough_iff hu r).symm
    have hmap := (State.translate_same hu).1
    obtain ⟨e, he, rfl⟩ | ⟨i, hi, hexec⟩ := hrest
    · obtain ⟨rfl, hraised⟩ := State.raise_of_trap ht rfl
      refine ⟨u, State.translate_eq hu, hmap, u.raises_raise .illegalInstr 0, hfetch.congr fun r => (or_iff_left ?_).symm⟩
      rw [State.mergeReadThrough_iff hu]
      rintro ⟨i, rt, rs, imm, hi, -⟩
      rw [he] at hi
      cases hi
    · obtain ⟨rfl, hno⟩ | ⟨rt, rs, imm, q, v, hmerge, hv, rfl⟩ := exec_raises hexec ht
      · refine ⟨u, State.translate_eq hu, hmap, u.raises_raise _ _, hfetch.congr fun r => (or_iff_left ?_).symm⟩
        rw [State.mergeReadThrough_iff hu]
        rintro ⟨j, rt, rs, imm, hj, hmerge, ⟨q, v, hv⟩, -⟩
        obtain rfl : i = j := by rw [hi] at hj; exact Except.ok.inj hj
        exact hno rt rs imm hmerge q v hv
      · refine ⟨v, ?_, hmap.trans (State.translate_same hv).1, v.raises_raise _ _,
          (hfetch.trans (State.UseSet.read hv)).congr fun r => or_congr_right ?_⟩
        · rw [State.translate_eq hv, State.translate_eq hu]
        · rw [State.mergeReadThrough_iff hu]
          constructor
          · exact fun hl => ⟨i, rt, rs, imm, hi, hmerge, ⟨q, v, hv⟩, hl⟩
          · rintro ⟨j, rt', rs', imm', hj, hmerge', -, hl⟩
            obtain rfl : i = j := by rw [hi] at hj; exact Except.ok.inj hj
            obtain ⟨rfl, rfl⟩ := merge_operands hmerge hmerge'
            exact hl

/-- Settles O34. -/
theorem executeRaisesOnlyItsKinds : Obligations.ExecuteRaisesOnlyItsKinds := by
  unfold Obligations.ExecuteRaisesOnlyItsKinds
  intro i s t x h ht
  cases exec_effect h with
  | complete u hu rd v hi lo p q w hhl htr => rw [htr] at ht; cases ht
  | store u hu hs va v size p w hw htr => rw [htr] at ht; cases ht
  | raise u hu hs e a hc htr =>
    obtain rfl : x = ⟨e, a⟩ := by rw [htr] at ht; exact (Option.some.inj ht).symm
    cases hc with
    | overflow a b c hi => exact .inl ⟨rfl, a, b, c, hi⟩
    | syscall hi => exact .inr (.inl ⟨rfl, hi⟩)
    | read size hi he => exact .inr (.inr (.inl ⟨hi, State.translate_read_exc he⟩))
    | write size hi he =>
      have hacc := accessesMemory_of_storesMemory hi
      obtain ⟨he, -⟩ | ⟨he, -⟩ | he | ⟨he, -⟩ | he := State.translate_exc he
      · exact .inr (.inr (.inl ⟨hacc, .inl he⟩))
      · exact .inr (.inr (.inl ⟨hacc, .inl he⟩))
      · exact .inr (.inr (.inl ⟨hacc, .inr (.inl he)⟩))
      · exact .inr (.inr (.inr ⟨hi, he⟩))
      · exact .inr (.inr (.inl ⟨hacc, .inr (.inr he)⟩))

/-! ## What is left -/

/-- Settles O36. -/
theorem onlyStoresWriteMemory : Obligations.OnlyStoresWriteMemory := by
  unfold Obligations.OnlyStoresWriteMemory
  intro i s t hi h a
  cases exec_effect h with
  | raise u hu hs e b hc htr => rw [htr, hu.eq_entries]; rfl
  | complete u hu rd v hi lo p q w hhl htr => rw [htr, hu.eq_entries]; rfl
  | store u hu hs => rw [hs] at hi; cases hi

theorem ReadFrom.same {i : Instr} {s u : State} (h : ReadFrom i s u) : SameMappings s u ∧ SameHostState s u := by
  obtain rfl | ⟨-, va, size, p, hu⟩ := h
  · exact ⟨.refl u, .refl u⟩
  · exact State.translate_same hu

theorem exec_same {i : Instr} {s t : State} (h : exec i s = .next t) : SameMappings s t ∧ SameHostState s t := by
  cases exec_effect h with
  | raise u hu hs e a hc htr =>
    obtain ⟨hm, hh⟩ := hu.same
    rw [htr]
    exact ⟨⟨hm.tlb, hm.spaces⟩, hh.trans ⟨rfl, rfl, rfl, rfl, rfl, rfl⟩⟩
  | complete u hu rd v hi lo p q w hhl htr =>
    obtain ⟨hm, hh⟩ := hu.same
    rw [htr]
    exact ⟨⟨hm.tlb, hm.spaces⟩, hh.trans ⟨rfl, rfl, rfl, rfl, rfl, rfl⟩⟩
  | store u hu hs va v size p w hw htr =>
    obtain ⟨hm, hh⟩ := hu.same
    obtain ⟨hm', hh'⟩ := State.translate_same hw
    have hmw := hm.trans hm'
    rw [htr]
    exact ⟨⟨hmw.tlb, hmw.spaces⟩, (hh.trans hh').trans ⟨rfl, rfl, rfl, rfl, rfl, rfl⟩⟩

/-- Settles O37. -/
theorem noInstructionWritesTranslationState : Obligations.NoInstructionWritesTranslationState := by
  unfold Obligations.NoInstructionWritesTranslationState
  intro s t h
  obtain ⟨e, -, rfl⟩ | ⟨p, u, hu, ⟨e, -, rfl⟩ | ⟨i, -, hi⟩⟩ := step_next h
  · exact ⟨⟨fun _ => rfl, fun _ => rfl⟩, ⟨rfl, rfl, rfl, rfl, rfl, rfl⟩⟩
  · obtain ⟨hm, hh⟩ := State.translate_same hu
    exact ⟨⟨hm.tlb, hm.spaces⟩, hh.trans ⟨rfl, rfl, rfl, rfl, rfl, rfl⟩⟩
  · obtain ⟨hm, hh⟩ := State.translate_same hu
    obtain ⟨hm', hh'⟩ := exec_same hi
    exact ⟨hm.trans hm', hh.trans hh'⟩

/-! ## Memory -/

/-- A byte an instruction changes was written through a valid, writable entry of the source at hand (R49, R50, R54). -/
theorem exec_writes {i : Instr} {s t : State} {a : Nat} (hwf : Memory.wf s.mem) (h : exec i s = .next t)
    (hne : Memory.read t.mem a ≠ Memory.read s.mem a) :
    ∃ u va size p w, SameMappings s u ∧ SameHostState s u ∧ u.translate va size true = .ok p w ∧ p ≤ a ∧ a < p + size.bytes := by
  cases hst : storesMemory i with
  | false => exact absurd (onlyStoresWriteMemory i s t hst h a) hne
  | true =>
    cases exec_effect h with
    | raise u hu hs e b hc htr => rw [htr, hu.eq_entries] at hne; exact absurd rfl hne
    | complete u hu rd v hi lo p q w hhl htr => rw [htr, hu.eq_entries] at hne; exact absurd rfl hne
    | store u hu hs va v size p w hw htr =>
      have hmem : u.mem = s.mem := by rw [hu.eq_entries]
      have hread : Memory.read t.mem a = _ := (congrArg (Memory.read ·.mem a) htr).trans
        (Memory.read_writeValue u.mem p a v size (hmem ▸ hwf))
      refine ⟨u, va, size, p, w, hu.same.1, hu.same.2, hw, ?_⟩
      by_contra hout
      rw [hread, if_neg hout, hmem] at hne
      exact hne rfl

/-- An access stays in the frame of the entry it goes through (R44, R52). -/
theorem State.frame_of_translate {s u : State} {va : Word} {size : AccessSize} {w : Bool} {p a : Nat}
    (h : s.translate va size w = .ok p u) (hle : p ≤ a) (hlt : a < p + size.bytes) :
    ∃ r e, s.lookup (s.vpnOf va) = .hit r e ∧ (w && e.readOnly) = false ∧ e.physicalPage = a / s.cfg.pageSize ∧ a < s.physSize := by
  obtain ⟨-, hend, hrange⟩ := State.translate_range h
  obtain ⟨-, r, e, hl, hro, -, hp, -⟩ := State.translate_ok h
  refine ⟨r, e, hl, hro, ?_, Nat.lt_of_lt_of_le hlt hrange⟩
  have hpage : p / s.cfg.pageSize = e.physicalPage := by
    rw [hp, State.offsetOf, Nat.mul_comm, Nat.mul_add_div s.cfg.pageSize_pos, Nat.div_eq_of_lt (Nat.mod_lt _ s.cfg.pageSize_pos), Nat.add_zero]
  have hlow := Nat.div_le_div_right (c := s.cfg.pageSize) hle
  have hhigh := Nat.div_le_div_right (c := s.cfg.pageSize) (Nat.le_sub_one_of_lt hlt)
  omega

/-- Settles O38. -/
theorem writesStayInWritableFrames : Obligations.WritesStayInWritableFrames := by
  unfold Obligations.WritesStayInWritableFrames
  intro s t a hwf h hne
  obtain ⟨e, -, rfl⟩ | ⟨q, v, hv, ⟨e, -, rfl⟩ | ⟨i, -, hi⟩⟩ := step_next h
  · exact absurd rfl hne
  · exact absurd (congrArg (Memory.read · a) (State.translate_mem hv)) hne
  · have hmem := State.translate_mem hv
    obtain ⟨u, va, size, p, w, hmu, hhu, hw, hle, hlt⟩ := exec_writes (hmem ▸ hwf) hi (hmem ▸ hne)
    obtain ⟨hmv, hhv⟩ := State.translate_same hv
    obtain ⟨hactive, hsize, -, -, -, hcfg⟩ := hhv.trans hhu
    obtain ⟨r, e, hl, hro, hpage, hlim⟩ := State.frame_of_translate hw hle hlt
    obtain ⟨he, hvalid, hsource⟩ := State.lookup_hit hl
    obtain ⟨d, hd, hde⟩ := (hmv.trans hmu).entryAt he
    have hdv : d.valid = e.valid := congrArg (·.valid) hde
    have hdr : d.readOnly = e.readOnly := congrArg (·.readOnly) hde
    have hdp : d.physicalPage = e.physicalPage := congrArg (·.physicalPage) hde
    rw [State.physSize, hcfg] at hlim
    rw [hcfg] at hpage hsource
    rw [hactive, hsize] at hsource
    refine ⟨hlim, r, d, hd, hdv.trans hvalid, hdr.trans (by simpa using hro), hdp.trans hpage, ?_⟩
    obtain ⟨htlb, j, hj, -⟩ | ⟨htable, id, hid, hact, hlt'⟩ := hsource
    · exact .inl ⟨htlb, j, hj⟩
    · exact .inr ⟨htable, id, _, hid, hact, hlt'⟩

/-! ## A step answers -/

theorem State.translationReady_of_read {s u : State} {va : Word} {size : AccessSize} {p : Nat} (hr : s.translationReady)
    (h : s.translate va size false = .ok p u) : u.translationReady := (Replays.of_read h).ready hr

section Answers

variable {s : State} (h : s.Inv) (hr : s.translationReady)

include h hr

/-- A data read answers where what follows it does. -/
theorem State.Inv.reading_answers {va : Word} {size : AccessSize} {k : Word → State → Result State}
    (hk : ∀ w u, u.Inv → u.translationReady → ∃ t, k w u = .next t) : ∃ t, s.reading va size k = .next t := by
  cases hu : s.translate va size false with
  | ok p u =>
    rw [State.reading_ok k hu]
    exact hk _ u (h.translate hu) (State.translationReady_of_read hr hu)
  | exc e => exact ⟨_, State.reading_exc k hu⟩
  | refused r => exact absurd hu (h.translate_ne_refused hr va size false r)

theorem State.Inv.storing_answers (va v : Word) (size : AccessSize) : ∃ t, s.storing va size v = .next t := by
  cases hu : s.translate va size true with
  | ok p u => exact ⟨_, State.storing_ok hu⟩
  | exc e => exact ⟨_, State.storing_exc hu⟩
  | refused r => exact absurd hu (h.translate_ne_refused hr va size true r)

end Answers

/-- Only the division that does not fit is refused (R143, U1). -/
theorem exec_div_answers (s : State) (rs rt : RegNum) :
    (∃ t, exec (.div rs rt) s = .next t) ∨ s.cfg.divOvf = .refuse ∧ exec (.div rs rt) s = .refused .divOverflow := by
  by_cases hz : s.getX rt = 0
  · exact .inl ⟨_, exec_div_zero hz rs⟩
  · cases hov : divOverflows (s.getX rs) (s.getX rt) with
    | false => exact .inl ⟨_, exec_div hz hov⟩
    | true =>
      rw [exec_div_overflow hov, State.divideOverflow]
      cases s.cfg.divOvf with
      | free => exact .inl ⟨_, rfl⟩
      | pair hi lo => exact .inl ⟨_, rfl⟩
      | refuse => exact .inr ⟨rfl, rfl⟩

theorem exec_divu_answers (s : State) (rs rt : RegNum) : ∃ t, exec (.divu rs rt) s = .next t := by
  by_cases hz : s.getX rt = 0
  · exact ⟨_, if_pos hz⟩
  · exact ⟨_, if_neg hz⟩

theorem State.writeUnlessOverflow_answers (s : State) (rd : RegNum) (c : Bool) (v : Word) :
    ∃ t, s.writeUnlessOverflow rd c v = .next t := by
  cases c <;> exact ⟨_, rfl⟩

/-- An instruction answers a next state, but for the division that does not fit. -/
theorem State.Inv.exec_answers {s : State} (h : s.Inv) (hr : s.translationReady) (i : Instr) :
    (∃ t, exec i s = .next t) ∨ s.cfg.divOvf = .refuse ∧ exec i s = .refused .divOverflow := by
  cases i
  case div rs rt => exact exec_div_answers s rs rt
  all_goals refine .inl ?_
  case divu rs rt => exact exec_divu_answers s rs rt
  case add | sub | addi => exact s.writeUnlessOverflow_answers _ _ _
  case lb | lbu | lh | lhu | lw | lwl | lwr => exact h.reading_answers hr fun _ _ _ _ => ⟨_, rfl⟩
  case sb | sh | sw => exact h.storing_answers hr _ _ _
  case swl | swr => exact h.reading_answers hr fun _ _ hu hru => hu.storing_answers hru _ _ _
  all_goals exact ⟨_, rfl⟩

/-- After reset nothing is mapped in TLB mode. -/
theorem State.lookup_resetWith {c : Params} (hc : c.useTlb = true) (v : Nat) : (State.resetWith c).lookup v = .miss .pageFault := by
  have hnone : (State.resetWith c).tlbFind v = none := List.find?_eq_none.mpr fun i _ => by
    rw [State.tlb_resetWith]
    simp [TranslationEntry.empty]
  have htlb : (State.resetWith c).cfg.useTlb = true := hc
  rw [State.lookup, if_pos htlb, State.lookupTlb, hnone]

/-- Settles O39. -/
theorem stepAlwaysAnswers : Obligations.StepAlwaysAnswers := by
  unfold Obligations.StepAlwaysAnswers
  refine ⟨fun s h hr => ?_, fun s => step_notReady, fun c hc => ?_⟩
  · cases hu : s.translate s.pc .word false with
    | exc e => exact .inl ⟨_, step_exc hr hu⟩
    | refused r => exact absurd hu (h.translate_ne_refused hr s.pc .word false r)
    | ok p u =>
      cases hd : decode (Memory.readValue s.mem p .word) with
      | error e => exact .inl ⟨_, step_of_decode_error hu hd⟩
      | ok i =>
        have hcfg : u.cfg = s.cfg := (State.translate_same hu).2.cfg
        rw [step_of_decode hu hd, ← hcfg]
        exact (h.translate hu).exec_answers (State.translationReady_of_read hr hu) i
  · refine step_raises_of_exc (.inl hc) ?_
    have hpc : AccessSize.word.aligned (State.resetWith c).pc = true := rfl
    rw [State.translate, if_pos hpc, State.lookup_resetWith hc]

end Sys2Proof.Machine
end

section
/-! SUPPORT. The lookups of the two modes (20_memory.md R47, R48) and the register port (10_state.md R11, R36). -/
namespace Sys2Proof.Machine

/-! ## Lookups -/

/-- An aligned access whose lookup finds nothing fails with what the lookup says (R44). -/
theorem State.translate_of_miss {s : State} {va : Word} {size : AccessSize} {e : ExcKind} (ha : va.toNat % size.bytes = 0)
    (hl : s.lookup (va.toNat / s.cfg.pageSize) = .miss e) (w : Bool) : s.translate va size w = .exc e := by
  rw [State.translate, if_pos ((size.aligned_iff va).mpr ha), State.vpnOf, hl]

section Installed

variable {s : State} {id v : Nat} {S : AddressSpace} (hu : s.cfg.useTlb = false) (ha : s.activeTable = some id)
  (hS : s.space id = some S)

include hu ha hS

/-- Beyond an installed page table the parameter names the exception (R47). -/
theorem State.lookup_beyond (hv : s.pageTableSize ≤ v) : s.lookup v = .miss (OorVpn.exception s.cfg.oorVpn) := by
  simp [State.lookup, State.lookupTable, State.activePageTable, hu, ha, hS, hv]

/-- Inside it the entry at the vpn is used when it is valid (R47). -/
theorem State.lookup_inside {e : TranslationEntry} (hv : v < s.pageTableSize) (he : S.pageTable[v]? = some e) :
    s.lookup v = if e.valid then .hit (.table id v) e else .miss .pageFault := by
  simp [State.lookup, State.lookupTable, State.activePageTable, hu, ha, hS, hv, he]

end Installed

/-- The scan of the TLB finds the entry of lowest index (R48). -/
theorem State.tlbFind_eq_some {s : State} {v : Nat} {i : Fin 4} (hv : s.tlb[i].valid = true) (hp : s.tlb[i].virtualPage = v)
    (hlow : ∀ j : Fin 4, j < i → ¬ (s.tlb[j].valid = true ∧ s.tlb[j].virtualPage = v)) : s.tlbFind v = some i := by
  have hsplit : ∀ k : Fin 4, tlbOrder = tlbOrder.take k ++ k :: tlbOrder.drop (k + 1) := by decide
  have hbefore : ∀ k : Fin 4, ∀ j ∈ tlbOrder.take k, j < k := by decide
  refine List.find?_eq_some_iff_append.mpr ⟨?_, _, _, hsplit i, fun j hj => ?_⟩
  · rw [hv, hp, Bool.true_and, beq_self_eq_true]
  · have hno := hlow j (hbefore i j hj)
    rwa [← beq_iff_eq (a := s.tlb[j].virtualPage), ← Bool.and_eq_true, Bool.not_eq_true, ← Bool.not_eq_true'] at hno

theorem State.lookup_tlb {s : State} (hu : s.cfg.useTlb = true) (v : Nat) : s.lookup v = s.lookupTlb v := if_pos hu

/-- Settles O42. -/
theorem pageTableModeLookup : Obligations.PageTableModeLookup := by
  unfold Obligations.PageTableModeLookup
  intro s id S va size w hu ha hS halign
  refine ⟨fun hbeyond => ?_, fun e hin he => ?_⟩
  · have hexc := State.translate_of_miss halign (State.lookup_beyond hu ha hS hbeyond) w
    exact ⟨fun hc => by rw [hexc, hc]; rfl, fun hc => by rw [hexc, hc]; rfl⟩
  · have hl := State.lookup_inside hu ha hS hin he
    refine ⟨fun hv => State.translate_of_miss halign (hl.trans (if_neg ?_)) w, fun hv => hl.trans (if_pos hv)⟩
    rw [hv]
    decide

/-- Settles O43. -/
theorem tlbModeLookup : Obligations.TlbModeLookup := by
  unfold Obligations.TlbModeLookup
  intro s va size w hu halign
  refine ⟨fun hnone => State.translate_of_miss halign ?_ w, fun i hv hp hlow => ?_⟩
  · have hfind : s.tlbFind (va.toNat / s.cfg.pageSize) = none :=
      List.find?_eq_none.mpr fun i _ => by simpa using hnone i
    rw [State.lookup_tlb hu, State.lookupTlb, hfind]
  · rw [State.lookup_tlb hu, State.lookupTlb, State.tlbFind_eq_some hv hp hlow]

/-! ## The register port -/

/-- The slots 32 to 39 in order (R11). -/
def State.upperSlots (s : State) : Vector Word 8 :=
  #v[s.hi, s.lo, s.pc, s.nextPc, s.prevPc, BitVec.ofNat 32 s.load.val, s.loadValue, s.badVAddr]

theorem State.readRegister_lower (s : State) (r : RegNum) : s.readRegister r = .next (s.getX r) := dif_pos r.isLt

theorem State.readRegister_upper (s : State) : ∀ k : Fin 8, s.readRegister (32 + k) = .next s.upperSlots[k.val]
  | 0 | 1 | 2 | 3 | 4 | 5 | 6 | 7 => rfl

theorem State.writeRegister_lower (s : State) (r : RegNum) (v : Word) : s.writeRegister r v = .next (s.setX r v) := dif_pos r.isLt

/-- A write of an upper slot sets it alone; `LOAD` takes register numbers only. -/
theorem State.writeRegister_upper (s : State) (v : Word) : ∀ k : Fin 8, (k = 5 → v.toNat < 32) →
    ∃ t, s.writeRegister (32 + k) v = .next t ∧ t.upperSlots = s.upperSlots.set k v ∧
      t = { s with
        hi := t.hi, lo := t.lo, pc := t.pc, nextPc := t.nextPc, prevPc := t.prevPc, load := t.load, loadValue := t.loadValue
        badVAddr := t.badVAddr }
  | 0, _ | 1, _ | 2, _ | 3, _ | 4, _ | 6, _ | 7, _ => ⟨_, rfl, rfl, rfl⟩
  | 5, hv => ⟨{ s with load := ⟨v.toNat, hv rfl⟩ }, dif_pos (hv rfl), by simp [State.upperSlots], rfl⟩

theorem State.port_of_ge (s : State) {i : Nat} (h : 40 ≤ i) (v : Word) :
    s.readRegister i = .refused (.badRegisterIndex i) ∧ s.writeRegister i v = .refused (.badRegisterIndex i) := by
  obtain ⟨k, rfl⟩ := Nat.exists_eq_add_of_le' h
  exact ⟨rfl, rfl⟩

/-- An index of the port is a general register's or an upper slot's. -/
theorem portIndex {i : Nat} (h : i < 40) : (∃ r : RegNum, i = r) ∨ ∃ k : Fin 8, i = 32 + k := by
  by_cases hi : i < 32
  · exact .inl ⟨⟨i, hi⟩, rfl⟩
  · exact .inr ⟨⟨i - 32, by omega⟩, (Nat.add_sub_cancel' (Nat.le_of_not_lt hi)).symm⟩

/-- Settles O45: an index is a general register's or an upper slot's, and so is the one it is compared with. -/
theorem registerPort : Obligations.RegisterPort := by
  unfold Obligations.RegisterPort
  refine ⟨fun s => ⟨s.readRegister_lower, rfl, rfl, rfl, rfl, rfl, rfl, rfl, rfl, rfl⟩, fun s i v hi hload => ?_,
    fun s v => rfl, fun s i v hi => s.port_of_ge hi v, fun s v hv => dif_neg (Nat.not_lt.mpr hv)⟩
  obtain ⟨i, rfl⟩ | ⟨k, rfl⟩ := portIndex hi
  · refine ⟨_, s.writeRegister_lower i v, fun j hj => ?_, rfl⟩
    obtain ⟨j, rfl⟩ | ⟨l, rfl⟩ := portIndex hj
    · rw [State.readRegister_lower, State.readRegister_lower, State.getX_setX]
      simp only [Fin.val_inj, ne_eq, Fin.val_eq_zero_iff]
      by_cases hz : j = 0
      · simp [hz, State.getX_zero]
      · simp only [hz, if_false, not_false_eq_true, and_true]
        split <;> rfl
    · rw [State.readRegister_upper, State.readRegister_upper, if_neg (by omega)]
      rfl
  · obtain ⟨t, ht, hslots, heq⟩ := s.writeRegister_upper v k fun hk => hload (by rw [hk]; rfl)
    refine ⟨t, ht, fun j hj => ?_, by rw [heq]⟩
    obtain ⟨j, rfl⟩ | ⟨l, rfl⟩ := portIndex hj
    · have hx : t.x = s.x := by rw [heq]
      rw [State.readRegister_lower, State.readRegister_lower, if_neg (by omega), State.getX_congr hx]
    · rw [State.readRegister_upper, State.readRegister_upper]
      rw [hslots, Vector.getElem_set]
      by_cases hkl : k = l
      · rw [if_pos (congrArg Fin.val hkl), if_pos ⟨by rw [hkl], by omega⟩]
      · rw [if_neg fun h => hkl (Fin.ext h), if_neg fun h => hkl (Fin.ext (by omega))]

end Sys2Proof.Machine
end

section
/-! SUPPORT. The clock, `Find` and eviction (50_frame_allocator.md R203 to R209): which frame the two passes name, what they leave of the
frames' entries, and what each stage of an eviction changes. -/
namespace Sys2Proof.Machine

/-! ## The clock's victim -/

/-- What pass 1 leaves of a frame's entry: everything but the `use` bit, which it may have cleared. -/
def State.Scanned (s u : State) : Prop :=
  ∀ f r e, s.frameEntry f = some (r, e) → ∃ b, u.frameEntry f = some (r, { e with use := b })

theorem State.Scanned.cleanFrame {s u : State} (h : s.Scanned u) {f : Nat} {r : EntryRef} {e : TranslationEntry}
    (he : s.frameEntry f = some (r, e)) : u.cleanFrame f = s.cleanFrame f := by
  obtain ⟨b, hb⟩ := h f r e he
  rw [State.cleanFrame, State.cleanFrame, he, hb]

/-- The frames of a scan exist. -/
theorem State.lt_of_mem_clockOrder {s : State} {f : Nat} (h : f ∈ s.clockOrder) : f < s.cfg.numPhysPages :=
  scanOrder_lt s.cfg.numPhysPages_pos h

section Full

variable {s : State} (h : s.Inv) (hfull : s.full)

include h hfull

theorem State.Inv.frameEntry_full {f : Nat} (hf : f < s.cfg.numPhysPages) : ∃ r e, s.frameEntry f = some (r, e) := by
  obtain ⟨c, hc⟩ := Option.ne_none_iff_exists'.mp (hfull f hf)
  obtain ⟨r, e, he, -⟩ := h.frameEntry_claimed hc
  exact ⟨r, e, he⟩

/-- Pass 1 over all frames, with what it leaves of each (R206). -/
theorem State.Inv.scanPass1_clockOrder : ∃ u, s.scanPass1 s.clockOrder = .next (s.clockOrder.find? s.unusedClean, u) ∧ s.Scanned u ∧
    (∀ f ∈ s.clockOrder.takeWhile (fun g => !s.unusedClean g),
      ∃ r e, s.frameEntry f = some (r, e) ∧ u.frameEntry f = some (r, { e with use := false })) ∧
    (∀ f ∈ s.clockOrder.dropWhile (fun g => !s.unusedClean g), u.frameEntry f = s.frameEntry f) ∧
    (∀ q, (∀ f ∈ s.clockOrder.takeWhile (fun g => !s.unusedClean g), ∀ e, s.frameEntry f ≠ some (q, e)) →
      u.entryAt q = s.entryAt q) := by
  obtain ⟨u, hu, hpassed, hother, hplaces⟩ :=
    h.scanPass1_spec s.clockOrder nodup_scanOrder fun f hf => hfull f (State.lt_of_mem_clockOrder hf)
  refine ⟨u, hu, fun f r e he => ?_, hpassed, fun f hf => hother f fun hf' => ?_, hplaces⟩
  · by_cases hf : f ∈ s.clockOrder.takeWhile fun g => !s.unusedClean g
    · obtain ⟨r', e', he', hu'⟩ := hpassed f hf
      rw [he] at he'
      cases he'
      exact ⟨false, hu'⟩
    · exact ⟨e.use, (hother f hf).trans he⟩
  · have hsplit : (s.clockOrder.takeWhile (fun g => !s.unusedClean g) ++ s.clockOrder.dropWhile fun g => !s.unusedClean g).Nodup := by
      rw [List.takeWhile_append_dropWhile]
      exact nodup_scanOrder
    exact List.disjoint_of_nodup_append hsplit hf' hf

/-- `SelectVictim` is pass 1 with the clock's victim remembered (R206, R207). -/
theorem State.Inv.selectVictim_of_scanPass1 {u : State} (hu : s.scanPass1 s.clockOrder = .next (s.clockOrder.find? s.unusedClean, u))
    (hscan : s.Scanned u) : s.selectVictim = .next (s.clockVictim, { u with lastVictim := s.clockVictim }) := by
  obtain ⟨hui, hue, -, -⟩ := State.scanPass1_next hu
  have hclaim (f : Nat) : u.claim f = s.claim f := State.claim_congr (by rw [hue]) f
  have hclean : s.clockOrder.find? u.cleanFrame = s.clockOrder.find? s.cleanFrame := List.find?_congr fun f hf => by
    obtain ⟨r, e, he⟩ := h.frameEntry_full hfull (State.lt_of_mem_clockOrder hf)
    exact hscan.cleanFrame he
  have hpass2 : u.scanPass2 s.clockOrder = .next (s.clockOrder.find? s.cleanFrame) := by
    rw [(hui h).scanPass2_spec s.clockOrder fun f hf => by rw [hclaim]; exact hfull f (State.lt_of_mem_clockOrder hf), hclean]
  unfold State.selectVictim State.clockVictim
  change Result.andThen (s.scanPass1 s.clockOrder) _ = _
  rw [hu, Result.andThen_apply]
  cases s.clockOrder.find? s.unusedClean with
  | some f => rfl
  | none =>
    change Result.andThen (u.scanPass2 s.clockOrder) _ = _
    rw [hpass2, Result.andThen_apply]
    cases s.clockOrder.find? s.cleanFrame <;> rfl

end Full

/-- Settles O49: what pass 1 leaves of the entries is what `SelectVictim` leaves, which only adds the victim's name. -/
theorem victimIsTheClocks : Obligations.VictimIsTheClocks := by
  unfold Obligations.VictimIsTheClocks
  intro s h hfull
  obtain ⟨u, hu, hscan, hpassed, hother, hplaces⟩ := h.scanPass1_clockOrder hfull
  have hsel := h.selectVictim_of_scanPass1 hfull hu hscan
  obtain ⟨hlt, -, heq, hmap⟩ := State.selectVictim_next hsel
  exact ⟨_, hsel, hlt, heq, hmap, hpassed, hother, hplaces⟩

/-! ## Find -/

theorem State.Inv.not_full_of_freeFrame {s : State} (h : s.Inv) {f : Nat} (hf : s.freeFrame = some f) : ¬ s.full := by
  obtain ⟨hlt, hfree, -⟩ := State.freeFrame_some hf
  exact fun hfull => hfull f (h.frames ▸ hlt) hfree

theorem State.Inv.full_of_freeFrame {s : State} (h : s.Inv) (hn : s.freeFrame = none) : s.full := by
  intro f hf hfree
  obtain ⟨c, hc⟩ := State.freeFrame_none hn f (h.frames ▸ hf)
  rw [hfree] at hc
  cases hc

theorem State.not_mem_of_unclaimed {s : State} {c : Claim} (h : ∀ f, s.claim f ≠ some c) : some c ∉ s.coremap := fun hm => by
  obtain ⟨g, hg⟩ := List.mem_iff_getElem?.mp hm
  exact h g (State.claim_some.mpr hg)

section Find

variable {s : State} {id v : Nat} {S : AddressSpace} (hS : s.space id = some S) (hv : v < S.numPages)
  (hno : ∀ f, s.claim f ≠ some { owner := id, vpn := v })

include hS hv hno

/-- `Find` for a pair that claims no frame takes the free frame there is (R204). -/
theorem State.find_of_free {f : Nat} (hf : s.freeFrame = some f) :
    s.find id v = .next (f, s.setClaim f (some { owner := id, vpn := v })) := by
  have hmem := State.not_mem_of_unclaimed hno
  unfold State.find
  simp only [hS, if_neg (Nat.not_le.mpr hv), if_neg hmem, hf]

/-- With no frame free it evicts the victim of the clock (R204). -/
theorem State.find_of_full (hf : s.freeFrame = none) : s.find id v =
    Result.andThen s.selectVictim fun p =>
      Result.andThen (p.2.evict p.1) fun t => .next (p.1, t.setClaim p.1 (some { owner := id, vpn := v })) := by
  have hmem := State.not_mem_of_unclaimed hno
  unfold State.find
  simp only [hS, if_neg (Nat.not_le.mpr hv), if_neg hmem, hf]

end Find

theorem SameMappings.swap {s u : State} (h : SameMappings s u) {id : Nat} {S : AddressSpace} (hS : s.space id = some S) :
    ∃ T, u.space id = some T ∧ T.swap = S.swap := by
  have hid := h.spaces id
  rw [hS] at hid
  obtain ⟨T, hT, hTS⟩ := Option.map_eq_some_iff.mp hid
  exact ⟨T, hT, congrArg (·.swap) hTS⟩

/-- Evicting the clock's victim answers, or is refused, by what its entry and its owner's store were before the scan (R209, U7). -/
theorem State.Inv.evict_victim {s : State} (h : s.Inv) (hfull : s.full) : ∃ u, s.selectVictim = .next (s.clockVictim, u) ∧
    ∃ c r e S, s.claim s.clockVictim = some c ∧ s.frameEntry s.clockVictim = some (r, e) ∧ s.space c.owner = some S ∧
      (e.dirty = true → S.swap = none → u.evict s.clockVictim = .refused (.noSwapStore c.owner)) ∧
      ((e.dirty = true → e.valid = true ∧ S.swap ≠ none) → ∃ w, u.evict s.clockVictim = .next w) := by
  obtain ⟨u, hu, hscan, -⟩ := h.scanPass1_clockOrder hfull
  have hsel := h.selectVictim_of_scanPass1 hfull hu hscan
  obtain ⟨hlt, hinv, heq, hmap⟩ := State.selectVictim_next hsel
  obtain ⟨c, hc⟩ := Option.ne_none_iff_exists'.mp (hfull _ hlt)
  obtain ⟨r, e, he, -⟩ := h.frameEntry_claimed hc
  obtain ⟨d, hd⟩ := Option.isSome_iff_exists.mp (h.claimed _ c hc)
  obtain ⟨S, hS, -⟩ := State.space_of_pte hd
  obtain ⟨T, hT, hswap⟩ := hmap.swap hS
  obtain ⟨b, hb⟩ := hscan _ r e he
  have hcu : ({ u with lastVictim := s.clockVictim } : State).claim s.clockVictim = some c :=
    (State.claim_congr (by rw [heq]) _).trans hc
  obtain ⟨hrefused, hanswers⟩ := (hinv h).evict_answers hcu hb hT
  rw [hswap] at hrefused hanswers
  exact ⟨_, hsel, c, r, e, S, hc, he, hS, hrefused, hanswers⟩

/-- `Find` answers where a frame is free or the victim can be evicted (R203, U7). -/
theorem State.Inv.find_answers {s : State} {id v : Nat} {S : AddressSpace} (h : s.Inv) (hS : s.space id = some S) (hv : v < S.numPages)
    (hno : ∀ f, s.claim f ≠ some { owner := id, vpn := v }) (hsave : s.full → s.victimSavable) :
    ∃ f t, s.find id v = .next (f, t) := by
  cases hf : s.freeFrame with
  | some f => exact ⟨_, _, State.find_of_free hS hv hno hf⟩
  | none =>
    have hfull := h.full_of_freeFrame hf
    obtain ⟨u, hsel, c, r, e, T, hc, he, hT, -, hanswers⟩ := h.evict_victim hfull
    obtain ⟨w, hw⟩ := hanswers fun hd => hsave hfull c r e T hc he hd hT
    rw [State.find_of_full hS hv hno hf, hsel, Result.andThen_apply, hw]
    exact ⟨_, _, rfl⟩

/-- Settles O48: `Find` answers by the free frame or by the victim's eviction, whose effects are those of the two stages. -/
theorem findNeverFails : Obligations.FindNeverFails := by
  unfold Obligations.FindNeverFails
  intro s id v S h hS hv hno
  refine ⟨fun hsave => ?_, fun c r e T hfull hc he hd hT hswap => ?_⟩
  · obtain ⟨f, t, ht⟩ := h.find_answers hS hv hno hsave
    obtain ⟨-, hlt, hclaim, hother, -⟩ := h.find ht
    obtain ⟨-, -, -, -, ⟨hf, rfl⟩ | ⟨u, w, hf, hu, hw, rfl⟩⟩ := State.find_next ht
    · obtain ⟨-, hfree, hlow⟩ := State.freeFrame_some hf
      exact ⟨f, _, ht, hlt, hclaim, fun _ => ⟨hfree, hlow, rfl⟩, fun hfull => absurd hfull (h.not_full_of_freeFrame hf), hother⟩
    · have hfull := h.full_of_freeFrame hf
      obtain ⟨u', hsel, c, -, -, -, hc, -⟩ := h.evict_victim hfull
      rw [hsel] at hu
      cases hu
      obtain ⟨-, hinv, heq, -⟩ := State.selectVictim_next hsel
      have hcu : u.claim s.clockVictim = some c := (State.claim_congr (by rw [heq]) _).trans hc
      obtain ⟨-, -, d, hpte, hd⟩ := (hinv h).evict hcu hw
      exact ⟨_, _, ht, hlt, hclaim, fun hn => absurd hfull hn, fun _ => ⟨rfl, c, d, hc, hpte, hd⟩, hother⟩
  · obtain ⟨u, hsel, c', r', e', T', hc', he', hT', hrefused, -⟩ := h.evict_victim hfull
    rw [hc] at hc'
    cases hc'
    rw [he] at he'
    cases he'
    rw [hT] at hT'
    cases hT'
    have hnone : s.freeFrame = none := by
      cases hf : s.freeFrame with
      | none => rfl
      | some f => exact absurd hfull (h.not_full_of_freeFrame hf)
    rw [State.find_of_full hS hv hno hnone, hsel, Result.andThen_apply, hrefused hd hswap]
    rfl

end Sys2Proof.Machine
end

section
/-! SUPPORT. Eviction in its three stages (50_frame_allocator.md R209): the live copy folded back, a dirty page written to swap, its entry
marked invalid. -/
namespace Sys2Proof.Machine

/-! ## The three stages -/

/-- What folding a claimed frame's live copy back changes: the page's entry becomes the frame's, and the copy, if there was one, invalid. -/
structure State.Folded (s : State) (c : Claim) (r : EntryRef) (e : TranslationEntry) (u : State) : Prop where
  inv : u.Inv
  eq : u = { s with tlb := u.tlb, spaces := u.spaces }
  page : u.pte c.owner c.vpn = some e
  otherPages : ∀ j w, (j, w) ≠ (c.owner, c.vpn) → u.pte j w = s.pte j w
  tlb : ∀ i : Fin 4, u.tlb[i] = if r = .tlb i then { s.tlb[i] with valid := false } else s.tlb[i]
  otherSpaces : ∀ j, j ≠ c.owner → u.space j = s.space j
  owner : ∀ S, s.space c.owner = some S → ∃ U, u.space c.owner = some U ∧ U = { S with pageTable := U.pageTable }

/-- What writing the page to its owner's store changes, when its entry is dirty, and that nothing changes when it is not. -/
structure State.Saved (u : State) (c : Claim) (e : TranslationEntry) (w : State) : Prop where
  pages : ∀ j v, w.pte j v = u.pte j v
  tlb : w.tlb = u.tlb
  otherSpaces : ∀ j, j ≠ c.owner → w.space j = u.space j
  owner : ∀ U, u.space c.owner = some U → ∃ W, w.space c.owner = some W ∧ W = { U with swap := W.swap, inSwap := W.inSwap } ∧
    (e.dirty = true → ∃ old, U.swap = some old ∧ W.inSwap = U.inSwap.set c.vpn true ∧
      W.swap = some (Memory.writeBytes old (c.vpn * u.cfg.pageSize) (u.frameBytes e.physicalPage))) ∧
    (e.dirty = false → W.swap = U.swap ∧ W.inSwap = U.inSwap)

theorem State.Inv.folded {s u : State} {f : Nat} {c : Claim} {r : EntryRef} {e : TranslationEntry} (h : s.Inv) (hc : s.claim f = some c)
    (he : s.frameEntry f = some (r, e))
    (hu : (s.tlbResident c = none ∧ u = s) ∨ ∃ i, s.tlbResident c = some i ∧ s.flushTlb i = .next u) : s.Folded c r e u := by
  unfold State.frameEntry at he
  rw [hc] at he
  obtain ⟨hn, rfl⟩ | ⟨i, hi, hflush⟩ := hu
  · simp only [hn, Option.map_eq_some_iff, Prod.mk.injEq] at he
    obtain ⟨d, hd, rfl, rfl⟩ := he
    exact
      { inv := h
        eq := rfl
        page := hd
        otherPages := fun _ _ _ => rfl
        tlb := fun i => by rw [if_neg (by simp)]
        otherSpaces := fun _ _ => rfl
        owner := fun S hS => ⟨S, hS, rfl⟩ }
  · simp only [hi, Option.some.injEq, Prod.mk.injEq] at he
    obtain ⟨rfl, rfl⟩ := he
    obtain ⟨htlb, hcur, hvalid, hpage⟩ := State.tlbResident_some hi
    exact
      { inv := h.flushTlb htlb hflush
        eq := State.flushTlb_eq hflush
        page := by rw [State.flushTlb_pte hflush, if_pos ⟨hvalid, hcur, hpage⟩]
        otherPages := fun j w hjw => by
          rw [State.flushTlb_pte hflush, if_neg]
          rintro ⟨-, hj, hw⟩
          rw [hcur] at hj
          cases hj
          exact hjw (by rw [← hw, hpage])
        tlb := fun j => by rw [State.flushTlb_tlb hflush]; simp only [EntryRef.tlb.injEq]
        otherSpaces := fun j hj => State.flushTlb_otherSpace hflush hcur hj
        owner := fun S hS => by
          have hsp := State.flushTlb_space hflush c.owner
          rw [hS] at hsp
          obtain ⟨U, hU, hUS⟩ := Option.map_eq_some_iff.mp hsp
          exact ⟨U, hU, congrArg (fun T : AddressSpace => { T with pageTable := U.pageTable }) hUS⟩ }

theorem State.Saved.of_clean {u : State} {c : Claim} {e : TranslationEntry} (h : e.dirty = false) : u.Saved c e u where
  pages _ _ := rfl
  tlb := rfl
  otherSpaces _ _ := rfl
  owner U hU := by
    refine ⟨U, hU, rfl, fun hd => ?_, fun _ => ⟨rfl, rfl⟩⟩
    rw [h] at hd
    cases hd

theorem State.Saved.of_dirty {u w : State} {c : Claim} {e : TranslationEntry} (hd : e.dirty = true)
    (he : u.pte c.owner c.vpn = some e) (hw : u.saveToSwap c.owner c.vpn = .next w) : u.Saved c e w := by
  obtain ⟨U, e', old, hU, he', hold, hspace⟩ := State.saveToSwap_space hw
  obtain rfl : e = e' := by rw [he] at he'; exact Option.some.inj he'
  exact
    { pages := State.saveToSwap_pte hw
      tlb := by rw [State.saveToSwap_eq hw]
      otherSpaces := fun j hj => (hspace j).trans (if_neg hj)
      owner := fun U' hU' => by
        obtain rfl : U = U' := by rw [hU] at hU'; exact Option.some.inj hU'
        refine ⟨_, (hspace _).trans (if_pos rfl), rfl, fun _ => ⟨old, hold, rfl, rfl⟩, fun hn => ?_⟩
        rw [hd] at hn
        cases hn }

/-- The frame of a claimed page that is resident is the frame claimed (R202). -/
theorem State.Folded.frame {s u : State} {f : Nat} {c : Claim} {r : EntryRef} {e : TranslationEntry} (h : s.Folded c r e u)
    (hc : s.claim f = some c) (hv : e.valid = true) : e.physicalPage = f := by
  have hcu : u.claim f = some c := (State.claim_congr (by rw [h.eq]) f).trans hc
  obtain ⟨-, hown⟩ := h.inv.owned _ _ _ h.page hv
  exact h.inv.oneFrame _ _ _ hown hcu

/-- Bytes written to a store at a page's place are read back there, and the others are as before (R221). -/
theorem Memory.readBytes_page {m : List Host.Cell} (hwf : Memory.wf m) {bs : List Byte} {n : Nat} (hn : bs.length = n) (p : Nat) :
    Memory.readBytes (Memory.writeBytes m p bs) p n = bs ∧
      ∀ a, a < p ∨ p + n ≤ a → Memory.read (Memory.writeBytes m p bs) a = Memory.read m a := by
  subst hn
  exact ⟨Memory.readBytes_writeBytes bs m p hwf, fun a ha => Memory.read_writeBytes_outside bs m p a hwf ha⟩

theorem State.length_frameBytes (s : State) (f : Nat) : (s.frameBytes f).length = s.cfg.pageSize :=
  Memory.length_readBytes s.cfg.pageSize s.mem _

/-! ## The statement -/

/-- Settles O50: the three stages put together. -/
theorem evictionEffects : Obligations.EvictionEffects := by
  unfold Obligations.EvictionEffects
  intro s f c r e S h hc he hv hS
  obtain ⟨hrefused, hanswers⟩ := h.evict_answers hc he hS
  refine ⟨hrefused, fun hsave => ?_⟩
  obtain ⟨t, ht⟩ := hanswers fun hd => ⟨hv, hsave.resolve_left (by rw [hd]; decide)⟩
  obtain ⟨-, heq, -⟩ := h.evict hc ht
  obtain ⟨u, e', w, hu, he', hw, rfl⟩ := State.evict_next hc ht
  have hfold := h.folded hc he hu
  obtain rfl : e = e' := by rw [hfold.page] at he'; exact Option.some.inj he'
  have hsaved : u.Saved c e w := by
    obtain ⟨hd, rfl⟩ | ⟨hd, hs⟩ := hw
    · exact .of_clean hd
    · exact .of_dirty hd he' hs
  obtain ⟨U, hU, hUS⟩ := hfold.owner S hS
  obtain ⟨W, hW, hWU, hdirty, hclean⟩ := hsaved.owner U hU
  have hcfg : u.cfg = s.cfg := by rw [hfold.eq]
  have htlb (i : Fin 4) : (w.modifyEntry (.table c.owner c.vpn) fun d => { d with valid := false }).tlb[i] = u.tlb[i] := by
    rw [State.tlb_modifyEntry, if_neg (by simp), hsaved.tlb]
  refine ⟨_, { W with pageTable := W.pageTable.modify c.vpn fun d => { d with valid := false } }, ht, ?_, ?_, fun hu' hcur => ?_,
    fun i => (htlb i).trans (hfold.tlb i), fun j v hjv => ?_, fun j hj => ?_, ?_, fun hd => ?_, fun hd => ?_, heq⟩
  · rw [State.space_modifyEntry, hW]
    exact if_pos rfl
  · rw [State.pte_modifyEntry, if_pos rfl, hsaved.pages, he']
    rfl
  · refine List.find?_eq_none.mpr fun i _ => ?_
    rw [htlb, Bool.and_eq_true, beq_iff_eq]
    exact h.no_copy hu hu' hcur i
  · rw [State.pte_modifyEntry, if_neg, hsaved.pages, hfold.otherPages j v hjv]
    rintro heq
    cases heq
    exact hjv rfl
  · rw [State.space_modifyEntry]
    exact (if_neg hj).trans ((hsaved.otherSpaces j hj).trans (hfold.otherSpaces j hj))
  · rw [hWU, hUS]
  · obtain ⟨old, hold, hflag, hstore⟩ := hdirty hd
    have holdS : S.swap = some old := by rw [← hold, hUS]
    have hflagS : W.inSwap = S.inSwap.set c.vpn true := by rw [hflag, hUS]
    have hbytes : u.frameBytes e.physicalPage = s.frameBytes f := by
      rw [hfold.frame hc hv, hfold.eq]
      rfl
    obtain ⟨hin, hout⟩ := Memory.readBytes_page ((h.spaces _ S hS).swap old holdS) (s.length_frameBytes f) (c.vpn * s.cfg.pageSize)
    rw [hcfg, hbytes] at hstore
    refine ⟨old, _, holdS, hstore, hflagS, ?_, hin, hout⟩
    have hlt : c.vpn < S.inSwap.length := by
      obtain ⟨d, hd⟩ := Option.isSome_iff_exists.mp (h.claimed f c hc)
      obtain ⟨S', hS', hlt⟩ := h.lt_of_pte hd
      rw [hS] at hS'
      cases hS'
      exact (h.spaces _ S hS).flags ▸ hlt
    simp [hflagS, hlt]
  · obtain ⟨hswap, hflag⟩ := hclean hd
    refine ⟨?_, ?_⟩
    · exact hswap.trans (by rw [hUS])
    · exact hflag.trans (by rw [hUS])

end Sys2Proof.Machine
end

section
/-! SUPPORT. Swap, loading, context switch, fault resolution and destruction (50_frame_allocator.md R212 to R225): what each operation
leaves, by what it can do when it answers. -/
namespace Sys2Proof.Machine

/-! ## Frames and swap stores -/

/-- A filled frame holds what it was filled with. -/
theorem State.frameBytes_fillFrame {s : State} (hwf : Memory.wf s.mem) (f : Nat) {bytes : List Byte} (hb : bytes.length = s.cfg.pageSize) :
    (s.fillFrame f bytes).frameBytes f = bytes :=
  (Memory.readBytes_page hwf hb (f * s.cfg.pageSize)).1

/-- Settles O51: the store holds at the page's place what the frame held, and that fills the other frame. -/
theorem swapRoundTrip : Obligations.SwapRoundTrip := by
  unfold Obligations.SwapRoundTrip
  intro s t u id v f e h he hs hl
  obtain ⟨S, e', old, hS, he', hold, hspace⟩ := State.saveToSwap_space hs
  obtain rfl : e = e' := by rw [he] at he'; exact Option.some.inj he'
  have heq := State.saveToSwap_eq hs
  have hcfg : t.cfg = s.cfg := by rw [heq]
  have hmem : t.mem = s.mem := by rw [heq]
  obtain ⟨T, store, hT, hstore, -, rfl⟩ := State.loadFromSwap_next hl
  rw [hspace, if_pos rfl] at hT
  cases hT
  cases hstore
  rw [State.frameBytes_fillFrame (hmem ▸ h.memory) f (Memory.length_readBytes _ _ _), hcfg]
  exact (Memory.readBytes_page ((h.spaces id S hS).swap old hold) (s.length_frameBytes e.physicalPage) (v * s.cfg.pageSize)).1

/-! ## Loading -/

theorem AddressSpace.getElem?_imagePage (S : AddressSpace) {n k : Nat} (v : Nat) (hk : k < n) :
    (S.imagePage n v)[k]? = some (S.imageByte (v * n + k)) := by
  simp [AddressSpace.imagePage, hk]

theorem Segment.contains_iff (g : Segment) (a : Nat) : g.contains a = true ↔ g.virtualAddress ≤ a ∧ a < g.virtualAddress + g.size := by
  rw [Segment.contains, Bool.and_eq_true, decide_eq_true_iff, decide_eq_true_iff]

/-- Settles O52: the frame `Find` answered is filled with the image page, and the entry names it. -/
theorem loadSegmentFillsThePage : Obligations.LoadSegmentFillsThePage := by
  unfold Obligations.LoadSegmentFillsThePage
  intro s t id va S h hS ht
  obtain ⟨S', f, u, hS', hfind, rfl⟩ := State.loadSegment_next ht
  obtain rfl : S = S' := by rw [hS] at hS'; exact Option.some.inj hS'
  obtain ⟨hu, hf, hclaim, -, ⟨d, hd⟩, hkept, -⟩ := h.find hfind
  refine ⟨f, hf, hclaim, ?_, fun k a hk ha => ?_⟩
  · have hpage : (u.fillFrame f (S.imagePage s.cfg.pageSize (va / s.cfg.pageSize))).pte id (va / s.cfg.pageSize) = some d := hd
    rw [State.pte_setPte, if_pos ⟨rfl, rfl⟩, hpage]
    rfl
  · change Memory.read (Memory.writeBytes u.mem (f * u.cfg.pageSize) (S.imagePage s.cfg.pageSize (va / s.cfg.pageSize))) _ = _
    rw [hkept.cfg, Memory.read_writeBytes _ _ _ _ hu.memory, if_pos ⟨Nat.le_add_right _ _, by rw [S.length_imagePage]; omega⟩,
      Nat.add_sub_cancel_left, S.getElem?_imagePage _ hk, ← ha]
    simp only [Option.getD_some, AddressSpace.imageByte, Segment.contains_iff]
    rfl

/-! ## Context switch -/

/-- What flushing the TLB entries of a list leaves: they are invalid and the valid ones folded back into the current space; the other
entries are as before, and so are the pages that no valid one of them maps. -/
structure State.Flushed (s : State) (is : List (Fin 4)) (t : State) : Prop where
  tlb : ∀ j : Fin 4, t.tlb[j] = if j ∈ is then { s.tlb[j] with valid := false } else s.tlb[j]
  folded : ∀ i ∈ is, ∀ id, s.currentSpace = some id → s.tlb[i].valid = true → t.pte id s.tlb[i].virtualPage = some s.tlb[i]
  others : ∀ id w, (∀ i ∈ is, ¬ (s.tlb[i].valid = true ∧ s.tlb[i].virtualPage = w)) → t.pte id w = s.pte id w

/-- Flushing one entry, then the rest. -/
theorem State.Flushed.cons {s u t : State} {i : Fin 4} {is : List (Fin 4)} (h : s.Inv) (htlb : s.cfg.useTlb = true)
    (hi : s.flushTlb i = .next u) (his : u.Flushed is t) : s.Flushed (i :: is) t := by
  have hu := State.flushTlb_tlb hi
  have hcur : u.currentSpace = s.currentSpace := by rw [State.flushTlb_eq hi]
  have hother {j : Fin 4} (hj : i ≠ j) : u.tlb[j] = s.tlb[j] := (hu j).trans (if_neg hj)
  have hinvalid : u.tlb[i].valid = false := by rw [hu, if_pos rfl]
  refine ⟨fun j => ?_, fun j hj id hid hv => ?_, fun id w hw => ?_⟩
  · by_cases hij : i = j
    · have hmem : j ∈ i :: is := hij ▸ List.mem_cons_self
      rw [if_pos hmem, his.tlb, hu, if_pos hij]
      exact ite_self _
    · rw [his.tlb, hother hij]
      simp only [List.mem_cons, Ne.symm hij, false_or]
  · by_cases hij : i = j
    · subst hij
      rw [his.others id, State.flushTlb_pte hi, if_pos ⟨hv, hid, rfl⟩]
      rintro k - ⟨hk, hpage⟩
      have hik : i ≠ k := fun hik => by rw [← hik, hinvalid] at hk; cases hk
      rw [hother hik] at hk hpage
      exact hik (h.tlbDistinct htlb i k hv hk hpage.symm)
    · have hfold := his.folded j ((List.mem_cons.mp hj).resolve_left (Ne.symm hij)) id (hcur.trans hid)
      rw [hother hij] at hfold
      exact hfold hv
  · rw [his.others id w, State.flushTlb_pte hi, if_neg fun hiw => hw i List.mem_cons_self ⟨hiw.1, hiw.2.2⟩]
    rintro k hk ⟨hv, hpage⟩
    have hik : i ≠ k := fun hik => by rw [← hik, hinvalid] at hv; cases hv
    rw [hother hik] at hv hpage
    exact hw k (List.mem_cons_of_mem i hk) ⟨hv, hpage⟩

/-- Under the invariant every flush of a list answers (R223). -/
theorem State.Inv.flushAll_answers (is : List (Fin 4)) {s : State} (h : s.Inv) (htlb : s.cfg.useTlb = true) :
    ∃ t, s.flushAll is = .next t ∧ s.Flushed is t := by
  induction is generalizing s with
  | nil => exact ⟨s, rfl, fun _ => rfl, nofun, fun _ _ _ => rfl⟩
  | cons i is ih =>
    obtain ⟨u, hu⟩ := h.flushTlb_answers htlb i
    have hcfg : u.cfg = s.cfg := by rw [State.flushTlb_eq hu]
    obtain ⟨t, ht, hflushed⟩ := ih (h.flushTlb htlb hu) (hcfg ▸ htlb)
    exact ⟨t, Result.andThen_next.mpr ⟨u, hu, ht⟩, hflushed.cons h htlb hu⟩

/-- With no valid TLB entry any space can be switched in (R224). -/
theorem State.restoreState_flushed {t : State} {id : Nat} {S : AddressSpace} (htlb : t.cfg.useTlb = true)
    (hinvalid : ∀ i : Fin 4, t.tlb[i].valid = false) (hS : t.space id = some S) :
    t.restoreState id = .next { t with currentSpace := some id } := by
  have hnone : t.tlbHasValid = false := List.any_eq_false.mpr fun i _ => by rw [hinvalid]; decide
  unfold State.restoreState
  simp [hS, htlb, hnone]

/-- Settles O54. -/
theorem contextSwitch : Obligations.ContextSwitch := by
  unfold Obligations.ContextSwitch
  refine ⟨fun s h htlb => ?_, fun s id S htlb hS => ?_⟩
  · obtain ⟨t, ht, hflushed⟩ := h.flushAll_answers tlbOrder htlb
    have hcfg := (h.flushAll htlb ht).2
    have hinvalid (i : Fin 4) : t.tlb[i].valid = false := by rw [hflushed.tlb, if_pos (mem_tlbOrder i)]
    exact ⟨t, (if_pos htlb).trans ht, hinvalid, fun i => hflushed.folded i (mem_tlbOrder i),
      fun id S => State.restoreState_flushed (hcfg ▸ htlb) hinvalid⟩
  · have hnot : ¬ s.cfg.useTlb = true := by rw [htlb]; decide
    refine ⟨if_neg hnot, ?_⟩
    unfold State.restoreState
    simp [hS, htlb]

/-! ## Resolution of a page fault -/

/-- Under the invariant a byte read whose lookup finds an entry succeeds (R49, R50). -/
theorem State.Inv.byteRead_of_hit {t : State} {va : Word} {r : EntryRef} {e : TranslationEntry} (h : t.Inv)
    (hl : t.lookup (va.toNat / t.cfg.pageSize) = .hit r e) : ∃ p u, t.translate va .byte false = .ok p u :=
  ⟨_, _, State.translate_hit_ok (Nat.mod_one _) hl (.inl rfl) (h.hit_frame hl)⟩

/-- A valid TLB entry of the vpn is found, or one before it (R48). -/
theorem State.lookup_of_tlb {t : State} (htlb : t.cfg.useTlb = true) {v : Nat} {i : Fin 4} (hv : t.tlb[i].valid = true)
    (hp : t.tlb[i].virtualPage = v) : ∃ r e, t.lookup v = .hit r e := by
  cases hfind : t.tlbFind v with
  | none => exact absurd ⟨hv, hp⟩ (State.tlbFind_none hfind i)
  | some j => exact ⟨.tlb j, t.tlb[j], by rw [State.lookup_tlb htlb, State.lookupTlb, hfind]⟩

/-- A valid entry of the active table is found (R47). -/
theorem State.Inv.lookup_of_table {t : State} (h : t.Inv) (htable : t.cfg.useTlb = false) {id v : Nat} (hactive : t.activeTable = some id)
    {e : TranslationEntry} (he : t.pte id v = some e) (hv : e.valid = true) : t.lookup v = .hit (.table id v) e := by
  obtain ⟨S, hS, hlt⟩ := h.lt_of_pte he
  obtain ⟨T, hT, hsize⟩ := h.table id hactive
  obtain rfl : S = T := by rw [hS] at hT; exact Option.some.inj hT
  rw [State.pte_of_space hS] at he
  exact (State.lookup_inside htable hactive hS (hsize ▸ hlt) he).trans (if_pos hv)

/-- What the fault's resolution did before the refill: the page's entry is valid, and only what eviction and loading reach changed. -/
theorem State.Inv.resident_of_pageFault {s u : State} {id v : Nat} (h : s.Inv)
    (hu : ((∃ e, s.pte id v = some e ∧ e.valid = true) ∧ u = s) ∨ s.pageIn id v = .next u) :
    u.Inv ∧ Kept s u ∧ ∃ e, u.pte id v = some e ∧ e.valid = true := by
  obtain ⟨he, rfl⟩ | hin := hu
  · exact ⟨h, .refl u, he⟩
  · obtain ⟨hi, hk, -, f, -, he⟩ := h.pageIn hin
    exact ⟨hi, hk, _, he, rfl⟩

/-- Settles O55: the page's entry is valid in the active table, or has just been put in the TLB. -/
theorem pageFaultIsResolved : Obligations.PageFaultIsResolved := by
  unfold Obligations.PageFaultIsResolved
  intro s t va slot h hactive ht
  have hti := h.onPageFault ht
  obtain ⟨id, -, hcur, -, ⟨-, hc, -⟩ | ⟨-, -, u, hu, hrest⟩⟩ := State.onPageFault_next ht
  · cases hc
  obtain ⟨hui, hkept, e, he, hev⟩ := h.resident_of_pageFault hu
  obtain ⟨hpc, hnext⟩ := hkept.pcs
  obtain ⟨htlb, hrefill⟩ | ⟨htable, rfl⟩ := hrest
  · obtain ⟨_, w, d, -, hflush, hd, hdv, -, rfl⟩ := State.refillTlb_next hrefill
    have hw := State.flushTlb_eq hflush
    have hwi := hui.flushTlb htlb hflush
    have hcfg : w.cfg = s.cfg := by rw [hw, hkept.cfg]
    have hslot : (w.modifyEntry (.tlb slot) fun _ => d).tlb[slot] = d := by rw [State.tlb_modifyEntry, if_pos rfl]
    refine ⟨?_, ?_, ?_⟩
    · obtain ⟨r, c, hl⟩ := State.lookup_of_tlb (t := w.modifyEntry (.tlb slot) fun _ => d) (i := slot) (v := s.vpnOf va)
        (by rw [State.modifyEntry_cfg, hcfg, ← hkept.cfg]; exact htlb) (by rw [hslot]; exact hdv) (by rw [hslot]; exact hwi.index hd)
      refine hti.byteRead_of_hit (r := r) (e := c) ?_
      rw [State.modifyEntry_cfg, hcfg]
      exact hl
    · exact Eq.trans (by rw [hw]; rfl) hpc
    · exact Eq.trans (by rw [hw]; rfl) hnext
  · refine ⟨?_, hpc, hnext⟩
    have hact : t.activeTable = some id := by rw [hkept.activeTable, hactive (hkept.cfg ▸ htable), hcur]
    refine hti.byteRead_of_hit (hui.lookup_of_table htable hact ?_ hev)
    rw [hkept.cfg]
    exact he

/-! ## Destruction -/

/-- Settles O56. -/
theorem destroyFreesFrames : Obligations.DestroyFreesFrames := by
  unfold Obligations.DestroyFreesFrames
  intro s t id ht
  refine ⟨State.destroySpace_claim ht, ?_⟩
  unfold State.destroySpace at ht
  split at ht
  · cases ht
  · cases ht
    have hspace (j : Nat) : Spaces.get (Spaces.erase s.spaces id) j = if j = id then none else s.space j :=
      Spaces.get_erase s.spaces id j
    refine ⟨(hspace id).trans (if_pos rfl), fun j hj => (hspace j).trans (if_neg hj), rfl, rfl, fun htlb hcur i => ?_⟩
    simp [htlb, hcur]

end Sys2Proof.Machine
end
